-- ==== Sys2Proof/Word.lean ====
section
/-! DEFINITION. The word types of GxEPD-CORE and the names of its byte spaces.
Bits are numbered from 0, the least significant (R19); values are unsigned unless a rule says otherwise (R20). -/

namespace Sys2Proof

/-- One byte of an internal byte space (R79). -/
abbrev Byte := BitVec 8

/-- One word of the command channel or of the result channel (R100). -/
abbrev Word := BitVec 32

/-- A drive-level code: Black = 0, DarkGrey = 1, LightGrey = 2, White = 3 (R72). -/
abbrev Code := BitVec 2

/-- A 16-bit colour operand, channels 5-6-5 (R140). -/
abbrev Color := BitVec 16

/-- The five internal byte spaces (R22, R70). -/
inductive Space where
  | fb0
  | fb1
  | rowbuf
  | lutE
  | lutD
  deriving DecidableEq, Repr

/-- The two waveform phases (R200); PH = 0 names the erase table and PH = 1 the draw table (R109). -/
inductive Phase where
  | erase
  | draw
  deriving DecidableEq, Repr

/-- The two framebuffer roles (R34); BSEL = 0 names the active buffer and BSEL = 1 the reference buffer (R108). -/
inductive Role where
  | active
  | reference
  deriving DecidableEq, Repr

end Sys2Proof
end

