-- ==== Sys2Proof/Config.lean ====
section
/-! DEFINITION. What one build of the block fixes (R7 to R16), the test configuration TC1 (R18), and the free values.
The build is plain data, held in State and written by no command: a statement about every state is a statement about
every build (log 1). The free values are constants with no body, so no proof can know them (logs 2 and 3). -/

namespace Sys2Proof

/-- `ERASE_FILL_SCOPE` (R15): what the white fill that ends a full erase writes. -/
inductive FillScope where
  | active
  | both
  deriving DecidableEq, Repr

/-- `ERASE_POWER` (R16): whether a full erase emits the power events. -/
inductive ErasePower where
  | wrapped
  | bare
  deriving DecidableEq, Repr

/-- One frame of a seed table: the output code of each of the four levels (R11; R18 writes it `[level0, ..., level3]`). -/
structure SeedFrame where
  level0 : Code
  level1 : Code
  level2 : Code
  level3 : Code
  deriving DecidableEq, Repr

/-- The parameters of one build (R7 to R16). -/
structure Build where
  /-- `W`, the native width in pixels (R7). -/
  w : Nat
  /-- `H`, the native height in rows (R8). -/
  h : Nat
  /-- `E`, the erase-phase frame count (R9). -/
  e : Nat
  /-- `D`, the draw-phase seed-table width (R10). -/
  d : Nat
  /-- `ERASE_SEED`, frame by frame (R11). -/
  eraseSeed : List SeedFrame
  /-- `DRAW_SEED`, frame by frame (R11). -/
  drawSeed : List SeedFrame
  /-- The four sentinel colours (R12). -/
  sBlack : Color
  sDarkGrey : Color
  sLightGrey : Color
  sWhite : Color
  /-- The three classifier thresholds (R13). -/
  t1 : Nat
  t2 : Nat
  t3 : Nat
  /-- `T_SETTLE_ON` and `T_SETTLE_OFF` (R14): no rule depends on their values, and nothing in the model reads them (log 13). -/
  tSettleOn : Nat
  tSettleOff : Nat
  eraseFillScope : FillScope
  erasePower : ErasePower
  deriving DecidableEq, Repr

/-- Test configuration TC1 (R18), with the defaults of R12, R13, R15 and R16. R18 gives no settle durations (log 13). -/
def Build.tc1 : Build where
  w := 8
  h := 2
  e := 2
  d := 3
  eraseSeed := [⟨3, 1, 2, 0⟩, ⟨2, 2, 1, 1⟩]
  drawSeed := [⟨1, 1, 2, 2⟩, ⟨0, 1, 2, 3⟩, ⟨3, 3, 3, 3⟩]
  sBlack := 0x0000
  sDarkGrey := 0x7BEF
  sLightGrey := 0xC618
  sWhite := 0xFFFF
  t1 := 32
  t2 := 63
  t3 := 97
  tSettleOn := 0
  tSettleOff := 0
  eraseFillScope := .active
  erasePower := .wrapped

/-- The byte that index `a` of space `sp` holds after the `draw`-th reset and before anything writes it: drawn freely
(R32, R40, R41, R48, R342; log 2). No body: nothing can be proved of its value. -/
opaque Config.freeByte (draw : Nat) (sp : Space) (a : Nat) : Byte

/-- `FRAME_CTR` after the `draw`-th reset, drawn freely (R43, R48; log 3). -/
opaque Config.freeFrameCtr (draw : Nat) : BitVec 16

/-- `ROW_CTR` after the `draw`-th reset, drawn freely (R43, R48; log 3). -/
opaque Config.freeRowCtr (draw : Nat) : BitVec 16

/-- `SRC_SIZE` after the `draw`-th reset, drawn freely (R43, R48; log 3). -/
opaque Config.freeSrcSize (draw : Nat) : Nat

end Sys2Proof
end

