-- ==== Sys2Proof/Syntax.lean ====
section
/-! DEFINITION. The commands of the block: one constructor per row of the opcode map (R114).
Coordinates stay the 16-bit fields of the packet; a meaning reads them as two's complement (R111). The reserved bits of
R116 are no part of a command: a packet that sets one is no command of this type, and the decoder rejects it by name. -/

namespace Sys2Proof

inductive Instr where
  /-- NOP (R280). -/
  | nop
  /-- INIT (R206). -/
  | init
  /-- SET_ROTATION r (R152). -/
  | setRotation (rot : BitVec 2)
  /-- SET_PIXEL x, y, color (R153). -/
  | setPixel (x y : BitVec 16) (color : Color)
  /-- FILL color (R154). -/
  | fill (color : Color)
  /-- DRAW_BITMAP x, y, w, h, fg, bytes (R155): the `ceil(w/8) * h` bitmap bytes, without the padding of the last word. -/
  | drawBitmap (x y : BitVec 16) (bw bh : BitVec 16) (fg : Color) (bytes : List Byte)
  /-- READ_PIXEL x, y and READ_PIXEL.REF x, y (R156). -/
  | readPixel (role : Role) (x y : BitVec 16)
  /-- UPDATE (R250). -/
  | update
  /-- ERASE_DISPLAY (R255). -/
  | eraseDisplay
  /-- READ_STATUS (R281). -/
  | readStatus
  /-- READ_INFO sel (R282). -/
  | readInfo (sel : BitVec 2)
  /-- READ_LUT.E b, f and READ_LUT.D b, f (R207). -/
  | readLut (phase : Phase) (bval : Byte) (frame : BitVec 16)
  deriving DecidableEq, Repr

end Sys2Proof
end

