-- ==== Sys2Proof/Decode.lean ====
section
/-! DEFINITION. From the words of the command channel to commands, and back (R100 to R118).
`decode` is total on any list of words: it answers a command, a rejected packet by name, or that words are still missing.
`encode` gives the words of a command, written from the same tables. -/

namespace Sys2Proof

/-! ## Sizes -/

/-- Bytes per bitmap row: `STRIDE = ceil(BW / 8)` (R113). -/
def bitmapStride (bw : Nat) : Nat := (bw + 7) / 8

/-- Bytes of a bitmap: `NBYTES = STRIDE * BH` (R113). -/
def bitmapByteCount (bw bh : Nat) : Nat := bitmapStride bw * bh

/-- Payload words of a bitmap: `NPAY = ceil(NBYTES / 4)` (R113). -/
def bitmapWordCount (bw bh : Nat) : Nat := (bitmapByteCount bw bh + 3) / 4

/-! ## The opcode map (R114) -/

/-- The twelve rows of the opcode map. -/
inductive Opcode where
  | nop
  | init
  | setRotation
  | setPixel
  | fill
  | drawBitmap
  | readPixel
  | update
  | eraseDisplay
  | readStatus
  | readInfo
  | readLut
  deriving DecidableEq, Repr

/-- One row of the opcode map: the match and mask of the command word, `NARG`, and whether a result word is due (R114). -/
structure OpRow where
  pattern : Word
  mask : Word
  narg : Nat
  result : Bool
  deriving DecidableEq, Repr

/-- The opcode map, row by row (R114). -/
def opRow : Opcode → OpRow
  | .nop          => ⟨0x00000000, 0xFFFFFFFF, 0, false⟩
  | .init         => ⟨0x01000000, 0xFFFFFFFF, 0, false⟩
  | .setRotation  => ⟨0x02000000, 0xFFFFFFFC, 0, false⟩
  | .setPixel     => ⟨0x10000000, 0xFFFF0000, 1, false⟩
  | .fill         => ⟨0x11000000, 0xFFFF0000, 0, false⟩
  | .drawBitmap   => ⟨0x12000000, 0xFFFF0000, 2, false⟩
  | .readPixel    => ⟨0x13000000, 0xFFFFFFFE, 1, true⟩
  | .update       => ⟨0x20000000, 0xFFFFFFFF, 0, false⟩
  | .eraseDisplay => ⟨0x21000000, 0xFFFFFFFF, 0, false⟩
  | .readStatus   => ⟨0x30000000, 0xFFFFFFFF, 0, true⟩
  | .readInfo     => ⟨0x31000000, 0xFFFFFFFC, 0, true⟩
  | .readLut      => ⟨0x32000000, 0xFFFE00FF, 1, true⟩

/-- Every row, in the order of the map. -/
def allOpcodes : List Opcode :=
  [.nop, .init, .setRotation, .setPixel, .fill, .drawBitmap, .readPixel, .update, .eraseDisplay, .readStatus,
    .readInfo, .readLut]

/-- `op = cw[31:24]` (R101). -/
def opField (cw : Word) : BitVec 8 := cw.extractLsb' 24 8

/-- The row that an 8-bit opcode names; none for the 244 undefined ones (R115). -/
def opcodeOf (op : BitVec 8) : Option Opcode :=
  allOpcodes.find? fun o => opField (opRow o).pattern == op

/-- The command word has no reserved bit set (R116): it lies in its row's pattern. -/
def cleanWord (o : Opcode) (cw : Word) : Bool := cw &&& (opRow o).mask == (opRow o).pattern

/-! ## Operand fields -/

/-- The low half of a word: X of an XY word, BW of a size word, FRAME (R109, R111, R112). -/
def lowHalf (w : Word) : BitVec 16 := w.extractLsb' 0 16

/-- The high half of a word: Y of an XY word, BH of a size word (R111, R112). -/
def highHalf (w : Word) : BitVec 16 := w.extractLsb' 16 16

/-- The four bytes of a payload word, byte 0 the least significant (R113). -/
def wordBytes (w : Word) : List Byte :=
  [w.extractLsb' 0 8, w.extractLsb' 8 8, w.extractLsb' 16 8, w.extractLsb' 24 8]

/-- The bitmap bytes of a payload: byte `k` comes from word `k div 4`, and bytes at `k >= NBYTES` are ignored (R113). -/
def payloadBytes (nbytes : Nat) (payload : List Word) : List Byte := (payload.flatMap wordBytes).take nbytes

/-- `BSEL` (R108). -/
def roleOfBit (b : Bool) : Role := if b then .reference else .active

/-- `PH` (R109). -/
def phaseOfBit (b : Bool) : Phase := if b then .draw else .erase

/-! ## Packets -/

/-- The length of the packet that starts a list of words (R118): `1 + NARG + NPAY`, and 1 for an undefined opcode. A size
word that has not arrived counts as zero; the packet is then incomplete anyway, since `NARG` words are missing. -/
def packetLength (ws : List Word) : Nat :=
  let cw := ws.getD 0 0
  match opcodeOf (opField cw) with
  | none => 1
  | some o =>
    let size := ws.getD 2 0
    1 + (opRow o).narg +
      (if o = .drawBitmap then bitmapWordCount (lowHalf size).toNat (highHalf size).toNat else 0)

/-- Why a packet is no command (R115, R116). -/
inductive Illegal where
  /-- One of the 244 undefined opcodes (R115). -/
  | undefinedOpcode
  /-- A defined opcode with a reserved bit set (R116). -/
  | reservedBits (o : Opcode)
  deriving DecidableEq, Repr

/-- Whether an illegal packet still owes a result word: 0 if its command has one (R102, R116), none for an undefined opcode (R115). -/
def Illegal.resultDue : Illegal → Bool
  | .undefinedOpcode => false
  | .reservedBits o => (opRow o).result

/-- What the words at the head of the command channel are. -/
inductive Decoded where
  /-- A whole command packet, and the words after it. -/
  | command (i : Instr) (rest : List Word)
  /-- A whole packet that is no command, and the words after it. -/
  | illegal (why : Illegal) (rest : List Word)
  /-- Words of the packet are still missing (R101). -/
  | incomplete
  deriving DecidableEq, Repr

/-- The command of a row, from its command word, its first two argument words and its payload (R103 to R110). -/
def commandOf (o : Opcode) (cw a0 a1 : Word) (payload : List Word) : Instr :=
  match o with
  | .nop => .nop
  | .init => .init
  | .setRotation => .setRotation (cw.extractLsb' 0 2)
  | .setPixel => .setPixel (lowHalf a0) (highHalf a0) (lowHalf cw)
  | .fill => .fill (lowHalf cw)
  | .drawBitmap =>
    .drawBitmap (lowHalf a0) (highHalf a0) (lowHalf a1) (highHalf a1) (lowHalf cw)
      (payloadBytes (bitmapByteCount (lowHalf a1).toNat (highHalf a1).toNat) payload)
  | .readPixel => .readPixel (roleOfBit (cw.getLsbD 0)) (lowHalf a0) (highHalf a0)
  | .update => .update
  | .eraseDisplay => .eraseDisplay
  | .readStatus => .readStatus
  | .readInfo => .readInfo (cw.extractLsb' 0 2)
  | .readLut => .readLut (phaseOfBit (cw.getLsbD 16)) (cw.extractLsb' 8 8) (lowHalf a0)

/-- The packet has no reserved bit set: the command word's (R103 to R110), and `arg[0][31:16]` of READ_LUT (R109, R116). -/
def cleanPacket (o : Opcode) (cw a0 : Word) : Bool :=
  cleanWord o cw && (o != .readLut || highHalf a0 == 0)

/-- Read the packet at the head of a list of words (R101, R114 to R118). An undefined opcode takes only its command word
(R115); a reserved bit is seen after the whole packet has been taken (R116). -/
def decode (ws : List Word) : Decoded :=
  match ws with
  | [] => .incomplete
  | cw :: args =>
    match opcodeOf (opField cw) with
    | none => .illegal .undefinedOpcode args
    | some o =>
      let n := packetLength ws
      if ws.length < n then .incomplete
      else
        let rest := ws.drop n
        if cleanPacket o cw (args.getD 0 0) then
          .command (commandOf o cw (args.getD 0 0) (args.getD 1 0) ((ws.take n).drop 3)) rest
        else .illegal (.reservedBits o) rest

/-! ## Encoding -/

/-- The row of a command. -/
def Instr.opcode : Instr → Opcode
  | .nop => .nop
  | .init => .init
  | .setRotation _ => .setRotation
  | .setPixel _ _ _ => .setPixel
  | .fill _ => .fill
  | .drawBitmap _ _ _ _ _ _ => .drawBitmap
  | .readPixel _ _ _ => .readPixel
  | .update => .update
  | .eraseDisplay => .eraseDisplay
  | .readStatus => .readStatus
  | .readInfo _ => .readInfo
  | .readLut _ _ _ => .readLut

/-- Pack bytes into words, little-endian, the last word padded with zero bytes (R113, R119). -/
def packBytes : List Byte → List Word
  | [] => []
  | [b0] => [0#24 ++ b0]
  | [b0, b1] => [0#16 ++ b1 ++ b0]
  | [b0, b1, b2] => [0#8 ++ b2 ++ b1 ++ b0]
  | b0 :: b1 :: b2 :: b3 :: bs => (b3 ++ b2 ++ b1 ++ b0) :: packBytes bs

/-- `BSEL` of a role (R108). -/
def Role.bit : Role → BitVec 1
  | .active => 0
  | .reference => 1

/-- `PH` of a phase (R109). -/
def Phase.bit : Phase → BitVec 1
  | .erase => 0
  | .draw => 1

/-- The words of a command (R103 to R113), command word first. -/
def encode (i : Instr) : List Word :=
  let op : BitVec 8 := opField (opRow i.opcode).pattern
  match i with
  | .nop => [op ++ 0#24]
  | .init => [op ++ 0#24]
  | .setRotation rot => [op ++ 0#22 ++ rot]
  | .setPixel x y color => [op ++ 0#8 ++ color, y ++ x]
  | .fill color => [op ++ 0#8 ++ color]
  | .drawBitmap x y bw bh fg bytes => [op ++ 0#8 ++ fg, y ++ x, bh ++ bw] ++ packBytes bytes
  | .readPixel role x y => [op ++ 0#23 ++ role.bit, y ++ x]
  | .update => [op ++ 0#24]
  | .eraseDisplay => [op ++ 0#24]
  | .readStatus => [op ++ 0#24]
  | .readInfo sel => [op ++ 0#22 ++ sel]
  | .readLut phase bval frame => [op ++ 0#7 ++ phase.bit ++ bval ++ 0#8, 0#16 ++ frame]

/-! ## Pseudo-instructions (R120): other spellings of one command each -/

/-- `CLEAR` is `FILL S_WHITE`. -/
def pseudoClear (b : Build) : Instr := .fill b.sWhite

/-- `BLANK` is `FILL S_BLACK`. -/
def pseudoBlank (b : Build) : Instr := .fill b.sBlack

/-- `PLOT x, y` is `SET_PIXEL x, y, S_BLACK`. -/
def pseudoPlot (b : Build) (x y : BitVec 16) : Instr := .setPixel x y b.sBlack

/-- `REFRESH` is `UPDATE`. -/
def pseudoRefresh : Instr := .update

/-! ## The host's table words -/

/-- Fill a packet up with zero words to its own length (R118). -/
def padPacket (ws : List Word) : List Word := ws ++ List.replicate (packetLength ws - ws.length) 0

/-- The words of an instruction given as one number, bit 0 the least significant bit of the first word, the bits above
`nbits` zero: the words of the channel in the order the port takes them. -/
def tableWords (nbits w : Nat) : List Word :=
  padPacket ((List.range (max 1 ((nbits + 31) / 32))).map fun k => BitVec.ofNat 32 ((w % 2 ^ nbits) >>> (32 * k)))

/-- The command that `decode` reads from a table word, and none where it rejects it. -/
def decodeTableWord (nbits w : Nat) : Option Instr :=
  match decode (tableWords nbits w) with
  | .command i _ => some i
  | .illegal _ _ => none
  | .incomplete => none

end Sys2Proof
end

