-- ==== Sys2Proof/Machine/State.lean ====
section
/-! DEFINITION. The state of the block as plain data (R30 to R48), the reasons the model stops, and the state after reset. -/

namespace Sys2Proof.Machine

/-! ## Byte spaces -/

/-- The bytes of one space that have been written since the last reset, by index. An index that is not listed has not been
written: it holds no value of its own, and reading it gives the free draw `Config.freeByte` (R48, R342; log 2). -/
abbrev Memory := List Host.Cell

/-- The canonical form: indexes strictly rising, so one entry for each written index (log 2). -/
abbrev Memory.wf (m : Memory) : Prop := (m.map Prod.fst).Pairwise (· < ·)

/-- Every listed index lies in a space of `size` bytes (R22, R70). -/
abbrev Memory.within (size : Nat) (m : Memory) : Prop := ∀ c ∈ m, c.1 < size

/-! ## The transport port -/

/-- The transport events (R230). -/
inductive Event where
  | pwrOn
  | pwrOff
  | scanStart
  | row (bytes : List Byte) (pixelWidth : Nat)
  deriving DecidableEq, Repr

/-- The two settle holds (R23, R233). -/
inductive Settle where
  | on
  | off
  deriving DecidableEq, Repr

/-- One entry of the trace: a transport event, or the marker of a settle hold (R23, R230). -/
inductive Mark where
  | event (e : Event)
  | settle (k : Settle)
  deriving DecidableEq, Repr

/-- What the transport still does (R231, R356; log 8): it acknowledges every event, or `n` more events and then none. -/
inductive Transport where
  | ready
  | acksLeft (n : Nat)
  deriving DecidableEq, Repr

/-! ## The sequencer's position (R43) -/

/-- `SEQ` (R43, R246). -/
inductive Seq where
  | idle
  | powerOn
  | settleOn
  | erase
  | draw
  | settleOff
  | powerOff
  | swap
  | fill
  deriving DecidableEq, Repr

/-- `JOB` (R43). -/
inductive Job where
  | none
  | update
  | eraseDisplay
  deriving DecidableEq, Repr

/-! ## Faults the block records, and reasons the model stops -/

/-- The faults that the block records in `ERR` (R300). Raising one is a next state (R301), never a stop. -/
inductive FaultCode where
  | illegalCommand
  | notInit
  | badArgument
  deriving DecidableEq, Repr

/-- Why the machine stops with a fault. No rule of the spec stops the block: R301 ends a faulting command and goes on. -/
inductive Fault where
  /-- Raised by `step` only, in a state whose sequencer position is none that R246 and R237 give a waiting command (for
  example `JOB = NONE` with an event presented). No run from reset reaches such a state (log 11). Safe: the model stops. -/
  | lostSequencer
  deriving DecidableEq, Repr

/-- Why the model gives no meaning. -/
inductive Refusal where
  /-- Raised by a rejected arm of `exec`, for an instruction whose meaning is not written. Safe: the model stops. -/
  | notModelled (mnemonic : String)
  /-- Raised by `step` for a build outside the ranges of R7 to R13 or against R143: "refused by the model, which gives it no
  meaning" (D34, U17). Safe: the model stops. -/
  | illFormedBuild
  deriving DecidableEq, Repr

/-! ## The state -/

structure State where
  /-- The parameters of the build: fixed, written by nothing (R7 to R16; log 1). -/
  build : Build
  /-- `FB0` (R32). -/
  fb0 : Memory
  /-- `FB1` (R32). -/
  fb1 : Memory
  /-- `ROWBUF` (R41). -/
  rowbuf : Memory
  /-- `LUT_E`, entry `[b][f]` at index `b * E + f` (R40; log 5). -/
  lutE : Memory
  /-- `LUT_D`, entry `[b][f]` at index `b * D + f` (R40; log 5). -/
  lutD : Memory
  /-- `ACTIVE_SEL` (R33): true when it is 1, that is when `FB1` is active. -/
  activeSel : Bool
  /-- `ROTATION` (R35). -/
  rotation : BitVec 2
  /-- `LUT_VALID` (R36). -/
  lutValid : Bool
  /-- `ERR` (R37). -/
  err : BitVec 4
  /-- `SEQ` (R43). -/
  seq : Seq
  /-- `JOB` (R43). -/
  job : Job
  /-- `FRAME_CTR` (R43). -/
  frameCtr : BitVec 16
  /-- `ROW_CTR` (R43). -/
  rowCtr : BitVec 16
  /-- `SRC_SIZE`, in bytes (R43; log 12). -/
  srcSize : Nat
  /-- `BUSY` (R44; log 16). -/
  busy : Bool
  /-- The command assembler: the words of a packet begun and not finished, oldest first (R45). -/
  asm : List Word
  /-- The transport port: the event presented and not yet acknowledged (R46). -/
  presented : Option Event
  /-- The command channel: words the host has offered and the block has not taken, oldest first (R100, R352; log 6). -/
  cmdChan : List Word
  /-- The result channel: every word placed on it, oldest first (R100, R102; log 6). -/
  results : List Word
  /-- What the transport still acknowledges (R231; log 8). -/
  transport : Transport
  /-- The reset input (R340; log 9): `some n` when it is asserted after `n` more actions of the block. -/
  resetAfter : Option Nat
  /-- The transport events presented and the settle markers, oldest first (R23, R230). -/
  trace : List Mark
  /-- Every fault raised, oldest first, never cleared (R307). -/
  faultLog : List FaultCode
  /-- The MODEL's own: how many reset events there have been, which selects the free draws (logs 2 and 3). -/
  draw : Nat
  deriving DecidableEq, Repr

/-- The state of a build right after its `draw`-th reset (R48): the values of R48 where it gives one, and the free draws where
it leaves a value unspecified. Nothing offered, nothing recorded yet (logs 6, 8, 9, 10). -/
def State.resetOf (b : Build) (draw : Nat) : State where
  build := b
  fb0 := []
  fb1 := []
  rowbuf := []
  lutE := []
  lutD := []
  activeSel := false
  rotation := 0
  lutValid := false
  err := 0
  seq := .idle
  job := .none
  frameCtr := Config.freeFrameCtr draw
  rowCtr := Config.freeRowCtr draw
  srcSize := Config.freeSrcSize draw
  busy := false
  asm := []
  presented := none
  cmdChan := []
  results := []
  transport := .ready
  resetAfter := none
  trace := []
  faultLog := []
  draw := draw

/-- The machine right after reset, for the one build that a fixed name needs: TC1 (R18; DESIGN CHOICE, log 1). -/
def State.reset : State := State.resetOf Build.tc1 0

end Sys2Proof.Machine
end

