-- ==== Sys2Proof/Machine/Operands.lean ====
section
/-! DEFINITION. The operand forms: the packed pixel format, the classifier, the rotation addressing unit, the bitmap's bits, the
waveform expansion, and the well-formedness of a build. Pure functions of operands and of the build. -/

namespace Sys2Proof.Machine

/-! ## Derived constants (R17) -/

/-- `BPR = W / 4`, the bytes of a row (R17). -/
def bytesPerRow (b : Build) : Nat := b.w / 4

/-- `BUF_SIZE = ceil(W*H*2/8)`, the bytes of a framebuffer (R17). -/
def bufSize (b : Build) : Nat := (b.w * b.h * 2 + 7) / 8

/-! ## The packed pixel format (R71, R74, R75) -/

/-- `GetField(v, p) = v[7-2p : 6-2p]` (R75). -/
def getField (v : Byte) (p : Nat) : Code := v.extractLsb' (6 - 2 * p) 2

/-- `SetField(v, p, c)` (R75). -/
def setField (v : Byte) (p : Nat) (c : Code) : Byte :=
  (v &&& ~~~(3#8 <<< (6 - 2 * p))) ||| (c.setWidth 8 <<< (6 - 2 * p))

/-- `Rep(c)`, four equal fields (R75). -/
def rep (c : Code) : Byte := c ++ c ++ c ++ c

/-- `PixByte(xn, yn) = yn * BPR + (xn div 4)` (R74). -/
def pixByte (b : Build) (xn yn : Nat) : Nat := yn * bytesPerRow b + xn / 4

/-- `PixField(xn) = xn mod 4` (R74). -/
def pixField (xn : Nat) : Nat := xn % 4

/-! ## The classifier (R140 to R142) -/

/-- `M(c)`: the sum of the three 5-6-5 channel fields (R140, R141). -/
def metric (c : Color) : Nat :=
  (c.extractLsb' 11 5).toNat + (c.extractLsb' 5 6).toNat + (c.extractLsb' 0 5).toNat

/-- `Band(m)`: the three thresholds, compared with `<` (R142). -/
def band (b : Build) (m : Nat) : Code :=
  if m < b.t1 then 0
  else if m < b.t2 then 1
  else if m < b.t3 then 2
  else 3

/-- `classify(c)`: the four sentinels exactly, every other colour by its band (R142). -/
def classify (b : Build) (c : Color) : Code :=
  if c = b.sBlack then 0
  else if c = b.sWhite then 3
  else if c = b.sDarkGrey then 1
  else if c = b.sLightGrey then 2
  else band b (metric c)

/-! ## The rotation addressing unit (R146 to R150) -/

/-- `VW`, the visible width (R146). -/
def visW (b : Build) (r : BitVec 2) : Nat := if r = 0 ∨ r = 2 then b.w else b.h

/-- `VH`, the visible height (R146). -/
def visH (b : Build) (r : BitVec 2) : Nat := if r = 0 ∨ r = 2 then b.h else b.w

/-- `InVis(x, y)` (R147). -/
def inVis (b : Build) (r : BitVec 2) (x y : Int) : Bool :=
  decide (0 ≤ x) && decide (x < visW b r) && decide (0 ≤ y) && decide (y < visH b r)

/-- `Rot(ROTATION, x, y)`, before narrowing to the native grid (R148). -/
def rotate (b : Build) (r : BitVec 2) (x y : Int) : Int × Int :=
  if r = 0 then (x, y)
  else if r = 1 then ((b.w : Int) - 1 - y, x)
  else if r = 2 then ((b.w : Int) - 1 - x, (b.h : Int) - 1 - y)
  else (y, (b.h : Int) - 1 - x)

/-- The native column `xn` of a visible pixel (R148). -/
def nativeX (b : Build) (r : BitVec 2) (x y : Int) : Nat := (rotate b r x y).1.toNat

/-- The native row `yn` of a visible pixel (R148). -/
def nativeY (b : Build) (r : BitVec 2) (x y : Int) : Nat := (rotate b r x y).2.toNat

/-- The byte of `Addr(x, y)` (R150). -/
def addrByte (b : Build) (r : BitVec 2) (x y : Int) : Nat := pixByte b (nativeX b r x y) (nativeY b r x y)

/-- The field of `Addr(x, y)` (R150). -/
def addrField (b : Build) (r : BitVec 2) (x y : Int) : Nat := pixField (nativeX b r x y)

/-! ## The bitmap's bits (R113, R155) -/

/-- Bit `i` of bitmap row `j`: `bm[j*STRIDE + (i div 8)][7 - (i mod 8)]`. A command of the block carries every byte that this
reads (`Instr.wf`). -/
def bitmapBit (bytes : List Byte) (bw i j : Nat) : Bool :=
  (bytes.getD (j * bitmapStride bw + i / 8) 0).getLsbD (7 - i % 8)

/-- The code of one bitmap pixel: a set bit is White, a clear bit the classified foreground (R155). -/
def bitmapCode (fg : Code) (bit : Bool) : Code := if bit then 3 else fg

/-! ## The waveform expansion (R200, R201) -/

/-- `SEED[level]` of one frame (R11). -/
def seedCode (f : SeedFrame) (level : Code) : Code :=
  if level = 0 then f.level0
  else if level = 1 then f.level1
  else if level = 2 then f.level2
  else f.level3

/-- The seed table of a phase (R200). -/
def seedOf (b : Build) : Phase → List SeedFrame
  | .erase => b.eraseSeed
  | .draw => b.drawSeed

/-- The frames of a phase's tables: `E` or `D` (R200). -/
def frameCount (b : Build) : Phase → Nat
  | .erase => b.e
  | .draw => b.d

/-- `SEED_P[level][f]` (R200). A well-formed build has a column for every frame that a rule names; the column read beyond the
last one of another build is log 14's. -/
def seedAt (b : Build) (p : Phase) (f : Nat) (level : Code) : Code :=
  seedCode ((seedOf b p).getD f ⟨0, 0, 0, 0⟩) level

/-- `Expand(SEED_P, v, f)`: each field mapped through the seed table, in place (R201). -/
def expand (b : Build) (p : Phase) (v : Byte) (f : Nat) : Byte :=
  seedAt b p f (getField v 0) ++ seedAt b p f (getField v 1) ++ seedAt b p f (getField v 2) ++
    seedAt b p f (getField v 3)

/-- Where entry `[v][f]` of a phase's expanded table stands in its space (log 5). -/
def lutIndex (b : Build) (p : Phase) (v : Byte) (f : Nat) : Nat := v.toNat * frameCount b p + f

/-- Bytes of a phase's expanded table: `256 * E` or `256 * D` (R40, R70). -/
def lutSize (b : Build) (p : Phase) : Nat := 256 * frameCount b p

/-! ## Which builds the model gives a meaning (R7 to R13, R143) -/

/-- The panel's size (R7, R8). -/
def sizesOk (b : Build) : Bool :=
  decide (b.w % 4 = 0 ∧ 4 ≤ b.w ∧ b.w ≤ 32764) && decide (1 ≤ b.h ∧ b.h ≤ 32767)

/-- The frame counts, and one seed column for each frame (R9, R10, R11). -/
def framesOk (b : Build) : Bool :=
  decide (1 ≤ b.e ∧ b.e ≤ 65535) && decide (2 ≤ b.d ∧ b.d ≤ 65535) &&
    decide (b.eraseSeed.length = b.e) && decide (b.drawSeed.length = b.d)

/-- The thresholds (R13). -/
def thresholdsOk (b : Build) : Bool := decide (0 < b.t1 ∧ b.t1 < b.t2 ∧ b.t2 < b.t3 ∧ b.t3 ≤ 125)

/-- The sentinels are pairwise distinct (R12) and each lies in its own band (R143). -/
def sentinelsOk (b : Build) : Bool :=
  decide ([b.sBlack, b.sDarkGrey, b.sLightGrey, b.sWhite].Nodup) &&
    decide (band b (metric b.sBlack) = 0 ∧ band b (metric b.sDarkGrey) = 1 ∧ band b (metric b.sLightGrey) = 2 ∧
      band b (metric b.sWhite) = 3)

/-- A build of R7 to R13 that keeps R143; the model refuses every other one (D34, U17). -/
def buildOk (b : Build) : Bool := sizesOk b && framesOk b && thresholdsOk b && sentinelsOk b

end Sys2Proof.Machine
end

