-- ==== Sys2Proof/Machine/Ops.lean ====
section
/-! DEFINITION. The shared operations over State: reading and writing the byte spaces, result words, raising a fault, the
transport port, and the reset event. -/

namespace Sys2Proof.Machine

/-! ## Byte spaces -/

/-- The written byte at index `a`, if there is one. -/
def Memory.find? (m : Memory) (a : Nat) : Option Byte :=
  match m with
  | [] => none
  | c :: m => if c.1 = a then some c.2 else Memory.find? m a

/-- Write one byte, keeping the indexes rising. -/
def Memory.insert (m : Memory) (a : Nat) (v : Byte) : Memory :=
  match m with
  | [] => [(a, v)]
  | c :: m =>
    if a < c.1 then (a, v) :: c :: m
    else if a = c.1 then (a, v) :: m
    else c :: Memory.insert m a v

/-- The memory in which every index below `n` has been written, index `a` with `g a`. -/
def Memory.table (n : Nat) (g : Nat → Byte) : Memory := (List.range n).map fun a => (a, g a)

/-- The memory of a space (R70). -/
def spaceOf (sp : Space) (s : State) : Memory :=
  match sp with
  | .fb0 => s.fb0
  | .fb1 => s.fb1
  | .rowbuf => s.rowbuf
  | .lutE => s.lutE
  | .lutD => s.lutD

/-- The size of a space in bytes (R70). -/
def spaceSize (b : Build) : Space → Nat
  | .fb0 => bufSize b
  | .fb1 => bufSize b
  | .rowbuf => bytesPerRow b
  | .lutE => lutSize b .erase
  | .lutD => lutSize b .draw

/-- Replace the memory of a space. -/
def setSpace (sp : Space) (m : Memory) (s : State) : State :=
  match sp with
  | .fb0 => { s with fb0 := m }
  | .fb1 => { s with fb1 := m }
  | .rowbuf => { s with rowbuf := m }
  | .lutE => { s with lutE := m }
  | .lutD => { s with lutD := m }

/-- `MemRead(space, a, 1)` (R22): the byte written there, or the free draw where nothing has been written since reset (R48). No
index of a run leaves its space, and none is checked (log 4). -/
def readByte (sp : Space) (a : Nat) (s : State) : Byte :=
  ((spaceOf sp s).find? a).getD (Config.freeByte s.draw sp a)

/-- `MemWrite(space, a, 1, v)` (R22). -/
def writeByte (sp : Space) (a : Nat) (v : Byte) (s : State) : State :=
  setSpace sp ((spaceOf sp s).insert a v) s

/-- Write every byte of a space, index `a` with `g a`. -/
def writeAll (sp : Space) (g : Nat → Byte) (s : State) : State :=
  setSpace sp (Memory.table (spaceSize s.build sp) g) s

/-- `FB(A)` and `FB(R)`: the framebuffer of a role (R33, R34). -/
def bufferOf (role : Role) (s : State) : Space :=
  match role with
  | .active => if s.activeSel then .fb1 else .fb0
  | .reference => if s.activeSel then .fb0 else .fb1

/-- The space of a phase's expanded table (R200). -/
def lutSpace : Phase → Space
  | .erase => .lutE
  | .draw => .lutD

/-- `LUT_P[v][f]` (R40). -/
def readTable (p : Phase) (v : Byte) (f : Nat) (s : State) : Byte :=
  readByte (lutSpace p) (lutIndex s.build p v f) s

/-! ## Result words -/

/-- `result(v)`: one word on the result channel (R23, R102). -/
def putResult (v : Word) (s : State) : State := { s with results := s.results ++ [v] }

/-! ## Faults: the block's only exception (R300 to R307)

Taking one saves no state, changes no mode and goes nowhere (R306); there is no return from it (R307). -/

/-- The code that `ERR` records (R300). -/
def FaultCode.code : FaultCode → BitVec 4
  | .illegalCommand => 1
  | .notInit => 2
  | .badArgument => 3

/-- `raise Fault(code)` (R301): the first code since reset is kept in `ERR`, every fault goes into the fault history (R307), and
nothing else changes. The command ends here. -/
def raiseFault (f : FaultCode) (s : State) : State :=
  { s with err := if s.err = 0 then f.code else s.err, faultLog := s.faultLog ++ [f] }

/-- A fault of a command that owes a result word: the word is 0 (R102, R301). -/
def raiseWithResult (f : FaultCode) (s : State) : State := raiseFault f (putResult 0 s)

/-! ## The transport port (R230, R231) -/

/-- Present an event at the port and record it (R23, R230). -/
def present (e : Event) (s : State) : State :=
  { s with presented := some e, trace := s.trace ++ [.event e] }

/-- The transport's answer to the presented event: it acknowledges it, or leaves it presented for ever (R231; log 8). -/
def acknowledge (s : State) : State :=
  match s.transport with
  | .ready => { s with presented := none }
  | .acksLeft 0 => s
  | .acksLeft (n + 1) => { s with presented := none, transport := .acksLeft n }

/-- `settle(kind)`: only its marker; the hold ends by itself (R23, R233). -/
def recordSettle (k : Settle) (s : State) : State := { s with trace := s.trace ++ [.settle k] }

/-! ## Reset (R340) -/

/-- The reset input is asserted: every item of R48 takes its reset value, the free draws are fresh, and a command in progress
is abandoned. What is outside the block stays: the words the host still offers, the transport, and the model's records (log 10). -/
def resetEvent (s : State) : State :=
  { State.resetOf s.build (s.draw + 1) with
    cmdChan := s.cmdChan
    results := s.results
    transport := s.transport
    trace := s.trace
    faultLog := s.faultLog }

/-- `n` actions of the block bring an awaited reset nearer (log 9). -/
def elapse (n : Nat) (s : State) : State :=
  { s with resetAfter := s.resetAfter.map (· - n) }

/-- One action of the block brings an awaited reset one nearer (log 9). -/
def tickReset (s : State) : State := elapse 1 s

end Sys2Proof.Machine
end

