-- ==== Sys2Proof/Machine/Flags.lean ====
section
/-! DEFINITION. The status bits: the status word and the checks that read a status bit. The block has no arithmetic flags
(R39): `LUT_VALID` is written by INIT alone, `ERR` by a fault alone, `ACTIVE_SEL` by the swap alone. -/

namespace Sys2Proof.Machine

/-- `STATUS`: bit 0 `LUT_VALID`, bit 1 `ACTIVE_SEL`, bits 3:2 `ROTATION`, bits 7:4 `ERR`, bits 31:8 zero (R38, R281). -/
def statusWord (s : State) : Word :=
  0#24 ++ s.err ++ s.rotation ++ BitVec.ofBool s.activeSel ++ BitVec.ofBool s.lutValid

/-- `ACTIVE_SEL <- NOT ACTIVE_SEL` (R247). -/
def swapRoles (s : State) : State := { s with activeSel := !s.activeSel }

end Sys2Proof.Machine
end

