-- ==== Sys2Proof/Machine/Control.lean ====
section
/-! DEFINITION. The control and status commands: NOP, READ_STATUS, READ_INFO (R280 to R282). -/

namespace Sys2Proof.Machine

/-- NOP (R280). -/
def execNop (s : State) : Host.Outcome State Fault Refusal := .next s

/-- READ_STATUS (R281). -/
def execReadStatus (s : State) : Host.Outcome State Fault Refusal := .next (putResult (statusWord s) s)

/-- `{ trunc_16(hi), trunc_16(lo) }` (R282). -/
def pairWord (hi lo : Nat) : Word := BitVec.ofNat 16 hi ++ BitVec.ofNat 16 lo

/-- READ_INFO (R282): selector 3 is a BAD_ARGUMENT (R304). -/
def execReadInfo (sel : BitVec 2) (s : State) : Host.Outcome State Fault Refusal :=
  if sel = 0 then .next (putResult (pairWord s.build.h s.build.w) s)
  else if sel = 1 then .next (putResult (pairWord s.build.d s.build.e) s)
  else if sel = 2 then .next (putResult (pairWord (visH s.build s.rotation) (visW s.build s.rotation)) s)
  else .next (raiseWithResult .badArgument s)

end Sys2Proof.Machine
end

