-- ==== Sys2Proof/Machine/Pixel.lean ====
section
/-! DEFINITION. The framebuffer commands: SET_ROTATION, SET_PIXEL, FILL, DRAW_BITMAP, READ_PIXEL (R152 to R156). -/

namespace Sys2Proof.Machine

/-- Packed write: one field of the active buffer's byte at `Addr(x, y)`, read-modify-write (R76, R150). -/
def writePixel (code : Code) (x y : Int) (s : State) : State :=
  let sp := bufferOf .active s
  let a := addrByte s.build s.rotation x y
  writeByte sp a (setField (readByte sp a s) (addrField s.build s.rotation x y) code) s

/-- Write one pixel if it is visible; an invisible one is silently absorbed (R147, R153, R308). -/
def plot (code : Code) (x y : Int) (s : State) : State :=
  if inVis s.build s.rotation x y then writePixel code x y s else s

/-- Packed read of a buffer's field at `Addr(x, y)` (R77, R150). -/
def readPixelCode (role : Role) (x y : Int) (s : State) : Code :=
  getField (readByte (bufferOf role s) (addrByte s.build s.rotation x y) s) (addrField s.build s.rotation x y)

/-- One row of a bitmap, pixel by pixel (R155). Coordinates are exact integers, with no 16-bit wrap. -/
def plotRow (x0 y0 : Int) (bw : Nat) (fg : Code) (bytes : List Byte) (j : Nat) (s : State) : State :=
  (List.range bw).foldl (fun t i => plot (bitmapCode fg (bitmapBit bytes bw i j)) (x0 + i) (y0 + j) t) s

/-- A whole bitmap, row by row (R155). -/
def plotBitmap (x0 y0 : Int) (bw bh : Nat) (fg : Code) (bytes : List Byte) (s : State) : State :=
  (List.range bh).foldl (fun t j => plotRow x0 y0 bw fg bytes j t) s

/-- SET_ROTATION (R152). -/
def execSetRotation (rot : BitVec 2) (s : State) : Host.Outcome State Fault Refusal :=
  .next { s with rotation := rot }

/-- SET_PIXEL (R153). -/
def execSetPixel (x y : BitVec 16) (color : Color) (s : State) : Host.Outcome State Fault Refusal :=
  .next (plot (classify s.build color) x.toInt y.toInt s)

/-- FILL (R154). -/
def execFill (color : Color) (s : State) : Host.Outcome State Fault Refusal :=
  .next (writeAll (bufferOf .active s) (fun _ => rep (classify s.build color)) s)

/-- DRAW_BITMAP (R155). -/
def execDrawBitmap (x y bw bh : BitVec 16) (fg : Color) (bytes : List Byte) (s : State) :
    Host.Outcome State Fault Refusal :=
  .next (plotBitmap x.toInt y.toInt bw.toNat bh.toNat (classify s.build fg) bytes s)

/-- READ_PIXEL (R156): the code in bits 1:0, or bit 31 alone outside the visible rectangle. -/
def execReadPixel (role : Role) (x y : BitVec 16) (s : State) : Host.Outcome State Fault Refusal :=
  .next (putResult
    (if inVis s.build s.rotation x.toInt y.toInt then (readPixelCode role x.toInt y.toInt s).setWidth 32
      else 0x80000000) s)

end Sys2Proof.Machine
end

