-- ==== Sys2Proof/Machine/Sequencer.lean ====
section
/-! DEFINITION. The refresh sequencer (R230 to R248). A command's walk through R246's states is a list of actions, written from the
pseudocode of R237, R250 and R255; the sequencer performs them in order and waits at each event the transport does not
acknowledge. What is left of the list then follows from the position R43 keeps (`SEQ`, `JOB`, the two counters) and
the presented event (log 11). -/

namespace Sys2Proof.Machine

/-- One action of the sequencer: one line of the pseudocode of R237, R250 or R255. -/
inductive Action where
  /-- `SEQ <- q`. -/
  | enter (q : Seq)
  /-- `FRAME_CTR <- f`. -/
  | frame (f : Nat)
  /-- `ROW_CTR <- r`. -/
  | row (r : Nat)
  /-- `emit(PWR_ON)`. -/
  | emitPwrOn
  /-- `emit(PWR_OFF)`. -/
  | emitPwrOff
  /-- `emit(SCAN_START)`. -/
  | emitScan
  /-- Build row `r` of frame `f` in phase `p` (R236). -/
  | build (p : Phase) (f r : Nat)
  /-- `emit(ROW(ROWBUF[0 .. BPR-1], W))`. -/
  | emitRow
  /-- `settle(kind)`. -/
  | settle (k : Settle)
  /-- `ACTIVE_SEL <- NOT ACTIVE_SEL`. -/
  | swap
  /-- Every byte of a role's buffer becomes `0xFF`. -/
  | white (role : Role)
  /-- `SEQ <- IDLE; JOB <- NONE`: the command has completed. -/
  | finish
  deriving DecidableEq, Repr

/-! ## What one action does -/

/-- The buffer a phase reads: erase the reference buffer, draw the active one (R239, R240). -/
def passRole : Phase → Role
  | .erase => .reference
  | .draw => .active

/-- `Src(F, size, i)`: the source byte, or the padding byte `0xFF` at or beyond the declared size (R234). -/
def srcByte (p : Phase) (i : Nat) (s : State) : Byte :=
  if i < s.srcSize then readByte (bufferOf (passRole p) s) i s else 0xFF

/-- Byte `j` of row `r` of frame `f` in phase `p`: `LUT_P[Src(F, size, r*BPR + j)][f]` (R236). -/
def rowByte (p : Phase) (f r j : Nat) (s : State) : Byte :=
  readTable p (srcByte p (r * bytesPerRow s.build + j) s) f s

/-- Build a row: every byte of `ROWBUF` (R236). -/
def buildRow (p : Phase) (f r : Nat) (s : State) : State :=
  writeAll .rowbuf (fun j => rowByte p f r j s) s

/-- The event `ROW(ROWBUF[0 .. BPR-1], W)`, a copy of the row buffer as it stands (R230). -/
def rowEvent (s : State) : Event :=
  .row ((List.range (bytesPerRow s.build)).map fun j => readByte .rowbuf j s) s.build.w

/-- `JOB <- j; SRC_SIZE <- size`; the port is busy until the command completes (R44, R250, R255). -/
def startJob (j : Job) (size : Nat) (s : State) : State := { s with job := j, srcSize := size, busy := true }

/-- `SEQ <- IDLE; JOB <- NONE`, and `BUSY` returns to 0 (R44, R250, R255). -/
def endJob (s : State) : State := { s with seq := .idle, job := .none, busy := false }

/-- Present an event and let the transport answer it (R231). -/
def emit (e : Event) (s : State) : State := acknowledge (present e s)

/-- The effect of one action. -/
def act (a : Action) (s : State) : State :=
  match a with
  | .enter q => { s with seq := q }
  | .frame f => { s with frameCtr := BitVec.ofNat 16 f }
  | .row r => { s with rowCtr := BitVec.ofNat 16 r }
  | .emitPwrOn => emit .pwrOn s
  | .emitPwrOff => emit .pwrOff s
  | .emitScan => emit .scanStart s
  | .build p f r => buildRow p f r s
  | .emitRow => emit (rowEvent s) s
  | .settle k => recordSettle k s
  | .swap => swapRoles s
  | .white role => writeAll (bufferOf role s) (fun _ => 0xFF) s
  | .finish => endJob s

/-- Perform the actions in order. The sequencer stops at an event that the transport leaves unacknowledged (R231), and a
reset that arrives abandons the rest (R340). -/
def perform : List Action → State → State
  | [], s => s
  | a :: as, s =>
    match s.resetAfter with
    | some 0 => resetEvent s
    | _ =>
      let t := act a (tickReset s)
      if t.presented.isSome then t else perform as t

/-! ## The passes (R237) -/

/-- One row: count it, build it, send it (R237). -/
def rowActions (p : Phase) (f r : Nat) : List Action := [.row r, .build p f r, .emitRow]

/-- Rows `r` to `H-1` of frame `f`, and the trailing flush row (R237). -/
def rowsFrom (b : Build) (p : Phase) (f r : Nat) : List Action :=
  (List.range' r (b.h - r)).flatMap (rowActions p f) ++ [.row b.h, .emitRow]

/-- One frame (R237). -/
def frameActions (b : Build) (p : Phase) (f : Nat) : List Action :=
  .frame f :: .emitScan :: rowsFrom b p f 0

/-- Frames `f` to `n-1` of a pass (R237). -/
def framesFrom (b : Build) (p : Phase) (f n : Nat) : List Action :=
  (List.range' f (n - f)).flatMap (frameActions b p)

/-- The frames that a phase drives: `E` in the erase pass, `D-1` in the draw pass (R239, R240). -/
def passFrames (b : Build) : Phase → Nat
  | .erase => b.e
  | .draw => b.d - 1

/-- `Pass(P, F, size, n)` from its first frame (R237, R239, R240). -/
def passActions (b : Build) (p : Phase) : List Action := framesFrom b p 0 (passFrames b p)

/-! ## UPDATE (R250), read backwards from its end -/

/-- After `PWR_OFF`: the swap, and the end. -/
def updateSwap : List Action := [.enter .swap, .swap, .enter .idle, .finish]

/-- After the draw pass. -/
def updatePowerOff : List Action := [.enter .settleOff, .settle .off, .enter .powerOff, .emitPwrOff] ++ updateSwap

/-- After the erase pass. -/
def updateDraw (b : Build) : List Action := .enter .draw :: (passActions b .draw ++ updatePowerOff)

/-- After `PWR_ON`. -/
def updateErase (b : Build) : List Action :=
  [.enter .settleOn, .settle .on, .enter .erase] ++ (passActions b .erase ++ updateDraw b)

/-- The whole of UPDATE after its checks (R250). -/
def updateActions (b : Build) : List Action := [.enter .powerOn, .emitPwrOn] ++ updateErase b

/-! ## ERASE_DISPLAY (R255), read backwards from its end -/

/-- The closing fill (R15, R255). -/
def displayFill (b : Build) : List Action :=
  [.enter .fill, .white .active] ++ (if b.eraseFillScope = .both then [.white .reference] else []) ++
    [.enter .idle, .finish]

/-- After the erase pass (R16, R255). -/
def displayPowerOff (b : Build) : List Action :=
  (if b.erasePower = .wrapped then [.enter .settleOff, .settle .off, .enter .powerOff, .emitPwrOff] else []) ++
    displayFill b

/-- From the erase pass on. -/
def displayErase (b : Build) : List Action := .enter .erase :: (passActions b .erase ++ displayPowerOff b)

/-- After `PWR_ON`. -/
def displaySettleOn (b : Build) : List Action := [.enter .settleOn, .settle .on] ++ displayErase b

/-- The whole of ERASE_DISPLAY after its checks (R255). -/
def displayActions (b : Build) : List Action :=
  if b.erasePower = .wrapped then [.enter .powerOn, .emitPwrOn] ++ displaySettleOn b else displayErase b

/-! ## Going on after a wait -/

/-- What is left of a pass at frame `f`, row `r`, once the presented event is acknowledged: after `SCAN_START` the frame's
rows, after a row the next ones, after the flush row (`ROW_CTR = H`) the next frame (R237). -/
def passRest (b : Build) (p : Phase) (f r : Nat) (e : Event) : Option (List Action) :=
  match e with
  | .scanStart => some (rowsFrom b p f 0 ++ framesFrom b p (f + 1) (passFrames b p))
  | .row _ _ =>
    some ((if r < b.h then rowsFrom b p f (r + 1) else []) ++ framesFrom b p (f + 1) (passFrames b p))
  | .pwrOn => none
  | .pwrOff => none

/-- What is left of the running command once its presented event is acknowledged; none where no command waits so (R246). -/
def restActions (s : State) (e : Event) : Option (List Action) :=
  let b := s.build
  let pass (p : Phase) := passRest b p s.frameCtr.toNat s.rowCtr.toNat e
  match s.job with
  | .none => none
  | .update =>
    match s.seq with
    | .powerOn => if e = .pwrOn then some (updateErase b) else none
    | .erase => (pass .erase).map (· ++ updateDraw b)
    | .draw => (pass .draw).map (· ++ updatePowerOff)
    | .powerOff => if e = .pwrOff then some updateSwap else none
    | .idle => none
    | .settleOn => none
    | .settleOff => none
    | .swap => none
    | .fill => none
  | .eraseDisplay =>
    match s.seq with
    | .powerOn => if e = .pwrOn then some (displaySettleOn b) else none
    | .erase => (pass .erase).map (· ++ displayPowerOff b)
    | .powerOff => if e = .pwrOff then some (displayFill b) else none
    | .idle => none
    | .settleOn => none
    | .draw => none
    | .settleOff => none
    | .swap => none
    | .fill => none

/-- One step of a waiting command: the transport answers the presented event, and the command goes on if it is acknowledged;
none in a position that no waiting command has. -/
def resume (s : State) : Option State :=
  match s.presented with
  | none => none
  | some e =>
    match restActions s e with
    | none => none
    | some as =>
      let t := acknowledge s
      if t.presented.isSome then some t else some (perform as t)

end Sys2Proof.Machine
end

