-- ==== Sys2Proof/Machine/Refresh.lean ====
section
/-! DEFINITION. The commands that drive the panel: UPDATE and ERASE_DISPLAY (R250, R255). -/

namespace Sys2Proof.Machine

/-- UPDATE (R250): NOT_INIT before the tables exist (R303), else the whole refresh over `BUF_SIZE` source bytes. -/
def execUpdate (s : State) : Host.Outcome State Fault Refusal :=
  if s.lutValid = false then .next (raiseFault .notInit s)
  else .next (perform (updateActions s.build) (startJob .update (bufSize s.build) s))

/-- ERASE_DISPLAY (R255): NOT_INIT before the tables exist (R303), else the erase pass over an empty source and the fill. -/
def execEraseDisplay (s : State) : Host.Outcome State Fault Refusal :=
  if s.lutValid = false then .next (raiseFault .notInit s)
  else .next (perform (displayActions s.build) (startJob .eraseDisplay 0 s))

end Sys2Proof.Machine
end

