-- ==== Sys2Proof/Machine/Waveform.lean ====
section
/-! DEFINITION. The waveform table commands: INIT and READ_LUT (R206, R207). -/

namespace Sys2Proof.Machine

/-- Write the whole expanded table of a phase: entry `[v][f]` is `Expand(SEED_P, v, f)` (R201, R206; layout: log 5). -/
def expandTable (p : Phase) (s : State) : State :=
  writeAll (lutSpace p)
    (fun a => expand s.build p (BitVec.ofNat 8 (a / frameCount s.build p)) (a % frameCount s.build p)) s

/-- INIT (R206). -/
def execInit (s : State) : Host.Outcome State Fault Refusal :=
  .next { expandTable .draw (expandTable .erase s) with lutValid := true }

/-- READ_LUT (R207): NOT_INIT before BAD_ARGUMENT (R305). -/
def execReadLut (phase : Phase) (bval : Byte) (frame : BitVec 16) (s : State) : Host.Outcome State Fault Refusal :=
  if s.lutValid = false then .next (raiseWithResult .notInit s)
  else if frame.toNat < frameCount s.build phase then
    .next (putResult ((readTable phase bval frame.toNat s).setWidth 32) s)
  else .next (raiseWithResult .badArgument s)

end Sys2Proof.Machine
end

