-- ==== Sys2Proof/Machine/Dispatch.lean ====
section
/-! DEFINITION. The dispatch: one arm per constructor of Instr, one direct call each. -/

namespace Sys2Proof.Machine

def exec (i : Instr) (s : State) : Host.Outcome State Fault Refusal :=
  match i with
  | .nop => Sys2Proof.Machine.execNop s
  | .init => Sys2Proof.Machine.execInit s
  | .setRotation rot => Sys2Proof.Machine.execSetRotation rot s
  | .setPixel x y color => Sys2Proof.Machine.execSetPixel x y color s
  | .fill color => Sys2Proof.Machine.execFill color s
  | .drawBitmap x y bw bh fg bytes => Sys2Proof.Machine.execDrawBitmap x y bw bh fg bytes s
  | .readPixel role x y => Sys2Proof.Machine.execReadPixel role x y s
  | .update => Sys2Proof.Machine.execUpdate s
  | .eraseDisplay => Sys2Proof.Machine.execEraseDisplay s
  | .readStatus => Sys2Proof.Machine.execReadStatus s
  | .readInfo sel => Sys2Proof.Machine.execReadInfo sel s
  | .readLut phase bval frame => Sys2Proof.Machine.execReadLut phase bval frame s

end Sys2Proof.Machine
end

