-- ==== Sys2Proof/Machine/Port.lean ====
section
/-! DEFINITION. The command port: what the next step of the block is, and the host's words on the channel
(R44, R45, R100, R101, R115, R116, R340, R352). -/

namespace Sys2Proof.Machine

/-- What the block does next. -/
inductive Move where
  /-- Only the state changes: a wait, a reset, a waiting command that goes on, words taken, an illegal packet. -/
  | goTo (t : State)
  /-- A whole command has been taken: it executes on `t`. -/
  | command (i : Instr) (t : State)
  /-- The position is none the spec gives the sequencer. -/
  | lost
  /-- The build is refused. -/
  | illFormed

/-- No command is running and none is presented at the transport port: the port may take words (R44, R341). -/
def portFree (s : State) : Bool := decide (s.job = .none) && decide (s.seq = .idle) && s.presented.isNone

/-- An illegal packet: ILLEGAL_COMMAND, and the result word 0 if its command owes one (R115, R116, R302). -/
def illegalPacket (why : Illegal) (s : State) : State :=
  if why.resultDue then raiseWithResult .illegalCommand s else raiseFault .illegalCommand s

/-- The words taken so far and those on the channel, in order (R45, R101). -/
def offeredWords (s : State) : List Word := s.asm ++ s.cmdChan

/-- The port after it has taken a whole packet and left `rest` on the channel: `BUSY` is 1 until the command has completed (R44). -/
def packetTaken (rest : List Word) (s : State) : State := { s with asm := [], cmdChan := rest, busy := true }

/-- The port with part of a packet, and no more words to take: `BUSY` is 1 once there is a word (R44, R45). -/
def holdWords (s : State) : State :=
  { s with asm := offeredWords s, cmdChan := [], busy := !(offeredWords s).isEmpty }

/-- The end of a command (R44): once it waits for no acknowledgement it has completed, and `BUSY` returns to 0. -/
def endCommand (s : State) : State :=
  if s.presented.isSome then s else { tickReset s with busy := false }

/-- How many words of the channel the port takes next: the rest of a packet, or all there are of one (R101, R115, R116). -/
def wordsTaken (s : State) : Nat :=
  match decode (offeredWords s) with
  | .command _ rest => s.cmdChan.length - rest.length
  | .illegal _ rest => s.cmdChan.length - rest.length
  | .incomplete => s.cmdChan.length

/-- Take words from the channel (R101): a whole packet, or all there is of one, which the assembler then holds with the port
busy and no timeout (R44, R45, D37). Each word taken is one action (log 9). -/
def takeWords (s : State) : Move :=
  match decode (offeredWords s) with
  | .command i rest => .command i (packetTaken rest (elapse (wordsTaken s) s))
  | .illegal why rest => .goTo (endCommand (illegalPacket why (packetTaken rest (elapse (wordsTaken s) s))))
  | .incomplete => .goTo (holdWords (elapse (max 1 (wordsTaken s)) s))

/-- A reset is due while the port takes `n` words or right after the last of them, before their command has any effect
(R340): how many of them it has taken by then. -/
def resetWithin (n : Nat) (s : State) : Option Nat :=
  match s.resetAfter with
  | none => none
  | some k => if k ≤ n then some k else none

/-- A reset that comes when the port has taken `k` words: they are lost with the assembler, and their command is abandoned with
no effect and no result word (R45, R48, R340). -/
def resetAfterWords (k : Nat) (s : State) : State := resetEvent { s with cmdChan := s.cmdChan.drop k }

/-- The next move (logs 7, 9 and 11): a refused build has none; an asserted reset comes first; a running command holds the port
(R352); else the port takes words, and a reset may come among them. -/
def nextMove (s : State) : Move :=
  if buildOk s.build then
    if s.resetAfter = some 0 then .goTo (resetEvent s)
    else if portFree s then
      match resetWithin (wordsTaken s) s with
      | some k => .goTo (resetAfterWords k s)
      | none => takeWords s
    else
      match resume (tickReset s) with
      | some t => .goTo t
      | none => .lost
  else .illFormed

/-- The host has offered the words `ws` and the port is ready to take them as its next packet: nothing else is in its way
(log 6). -/
def offerPacket (ws : List Word) (s : State) : State :=
  { s with
    cmdChan := ws ++ s.cmdChan, asm := [], busy := false, job := .none, seq := .idle, presented := none,
    resetAfter := none }

end Sys2Proof.Machine
end

