-- ==== Sys2Proof/Machine/Step.lean ====
section
/-! DEFINITION. One step of the block: one whole command packet, from taking its command word to its last acknowledgement
(R27), or as much of one as the host and the transport let happen (log 7). -/

namespace Sys2Proof.Machine

def step (s : State) : Host.Outcome State Fault Refusal :=
  match nextMove s with
  | .goTo t => .next t
  | .command i t =>
    match exec i t with
    | .next u => .next (endCommand u)
    | .fault r => .fault r
    | .refused r => .refused r
  | .lost => .fault .lostSequencer
  | .illFormed => .refused .illFormedBuild

/-- `s` with the packet of a table word at the head of the command channel, and the port ready to take it. -/
def State.withFetchWord (s : State) (nbits w : Nat) : State := offerPacket (tableWords nbits w) s

end Sys2Proof.Machine
end

