-- ==== Sys2Proof/WellFormed.lean ====
section
/-! DEFINITION. Which terms of Instr are commands of the block (R119): every operand field has its width by type, so the one
check left is that DRAW_BITMAP carries exactly `ceil(w/8) * h` bytes. -/

namespace Sys2Proof

/-- The command's operands fit its packet (R113, R119). -/
def Instr.wf : Instr → Bool
  | .nop => true
  | .init => true
  | .setRotation _ => true
  | .setPixel _ _ _ => true
  | .fill _ => true
  | .drawBitmap _ _ bw bh _ bytes => bytes.length == bitmapByteCount bw.toNat bh.toNat
  | .readPixel _ _ _ => true
  | .update => true
  | .eraseDisplay => true
  | .readStatus => true
  | .readInfo _ => true
  | .readLut _ _ _ => true

end Sys2Proof
end

