-- ==== Sys2Proof/Safety.lean ====
section
/-! DEFINITION. The terms in which claims speak: when the block is idle or waits, the invariants of its state, what a refresh
emits, and which pixels a bitmap covers. -/

namespace Sys2Proof.Machine

/-! ## Idle and waiting -/

/-- The block is between commands: no command runs and the transport port holds no event (R44, R46, R341). -/
def Idle (s : State) : Prop := s.job = .none ∧ s.seq = .idle ∧ s.presented = none

/-- A refresh waits for the transport (R231): an event is presented, and what is left of the command follows from the
sequencer's position (R43, R246). -/
def Waiting (s : State) : Prop := ∃ e as, s.presented = some e ∧ restActions s e = some as

/-- The transport acknowledges every event and no reset arrives: the premise of a claim that a refresh completes (R356). -/
def Unhindered (s : State) : Prop := s.transport = .ready ∧ s.resetAfter = none

/-- The transport once it has acknowledged `n` more events (log 8). -/
def Transport.drained (n : Nat) : Transport → Transport
  | .ready => .ready
  | .acksLeft m => .acksLeft (m - n)

/-- The transport acknowledges at least the next `n` events and no reset arrives (R356). -/
def Served (n : Nat) (s : State) : Prop :=
  s.resetAfter = none ∧ (s.transport = .ready ∨ ∃ m, n ≤ m ∧ s.transport = .acksLeft m)

/-! ## Invariants -/

/-- A space's memory is canonical and lies inside the space (R22, R70). -/
def spaceOk (sp : Space) (s : State) : Prop :=
  Memory.wf (spaceOf sp s) ∧ Memory.within (spaceSize s.build sp) (spaceOf sp s)

/-- Every space is canonical and inside its size. -/
def MemoryOk (s : State) : Prop := ∀ sp, spaceOk sp s

/-- Once `LUT_VALID` is 1 the tables hold the expansion of the seeds (R206, R208). -/
def TablesOk (s : State) : Prop :=
  s.lutValid = true → ∀ (p : Phase) (v : Byte) (f : Nat), f < frameCount s.build p →
    readTable p v f s = expand s.build p v f

/-- The port and the sequencer agree (R43 to R46): either no command runs, `BUSY` says whether a packet is begun, and the
assembler holds only part of one; or a refresh waits for the transport with `BUSY = 1` and nothing assembled. -/
def PortOk (s : State) : Prop :=
  (Idle s ∧ (s.busy = true ↔ s.asm ≠ []) ∧ decode s.asm = .incomplete) ∨
  (Waiting s ∧ s.job ≠ .none ∧ s.busy = true ∧ s.asm = [])

/-- `ERR` is a fault code of R300, and one that was raised if it is not 0 (R37, R301). -/
def ErrOk (s : State) : Prop := s.err = 0 ∨ ∃ f ∈ s.faultLog, s.err = f.code

/-! ## The trace -/

/-- The transport events of a trace, without the settle markers (R23). -/
def eventsOf (tr : List Mark) : List Event :=
  tr.filterMap fun m => match m with
    | .event e => some e
    | .settle _ => none

/-- Whether a mark is a settle marker. -/
def Mark.isSettle : Mark → Bool
  | .event _ => false
  | .settle _ => true

/-- The panel's supply after a trace whose power events alternate, beginning with `PWR_ON` (R232): `some true` when a `PWR_ON`
is outstanding, `some false` when none is, `none` when they do not alternate. -/
def powerAfter (tr : List Mark) : Option Bool :=
  tr.foldl (fun p m => match p, m with
    | some false, .event .pwrOn => some true
    | some true, .event .pwrOn => none
    | some true, .event .pwrOff => some false
    | some false, .event .pwrOff => none
    | p, _ => p) (some false)

/-- A `PWR_ON` of the running refresh is outstanding: the refresh powers the panel, and its `PWR_OFF` has not been emitted (R16,
R232, R246). -/
def powered (s : State) : Bool :=
  (s.job == .update || (s.job == .eraseDisplay && s.build.erasePower == .wrapped)) && s.seq != .powerOff

/-- The trace's power events alternate, and one is outstanding exactly while a refresh that powers the panel waits (R232). -/
def PowerOk (s : State) : Prop := powerAfter s.trace = some (powered s)

/-- The row event for row `r` of frame `f` in phase `p`, from the source bytes `src`: `BPR` table bytes and `W` (R236, R243). -/
def rowOut (s : State) (p : Phase) (src : Nat → Byte) (f r : Nat) : Mark :=
  .event (.row ((List.range (bytesPerRow s.build)).map fun j =>
    readTable p (src (r * bytesPerRow s.build + j)) f s) s.build.w)

/-- One frame's marks: the scan start, the rows in order, and the flush row, which repeats row `H-1` (R237, R238). -/
def frameOut (s : State) (p : Phase) (src : Nat → Byte) (f : Nat) : List Mark :=
  .event .scanStart :: ((List.range s.build.h).map (rowOut s p src f) ++ [rowOut s p src f (s.build.h - 1)])

/-- The marks of the first `n` frames of a phase (R237). -/
def passOut (s : State) (p : Phase) (src : Nat → Byte) (n : Nat) : List Mark :=
  (List.range n).flatMap (frameOut s p src)

/-- Byte `i` of a role's buffer (R34). -/
def bufferByte (role : Role) (s : State) (i : Nat) : Byte := readByte (bufferOf role s) i s

/-- Everything an UPDATE that completes adds to the trace (R233, R239, R240, R243, R250). -/
def updateOut (s : State) : List Mark :=
  [.event .pwrOn, .settle .on] ++
    (passOut s .erase (bufferByte .reference s) s.build.e ++
      (passOut s .draw (bufferByte .active s) (s.build.d - 1) ++ [.settle .off, .event .pwrOff]))

/-- Everything an ERASE_DISPLAY that completes adds to the trace: its source is `0xFF` throughout (R234, R255). -/
def displayOut (s : State) : List Mark :=
  (if s.build.erasePower = .wrapped then [.event .pwrOn, .settle .on] else []) ++
    (passOut s .erase (fun _ => 0xFF) s.build.e ++
      (if s.build.erasePower = .wrapped then [.settle .off, .event .pwrOff] else []))

/-! ## The two refreshes -/

/-- A refresh command as a claim sees it: its command, its job, the declared size of its source, its actions, and what it adds to the
trace when it completes (R43, R250, R255). -/
structure Refresh where
  command : Instr
  job : Job
  size : Nat
  actions : List Action
  out : List Mark

/-- UPDATE from `s` (R250). -/
def updateRefresh (s : State) : Refresh := ⟨.update, .update, bufSize s.build, updateActions s.build, updateOut s⟩

/-- ERASE_DISPLAY from `s` (R255). -/
def displayRefresh (s : State) : Refresh := ⟨.eraseDisplay, .eraseDisplay, 0, displayActions s.build, displayOut s⟩

/-- The two refreshes from `s`. -/
def refreshes (s : State) : List Refresh := [updateRefresh s, displayRefresh s]

/-- `s` with the refresh begun, before its first action (R250, R255). -/
def Refresh.start (x : Refresh) (s : State) : State := startJob x.job x.size s

/-- `ERASE_DISPLAY` is the command that runs next, or the one that runs: the only one that may write the reference buffer (R32). -/
def ErasesDisplay (s : State) : Prop :=
  s.job = .eraseDisplay ∨ ∃ rest, decode (offeredWords s) = .command .eraseDisplay rest

/-- A list of actions done one after the other. -/
def doAll (as : List Action) (s : State) : State := as.foldl (fun u a => act a u) s

/-- `t` is what a reset makes of `s`: every item of R48 at its reset value, every byte a fresh draw, and no result word and no fault
added (R48, R340). -/
def AfterReset (s t : State) : Prop :=
  t.build = s.build ∧ Idle t ∧ t.activeSel = false ∧ t.rotation = 0 ∧ t.lutValid = false ∧ t.err = 0 ∧ t.busy = false ∧
  t.asm = [] ∧ t.resetAfter = none ∧ t.results = s.results ∧ t.faultLog = s.faultLog ∧
  ∀ sp a, readByte sp a t = Config.freeByte (s.draw + 1) sp a

/-! ## Bitmaps -/

/-- Bitmap pixel `(i, j)` of a bitmap placed at `(x0, y0)` lands on the visible pixel `(x, y)` (R155). -/
def Covers (x0 y0 : Int) (bw bh : Nat) (x y : Int) : Prop :=
  x0 ≤ x ∧ x < x0 + bw ∧ y0 ≤ y ∧ y < y0 + bh

end Sys2Proof.Machine
end

