-- ==== Sys2Proof/Certificates/Slice0/Obligations.lean ====
section
/-! DEFINITION. The statements about GxEPD-CORE. Each holds for every build that the spec allows, since the build is a field of
the state (log 1). A statement's docstring names the rule it formalises. "Idle", "Unhindered", "Waiting", "AfterReset" and
the invariants are Safety.lean's. -/

open Sys2Proof Sys2Proof.Machine

/-! ## Encoding -/

/-- R121: the worked encodings, word for word, are what the decoder reads. -/
def Obligations.WorkedEncodingsDecode : Prop :=
  decode [0x1000FFFF, 0x00010003] = .command (.setPixel 3 1 0xFFFF) [] ∧
  decode [0x10000000, 0x0000FFFF] = .command (.setPixel (-1) 0 0x0000) [] ∧
  decode [0x02000001] = .command (.setRotation 1) [] ∧
  decode [0x11007BEF] = .command (.fill 0x7BEF) [] ∧
  decode [0x13000001, 0x00000002] = .command (.readPixel .reference 2 0) [] ∧
  decode [0x32013600, 0x00000001] = .command (.readLut .draw 0x36 1) [] ∧
  decode [0x12000000, 0x00000000, 0x00020008, 0x00000FF0] = .command (.drawBitmap 0 0 8 2 0x0000 [0xF0, 0x0F]) [] ∧
  decode [0x20000000] = .command .update []

/-- R103 to R113: decoding the words of a well-formed command gives the command back, whatever follows on the channel. -/
def Obligations.DecodeOfEncode : Prop :=
  ∀ (i : Instr) (rest : List Word), i.wf = true → decode (encode i ++ rest) = .command i rest

/-- R101 to R118: a packet that decodes to a command is exactly as long as its packet length, the command is well-formed, and
the packet is the command's own words. For DRAW_BITMAP, whose last payload word may hold padding that is ignored (R113), that is
said of the three words before the payload, and byte `k` of the bitmap, for every `k < NBYTES`, is byte `k mod 4` of the packet's
word `3 + k div 4`, whatever the padding. -/
def Obligations.EncodeOfDecode : Prop :=
  ∀ (ws : List Word) (i : Instr) (rest : List Word), decode ws = .command i rest →
    i.wf = true ∧
    ∃ packet, ws = packet ++ rest ∧ packet.length = packetLength ws ∧ packet.take 3 = (encode i).take 3 ∧
      (i.opcode ≠ .drawBitmap → packet = encode i) ∧
      ∀ (x y bw bh : BitVec 16) (fg : Color) (bytes : List Byte), i = .drawBitmap x y bw bh fg bytes →
        ∀ k < bitmapByteCount bw.toNat bh.toNat,
          bytes[k]? = some ((packet.getD (3 + k / 4) 0).extractLsb' (8 * (k % 4)) 8)

/-- R118: `length = 1 + NARG(op) + NPAY`, 1 for an undefined opcode, and the largest packet. -/
def Obligations.PacketLengthFormula : Prop :=
  (∀ (i : Instr) (rest : List Word), i.wf = true → packetLength (encode i ++ rest) = (encode i).length) ∧
  (∀ (x y bw bh : BitVec 16) (fg : Color) (bytes : List Byte), (Instr.drawBitmap x y bw bh fg bytes).wf = true →
    (encode (.drawBitmap x y bw bh fg bytes)).length = 3 + ((bw.toNat + 7) / 8 * bh.toNat + 3) / 4) ∧
  (∀ (i : Instr), i.opcode ≠ .drawBitmap → (encode i).length = 1 + (opRow i.opcode).narg) ∧
  (∀ (cw : Word) (ws : List Word), opcodeOf (opField cw) = none → packetLength (cw :: ws) = 1) ∧
  packetLength [0x12000000, 0x00000000, 0xFFFFFFFF] = 134215683

/-- R113: bitmap byte `k` is bits `[8*(k mod 4)+7 : 8*(k mod 4)]` of payload word `k div 4`. -/
def Obligations.PayloadIsLittleEndian : Prop :=
  ∀ (n k : Nat) (payload : List Word), k < n → n ≤ 4 * payload.length →
    (payloadBytes n payload)[k]? = some ((payload.getD (k / 4) 0).extractLsb' (8 * (k % 4)) 8)

/-- R115: an undefined opcode, one of 244, takes only its command word, raises ILLEGAL_COMMAND and produces no result word;
the words after it stay on the channel. -/
def Obligations.UndefinedOpcodeTakesOneWord : Prop :=
  ((List.range 256).filter fun n => (opcodeOf (BitVec.ofNat 8 n)).isNone).length = 244 ∧
  ∀ (s : State) (cw : Word) (rest : List Word),
    buildOk s.build = true → Idle s → s.resetAfter = none → offeredWords s = cw :: rest →
    opcodeOf (opField cw) = none →
    ∃ t, step s = .next t ∧
      t = { s with asm := [], cmdChan := rest, busy := false, err := t.err, faultLog := t.faultLog } ∧
      t.err = (if s.err = 0 then 1 else s.err) ∧ t.faultLog = s.faultLog ++ [.illegalCommand]

/-- R116: a defined opcode with a reserved bit set takes its full packet, raises ILLEGAL_COMMAND with no other effect, and
produces the command's result word, 0, if it has one. -/
def Obligations.ReservedBitTakesWholePacket : Prop :=
  ∀ (s : State) (cw : Word) (args : List Word) (o : Opcode),
    buildOk s.build = true → Idle s → s.resetAfter = none → offeredWords s = cw :: args →
    opcodeOf (opField cw) = some o → packetLength (cw :: args) ≤ (cw :: args).length →
    (cw &&& (opRow o).mask ≠ (opRow o).pattern ∨ (o = .readLut ∧ highHalf (args.getD 0 0) ≠ 0)) →
    ∃ t, step s = .next t ∧
      t = { s with
        asm := [], cmdChan := (cw :: args).drop (packetLength (cw :: args)), busy := false, err := t.err,
        faultLog := t.faultLog, results := t.results } ∧
      t.err = (if s.err = 0 then 1 else s.err) ∧ t.faultLog = s.faultLog ++ [.illegalCommand] ∧
      t.results = s.results ++ (if (opRow o).result then [0] else [])

/-! ## The step -/

/-- R27, R44, R101: when the words offered begin with a whole command packet, a step of the idle block is `exec` of that command, on
the state in which the port has taken the packet and `BUSY` is 1, and then the end of the command: `BUSY` is 0 again unless the
command waits for the transport. A reset that comes later than the packet's last word leaves that so. (Its count of words and
actions is the model's own, log 9; that `BUSY` is lowered by the step, after `exec`, is log 16's choice.) -/
def Obligations.StepRunsDecodedCommand : Prop :=
  ∀ (s : State) (i : Instr) (rest : List Word), buildOk s.build = true → Idle s →
    decode (offeredWords s) = .command i rest →
    (s.resetAfter = none → ∃ u, exec i { s with asm := [], cmdChan := rest, busy := true } = .next u ∧
      step s = .next (if u.presented = none then { tickReset u with busy := false } else u)) ∧
    (∀ k, s.resetAfter = some k → s.cmdChan.length - rest.length < k →
      ∃ u, exec i { s with
          asm := [], cmdChan := rest, busy := true, resetAfter := some (k - (s.cmdChan.length - rest.length)) } = .next u ∧
        step s = .next (if u.presented = none then { tickReset u with busy := false } else u))

/-- R27, R44, R101, R103 to R113: a well-formed command whose words the host has offered is the one that runs, exactly its words are
taken, and it runs with `BUSY` at 1, which is 0 again once it has completed. (That the step lowers `BUSY`, after `exec`, is
log 16's choice.) -/
def Obligations.OfferedCommandRuns : Prop :=
  ∀ (s : State) (i : Instr) (rest : List Word), buildOk s.build = true → Idle s → s.resetAfter = none →
    s.asm = [] → s.cmdChan = encode i ++ rest → i.wf = true →
    ∃ u, exec i { s with cmdChan := rest, busy := true } = .next u ∧
      step s = .next (if u.presented = none then { tickReset u with busy := false } else u)

/-- R45, R101: part of a packet waits in the assembler with no effect but `BUSY`, and the packet then runs as if its words had come
together. (That one step takes all the words there are is the model's choice, log 7.) -/
def Obligations.SplitPacketRunsTheSame : Prop :=
  ∀ (s : State) (ws vs : List Word), buildOk s.build = true → Idle s → s.resetAfter = none → s.asm = [] →
    decode ws = .incomplete →
    ∃ t, step { s with cmdChan := ws } = .next t ∧
      t = { s with asm := ws, cmdChan := [], busy := t.busy } ∧ (t.busy = true ↔ ws ≠ []) ∧
      step { t with cmdChan := vs } = step { s with cmdChan := ws ++ vs }

/-- R341: an idle block with no word offered waits, and nothing changes. (That a wait is a step to the same state is the model's
choice, log 7.) -/
def Obligations.IdleBlockWaits : Prop :=
  ∀ (s : State), buildOk s.build = true → Idle s → s.resetAfter = none → s.asm = [] → s.cmdChan = [] →
    s.busy = false → step s = .next s

/-- R7 to R10, R12, R13, R143: a build outside its well-formed range is refused. -/
def Obligations.IllFormedBuildRefused : Prop :=
  ∀ (s : State),
    (¬ (s.build.w % 4 = 0 ∧ 4 ≤ s.build.w ∧ s.build.w ≤ 32764) ∨
      ¬ (1 ≤ s.build.h ∧ s.build.h ≤ 32767) ∨
      ¬ (1 ≤ s.build.e ∧ s.build.e ≤ 65535) ∨
      ¬ (2 ≤ s.build.d ∧ s.build.d ≤ 65535) ∨
      ¬ [s.build.sBlack, s.build.sDarkGrey, s.build.sLightGrey, s.build.sWhite].Nodup ∨
      ¬ (0 < s.build.t1 ∧ s.build.t1 < s.build.t2 ∧ s.build.t2 < s.build.t3 ∧ s.build.t3 ≤ 125) ∨
      ¬ (band s.build (metric s.build.sBlack) = 0 ∧ band s.build (metric s.build.sDarkGrey) = 1 ∧
        band s.build (metric s.build.sLightGrey) = 2 ∧ band s.build (metric s.build.sWhite) = 3)) →
    step s = .refused .illFormedBuild

/-- R231: a transport that acknowledges no more leaves a waiting refresh as it is, step after step, with nothing changed. (That a
hang is a step to the same state is the model's choice, log 7; how the transport is written, log 8.) -/
def Obligations.HungTransportHolds : Prop :=
  ∀ (s : State), buildOk s.build = true → Waiting s → s.resetAfter = none → s.transport = .acksLeft 0 →
    step s = .next s

/-- R44, R352: while a command runs the port takes no word; what the host has offered stays on the channel, in order. (That it stays
there in a step in which a reset arrives too is the model's choice, log 10; R44 and R352 do not say it.) -/
def Obligations.RunningCommandTakesNoWord : Prop :=
  ∀ (s t : State), ¬ Idle s → step s = .next t → t.cmdChan = s.cmdChan ∧ (s.asm = [] → t.asm = [])

/-- R340: an asserted reset gives every item its reset value, at once and whatever was running, with fresh free draws in every
byte space. That the records, the transport and the offered words stay is the model's choice (log 10). -/
def Obligations.ResetInputResets : Prop :=
  ∀ (s : State), buildOk s.build = true → s.resetAfter = some 0 →
    ∃ t, step s = .next t ∧ t.trace = s.trace ∧ t.cmdChan = s.cmdChan ∧ t.transport = s.transport ∧ AfterReset s t

/-- R48: the values after reset that the spec gives, for every build; every byte is a free draw. -/
def Obligations.ResetStateValues : Prop :=
  ∀ (b : Build) (n : Nat),
    (State.resetOf b n).activeSel = false ∧ (State.resetOf b n).rotation = 0 ∧ (State.resetOf b n).lutValid = false ∧
    (State.resetOf b n).err = 0 ∧ (State.resetOf b n).seq = .idle ∧ (State.resetOf b n).job = .none ∧
    (State.resetOf b n).busy = false ∧ (State.resetOf b n).asm = [] ∧ (State.resetOf b n).presented = none ∧
    (State.resetOf b n).build = b ∧ ∀ sp a, readByte sp a (State.resetOf b n) = Config.freeByte n sp a

/-- R340: a reset that arrives during an UPDATE or an ERASE_DISPLAY, also in one that goes on after a wait, abandons it at once: the
trace is what the actions before the reset had emitted, and nothing after them; no swap, no fill, every item at its reset value.
(`k` counts the sequencer's actions before the reset, one for each line of R250's and R255's pseudocode, and a waiting step is
one action: the model's own measure, log 9. That the events before the reset were acknowledged is said by the port: none is
presented.) -/
def Obligations.ResetAbandonsRefresh : Prop :=
  (∀ (s : State) (k : Nat), ∀ x ∈ refreshes s, buildOk s.build = true → s.lutValid = true → s.presented = none →
    s.resetAfter = some k → k < x.actions.length → (doAll (x.actions.take k) (x.start s)).presented = none →
    ∃ t emitted, exec x.command s = .next t ∧ emitted <+: x.out ∧ t.trace = s.trace ++ emitted ∧
      t.trace = (doAll (x.actions.take k) (x.start s)).trace ∧ AfterReset s t) ∧
  ∀ (s : State) (k : Nat) (e : Event) (rest : List Action), buildOk s.build = true → s.presented = some e →
    restActions s e = some rest → s.resetAfter = some (k + 1) → k < rest.length →
    (doAll (rest.take k) (acknowledge s)).presented = none →
    ∃ t, step s = .next t ∧ t.trace = (doAll (rest.take k) (acknowledge s)).trace ∧ AfterReset s t

/-- R340, R45: a reset that arrives once the port has taken `k` words, in the midst of a packet or after its last word, before the
command's effect, abandons it at once: no result word, no fault, no event, every item at its reset value, and the words taken are
gone. (That the reset can fall after any one word, that it is counted so, and that the words not yet taken stay on the channel are
the model's choices, logs 9 and 10.) -/
def Obligations.ResetAbandonsTakenPacket : Prop :=
  ∀ (s : State) (k : Nat), buildOk s.build = true → Idle s → s.resetAfter = some k → 0 < k →
    ((∃ i rest, decode (offeredWords s) = .command i rest ∧ k ≤ s.cmdChan.length - rest.length) ∨
      (∃ why rest, decode (offeredWords s) = .illegal why rest ∧ k ≤ s.cmdChan.length - rest.length) ∨
      (decode (offeredWords s) = .incomplete ∧ k ≤ s.cmdChan.length)) →
    ∃ t, step s = .next t ∧ t.trace = s.trace ∧ t.cmdChan = s.cmdChan.drop k ∧ t.transport = s.transport ∧ AfterReset s t

/-! ## Control commands -/

/-- R280: NOP leaves every item of the state as it was. -/
def Obligations.NopChangesNothing : Prop :=
  ∀ (s : State), exec .nop s = .next s

/-- R38, R281: READ_STATUS places one word, composed of the four status fields, and changes nothing else; after reset it is 0. -/
def Obligations.ReadStatusComposesStatus : Prop :=
  (∀ (s : State), ∃ w : Word, exec .readStatus s = .next { s with results := s.results ++ [w] } ∧
    w.getLsbD 0 = s.lutValid ∧ w.getLsbD 1 = s.activeSel ∧ w.extractLsb' 2 2 = s.rotation ∧
    w.extractLsb' 4 4 = s.err ∧ w.extractLsb' 8 24 = 0) ∧
  ∀ (b : Build) (n : Nat),
    exec .readStatus (State.resetOf b n) = .next { State.resetOf b n with results := [0x00000000] }

/-- R282, R146: READ_INFO's three selectors give the native size, the frame counts and the visible size at the current rotation,
with no bit lost, and change nothing else. -/
def Obligations.ReadInfoReturnsSizes : Prop :=
  ∀ (s : State) (sel : BitVec 2), buildOk s.build = true → sel ≠ 3 →
    ∃ w : Word, exec (.readInfo sel) s = .next { s with results := s.results ++ [w] } ∧
      (sel = 0 → (highHalf w).toNat = s.build.h ∧ (lowHalf w).toNat = s.build.w) ∧
      (sel = 1 → (highHalf w).toNat = s.build.d ∧ (lowHalf w).toNat = s.build.e) ∧
      (sel = 2 → s.rotation = 0 ∨ s.rotation = 2 → (highHalf w).toNat = s.build.h ∧ (lowHalf w).toNat = s.build.w) ∧
      (sel = 2 → s.rotation = 1 ∨ s.rotation = 3 → (highHalf w).toNat = s.build.w ∧ (lowHalf w).toNat = s.build.h)

/-- R304, R102: READ_INFO's selector 3 raises BAD_ARGUMENT, produces the word 0 and changes nothing else. -/
def Obligations.ReadInfoBadSelectorFaults : Prop :=
  ∀ (s : State), exec (.readInfo 3) s = .next { s with
    results := s.results ++ [0], err := (if s.err = 0 then 3 else s.err), faultLog := s.faultLog ++ [.badArgument] }

/-! ## Pixel commands -/

/-- R152, R151: SET_ROTATION writes `ROTATION` and no other state; no byte of any space changes. -/
def Obligations.SetRotationWritesRotation : Prop :=
  ∀ (s : State) (r : BitVec 2), exec (.setRotation r) s = .next { s with rotation := r } ∧
    ∀ sp a, readByte sp a { s with rotation := r } = readByte sp a s

/-- R153, R76: SET_PIXEL of a visible pixel writes one field of one byte of the active buffer, at the address that the addressing
unit gives, with the classified colour; the byte's other three fields, every other byte of every space, and every other item of
the state stay. -/
def Obligations.SetPixelWritesOneField : Prop :=
  ∀ (s : State) (x y : BitVec 16) (c : Color), inVis s.build s.rotation x.toInt y.toInt = true →
    ∃ t, exec (.setPixel x y c) s = .next t ∧ t = { s with fb0 := t.fb0, fb1 := t.fb1 } ∧
      (∀ q < 4, getField (readByte (bufferOf .active s) (addrByte s.build s.rotation x.toInt y.toInt) t) q =
        if q = addrField s.build s.rotation x.toInt y.toInt then classify s.build c
        else getField (readByte (bufferOf .active s) (addrByte s.build s.rotation x.toInt y.toInt) s) q) ∧
      ∀ sp a, (sp ≠ bufferOf .active s ∨ a ≠ addrByte s.build s.rotation x.toInt y.toInt) →
        readByte sp a t = readByte sp a s

/-- R147, R153: outside the visible rectangle at the current rotation SET_PIXEL changes nothing at all. -/
def Obligations.SetPixelOutsideIsAbsorbed : Prop :=
  (∀ (b : Build) (r : BitVec 2) (x y : Int),
    inVis b r x y = true ↔ 0 ≤ x ∧ x < visW b r ∧ 0 ≤ y ∧ y < visH b r) ∧
  ∀ (s : State) (x y : BitVec 16) (c : Color), inVis s.build s.rotation x.toInt y.toInt = false →
    exec (.setPixel x y c) s = .next s

/-- R154: FILL writes the replicated code to every byte of the active buffer, whatever the rotation; no byte of another space and
no other item changes. -/
def Obligations.FillWritesActiveBuffer : Prop :=
  ∀ (s : State) (c : Color), ∃ t, exec (.fill c) s = .next t ∧ t = { s with fb0 := t.fb0, fb1 := t.fb1 } ∧
    (∀ a < bufSize s.build, readByte (bufferOf .active s) a t = rep (classify s.build c)) ∧
    ∀ sp a, sp ≠ bufferOf .active s → readByte sp a t = readByte sp a s

/-- R154, R156, R149: after `FILL c`, READ_PIXEL of every visible pixel of the active buffer returns `classify(c)`, at every
rotation. -/
def Obligations.FillThenReadPixel : Prop :=
  ∀ (s t : State) (c : Color) (r : BitVec 2) (x y : BitVec 16), buildOk s.build = true →
    exec (.fill c) s = .next t → inVis s.build r x.toInt y.toInt = true →
    exec (.readPixel .active x y) { t with rotation := r } =
      .next { t with rotation := r, results := t.results ++ [(classify s.build c).setWidth 32] }

/-- R155, R76, R113: DRAW_BITMAP writes each visible pixel that its rectangle covers, White for a set bit and the classified
foreground for a clear one, MSB first within bytes of `ceil(w/8)`-byte rows; every other field and byte, and every
other item of the state, stay. -/
def Obligations.DrawBitmapPlotsVisiblePixels : Prop :=
  ∀ (s : State) (x0 y0 bw bh : BitVec 16) (fg : Color) (bytes : List Byte), buildOk s.build = true →
    (Instr.drawBitmap x0 y0 bw bh fg bytes).wf = true →
    ∃ t, exec (.drawBitmap x0 y0 bw bh fg bytes) s = .next t ∧ t = { s with fb0 := t.fb0, fb1 := t.fb1 } ∧
      (∀ x y : Int, inVis s.build s.rotation x y = true → Covers x0.toInt y0.toInt bw.toNat bh.toNat x y →
        getField (readByte (bufferOf .active s) (addrByte s.build s.rotation x y) t) (addrField s.build s.rotation x y) =
          if (bytes.getD ((y - y0.toInt).toNat * ((bw.toNat + 7) / 8) + (x - x0.toInt).toNat / 8) 0).getLsbD
            (7 - (x - x0.toInt).toNat % 8) then 3 else classify s.build fg) ∧
      (∀ x y : Int, inVis s.build s.rotation x y = true → ¬ Covers x0.toInt y0.toInt bw.toNat bh.toNat x y →
        getField (readByte (bufferOf .active s) (addrByte s.build s.rotation x y) t) (addrField s.build s.rotation x y) =
          getField (readByte (bufferOf .active s) (addrByte s.build s.rotation x y) s)
            (addrField s.build s.rotation x y)) ∧
      (∀ sp a, (sp ≠ bufferOf .active s ∨ ∀ x y : Int, inVis s.build s.rotation x y = true →
          Covers x0.toInt y0.toInt bw.toNat bh.toNat x y → a ≠ addrByte s.build s.rotation x y) →
        readByte sp a t = readByte sp a s)

/-- R156, R77: READ_PIXEL places one word, the field's code in bits 1:0 for a visible pixel of the selected buffer, bit 31 alone
outside the visible rectangle, and changes nothing else. -/
def Obligations.ReadPixelReturnsCode : Prop :=
  ∀ (s : State) (role : Role) (x y : BitVec 16),
    ∃ w : Word, exec (.readPixel role x y) s = .next { s with results := s.results ++ [w] } ∧
      (inVis s.build s.rotation x.toInt y.toInt = true →
        w.extractLsb' 2 30 = 0 ∧ w.extractLsb' 0 2 =
          getField (readByte (bufferOf role s) (addrByte s.build s.rotation x.toInt y.toInt) s)
            (addrField s.build s.rotation x.toInt y.toInt)) ∧
      (inVis s.build s.rotation x.toInt y.toInt = false → w = 0x80000000)

/-- R153, R156: a pixel reads back as the colour's code once SET_PIXEL has written it, and every other visible pixel of either buffer
reads as it did. -/
def Obligations.SetPixelThenReadPixel : Prop :=
  ∀ (s t : State) (x y x' y' : BitVec 16) (c : Color) (role : Role), buildOk s.build = true →
    inVis s.build s.rotation x.toInt y.toInt = true → inVis s.build s.rotation x'.toInt y'.toInt = true →
    exec (.setPixel x y c) s = .next t →
    exec (.readPixel role x' y') t = .next { t with results := s.results ++ [
      (if role = .active ∧ x' = x ∧ y' = y then classify s.build c
        else getField (readByte (bufferOf role s) (addrByte s.build s.rotation x'.toInt y'.toInt) s)
          (addrField s.build s.rotation x'.toInt y'.toInt)).setWidth 32] }

/-- R142 to R144: in a well-formed build every colour classifies by its band, the sentinels exactly, and a brighter colour never
darker. -/
def Obligations.ClassifierIsMonotone : Prop :=
  ∀ (b : Build), buildOk b = true →
    (∀ c, classify b c = band b (metric c)) ∧
    (classify b b.sBlack = 0 ∧ classify b b.sDarkGrey = 1 ∧ classify b b.sLightGrey = 2 ∧ classify b b.sWhite = 3) ∧
    ∀ c d, metric c ≤ metric d → (classify b c).toNat ≤ (classify b d).toNat

/-- R146, R148 to R150, R74: the visible size and the native pixel at each rotation, row by row of R148's table, and the byte and
field of a native pixel; at each rotation the addressing unit maps the visible rectangle one to one onto the native grid, and
distinct visible pixels onto distinct fields. -/
def Obligations.RotationIsBijection : Prop :=
  ∀ (b : Build) (r : BitVec 2), buildOk b = true →
    (r = 0 → visW b r = b.w ∧ visH b r = b.h) ∧ (r = 1 → visW b r = b.h ∧ visH b r = b.w) ∧
    (r = 2 → visW b r = b.w ∧ visH b r = b.h) ∧ (r = 3 → visW b r = b.h ∧ visH b r = b.w) ∧
    (∀ x y, inVis b r x y = true →
      (r = 0 → (nativeX b r x y : Int) = x ∧ (nativeY b r x y : Int) = y) ∧
      (r = 1 → (nativeX b r x y : Int) = b.w - 1 - y ∧ (nativeY b r x y : Int) = x) ∧
      (r = 2 → (nativeX b r x y : Int) = b.w - 1 - x ∧ (nativeY b r x y : Int) = b.h - 1 - y) ∧
      (r = 3 → (nativeX b r x y : Int) = y ∧ (nativeY b r x y : Int) = b.h - 1 - x) ∧
      addrByte b r x y = nativeY b r x y * (b.w / 4) + nativeX b r x y / 4 ∧ addrField b r x y = nativeX b r x y % 4) ∧
    (∀ x y, inVis b r x y = true → nativeX b r x y < b.w ∧ nativeY b r x y < b.h ∧ addrByte b r x y < bufSize b) ∧
    (∀ xn yn, xn < b.w → yn < b.h → ∃ x y, inVis b r x y = true ∧ nativeX b r x y = xn ∧ nativeY b r x y = yn) ∧
    ∀ x y x' y', inVis b r x y = true → inVis b r x' y' = true → addrByte b r x y = addrByte b r x' y' →
      addrField b r x y = addrField b r x' y' → x = x' ∧ y = y'

/-! ## Waveform tables -/

/-- R206, R201: INIT writes every entry of both tables with the expansion of its seed, sets `LUT_VALID`, and changes nothing else. -/
def Obligations.InitGeneratesTables : Prop :=
  ∀ (s : State), ∃ t, exec .init s = .next t ∧ t = { s with lutE := t.lutE, lutD := t.lutD, lutValid := true } ∧
    (∀ (p : Phase) (v : Byte) (f : Nat), f < frameCount s.build p → readTable p v f t = expand s.build p v f) ∧
    ∀ sp a, sp ≠ .lutE → sp ≠ .lutD → readByte sp a t = readByte sp a s

/-- R206: a second INIT changes nothing. -/
def Obligations.InitTwiceIsInitOnce : Prop :=
  ∀ (s t : State), exec .init s = .next t → exec .init t = .next t

/-- R207: READ_LUT of a valid table and a frame in range places the entry in bits 7:0 of one word and changes nothing else. -/
def Obligations.ReadLutReturnsEntry : Prop :=
  ∀ (s : State) (p : Phase) (v : Byte) (f : BitVec 16), s.lutValid = true → f.toNat < frameCount s.build p →
    ∃ w : Word, exec (.readLut p v f) s = .next { s with results := s.results ++ [w] } ∧
      w.extractLsb' 8 24 = 0 ∧ w.extractLsb' 0 8 = readTable p v f.toNat s

/-- R206, R207, R201: READ_LUT after INIT returns the expansion. -/
def Obligations.InitThenReadLut : Prop :=
  ∀ (s t : State) (p : Phase) (v : Byte) (f : BitVec 16), exec .init s = .next t → f.toNat < frameCount s.build p →
    exec (.readLut p v f) t = .next { t with results := s.results ++ [(expand s.build p v f.toNat).setWidth 32] }

/-- R207, R303, R304, R305: READ_LUT raises NOT_INIT before the first INIT whatever the frame, else BAD_ARGUMENT for a frame out of
range; either way it produces the word 0 and changes nothing else. -/
def Obligations.ReadLutFaults : Prop :=
  ∀ (s : State) (p : Phase) (v : Byte) (f : BitVec 16),
    (s.lutValid = false → exec (.readLut p v f) s = .next { s with
      results := s.results ++ [0], err := (if s.err = 0 then 2 else s.err), faultLog := s.faultLog ++ [.notInit] }) ∧
    (s.lutValid = true → frameCount s.build p ≤ f.toNat → exec (.readLut p v f) s = .next { s with
      results := s.results ++ [0], err := (if s.err = 0 then 3 else s.err), faultLog := s.faultLog ++ [.badArgument] })

/-- R201, R202: field `p` of an expanded entry is the seed's code of field `p` of the byte, so a byte that differs in one field
gives an entry that differs in at most that field. -/
def Obligations.ExpansionIsFieldwise : Prop :=
  ∀ (b : Build) (ph : Phase) (f : Nat),
    (∀ (v : Byte) (p : Nat), p < 4 → getField (expand b ph v f) p = seedAt b ph f (getField v p)) ∧
    ∀ (v : Byte) (p q : Nat) (c : Code), p < 4 → q < 4 → q ≠ p →
      getField (expand b ph (setField v p c) f) q = getField (expand b ph v f) q

/-- R205: a uniform byte expands to a uniform byte. -/
def Obligations.ExpansionOfUniformByte : Prop :=
  ∀ (b : Build) (ph : Phase) (f : Nat) (c : Code), expand b ph (rep c) f = rep (seedAt b ph f c)

/-! ## Refresh -/

/-- R303: UPDATE, ERASE_DISPLAY and READ_LUT raise NOT_INIT while `LUT_VALID = 0`; nothing but the fault's records (and
READ_LUT's word 0) changes, and no event is emitted. -/
def Obligations.NotInitBeforeTables : Prop :=
  ∀ (s : State), s.lutValid = false →
    (∀ i : Instr, i = .update ∨ i = .eraseDisplay → exec i s = .next { s with
      err := (if s.err = 0 then 2 else s.err), faultLog := s.faultLog ++ [.notInit] }) ∧
    ∀ (p : Phase) (v : Byte) (f : BitVec 16), exec (.readLut p v f) s = .next { s with
      results := s.results ++ [0], err := (if s.err = 0 then 2 else s.err), faultLog := s.faultLog ++ [.notInit] }

/-- R239, R240, R247: an UPDATE whose transport acknowledges all its events, and that no reset hinders, emits the power-on, the `E`
erase frames of the reference buffer, the `D-1` draw frames of the active buffer and the power-off, in that order; then it swaps
the roles. The row buffer holds the last draw row, and no other byte and no other item of the state changes. The power and settle
marks are R233's and R250's, the counters' last values R237's, the rows in closed form R243's; how the transport's
acknowledgements are counted is log 8's. -/
def Obligations.UpdateRefreshes : Prop :=
  ∀ (s : State), buildOk s.build = true → s.lutValid = true → Served (eventsOf (updateOut s)).length s →
    s.presented = none →
    ∃ t, exec .update s = .next t ∧
      t = { s with
        rowbuf := t.rowbuf, activeSel := !s.activeSel, seq := .idle, job := .none,
        frameCtr := BitVec.ofNat 16 (s.build.d - 2), rowCtr := BitVec.ofNat 16 s.build.h,
        srcSize := bufSize s.build, busy := false, trace := s.trace ++ updateOut s,
        transport := s.transport.drained (eventsOf (updateOut s)).length } ∧
      (∀ j < bytesPerRow s.build, readByte .rowbuf j t = readTable .draw
        (bufferByte .active s ((s.build.h - 1) * bytesPerRow s.build + j)) (s.build.d - 2) s) ∧
      ∀ sp a, sp ≠ .rowbuf → readByte sp a t = readByte sp a s

/-- R234, R235, R255: an ERASE_DISPLAY whose transport acknowledges all its events, and that no reset hinders, emits `E` frames whose
every byte is the table's entry for `0xFF`, wrapped in the power events if the build says so; then it fills the active buffer,
and the reference buffer if the build says so, with White. The roles are not swapped. How the transport's acknowledgements are
counted is log 8's. -/
def Obligations.EraseDisplayBlanks : Prop :=
  ∀ (s : State), buildOk s.build = true → s.lutValid = true → Served (eventsOf (displayOut s)).length s →
    s.presented = none →
    ∃ t, exec .eraseDisplay s = .next t ∧
      t = { s with
        rowbuf := t.rowbuf, fb0 := t.fb0, fb1 := t.fb1, seq := .idle, job := .none,
        frameCtr := BitVec.ofNat 16 (s.build.e - 1), rowCtr := BitVec.ofNat 16 s.build.h,
        srcSize := 0, busy := false, trace := s.trace ++ displayOut s,
        transport := s.transport.drained (eventsOf (displayOut s)).length } ∧
      (∀ j < bytesPerRow s.build, readByte .rowbuf j t = readTable .erase 0xFF (s.build.e - 1) s) ∧
      (∀ a < bufSize s.build, readByte (bufferOf .active s) a t = 0xFF) ∧
      (s.build.eraseFillScope = .both → ∀ a < bufSize s.build, readByte (bufferOf .reference s) a t = 0xFF) ∧
      (s.build.eraseFillScope = .active → ∀ a, readByte (bufferOf .reference s) a t =
        readByte (bufferOf .reference s) a s) ∧
      ∀ p a, readByte (lutSpace p) a t = readByte (lutSpace p) a s

/-- R255, R156: after an ERASE_DISPLAY that nothing hinders, READ_PIXEL of every visible pixel returns White at every rotation. -/
def Obligations.EraseDisplayThenReadWhite : Prop :=
  ∀ (s t : State) (r : BitVec 2) (x y : BitVec 16), buildOk s.build = true → s.lutValid = true → Unhindered s →
    s.presented = none → exec .eraseDisplay s = .next t → inVis s.build r x.toInt y.toInt = true →
    exec (.readPixel .active x y) { t with rotation := r } =
      .next { t with rotation := r, results := s.results ++ [3] }

/-- R247, R248, R251: after an UPDATE that nothing hinders, the buffer that was active is the reference buffer with all its bytes, and
the one that was reference is active with all its bytes; so each pixel reads in its old buffer's new role as before. -/
def Obligations.UpdateSwapsRoles : Prop :=
  ∀ (s t : State), buildOk s.build = true → s.lutValid = true → Unhindered s → s.presented = none →
    exec .update s = .next t →
    bufferOf .reference t = bufferOf .active s ∧ bufferOf .active t = bufferOf .reference s ∧
    (∀ a, bufferByte .reference t a = bufferByte .active s a ∧ bufferByte .active t a = bufferByte .reference s a) ∧
    ∀ (x y : BitVec 16) (u : State), exec (.readPixel .active x y) s = .next u →
      ∃ v, exec (.readPixel .reference x y) t = .next v ∧ v.results = u.results

/-- R244: the transport events and the settle markers that an UPDATE and an ERASE_DISPLAY that nothing hinders add to the trace, and
`n * (H + 2)` events for a pass of `n` frames. -/
def Obligations.RefreshEventCounts : Prop :=
  ∀ (s : State), buildOk s.build = true → s.lutValid = true → Unhindered s → s.presented = none →
    (∃ t emitted, exec .update s = .next t ∧ t.trace = s.trace ++ emitted ∧
      (eventsOf emitted).length = 2 + (s.build.e + s.build.d - 1) * (s.build.h + 2) ∧
      (emitted.filter Mark.isSettle).length = 2) ∧
    (∃ t emitted, exec .eraseDisplay s = .next t ∧ t.trace = s.trace ++ emitted ∧
      (s.build.erasePower = .wrapped → (eventsOf emitted).length = s.build.e * (s.build.h + 2) + 2 ∧
        (emitted.filter Mark.isSettle).length = 2) ∧
      (s.build.erasePower = .bare → (eventsOf emitted).length = s.build.e * (s.build.h + 2) ∧
        (emitted.filter Mark.isSettle).length = 0)) ∧
    ∀ (p : Phase), ∃ emitted, (perform (passActions s.build p) s).trace = s.trace ++ emitted ∧
      (eventsOf emitted).length = passFrames s.build p * (s.build.h + 2) ∧ (emitted.filter Mark.isSettle).length = 0

/-- R231: an UPDATE or an ERASE_DISPLAY whose transport acknowledges `n` events and then none waits at event `n+1`, presented and in
the trace: `BUSY` is 1, no role has changed and no byte of a buffer or a table has. (That the transport is written as a
count, 0 at the wait, is log 8's choice.) -/
def Obligations.RefreshWaitsForTransport : Prop :=
  ∀ (s : State) (n : Nat), ∀ x ∈ refreshes s, buildOk s.build = true → s.lutValid = true → s.transport = .acksLeft n →
    s.resetAfter = none → s.presented = none → n < (eventsOf x.out).length →
    ∃ t emitted e, exec x.command s = .next t ∧ emitted <+: x.out ∧ t.trace = s.trace ++ emitted ∧
      (eventsOf emitted).length = n + 1 ∧ emitted.getLast? = some (.event e) ∧ t.presented = some e ∧
      t.transport = .acksLeft 0 ∧ t.busy = true ∧ t.job = x.job ∧ t.activeSel = s.activeSel ∧
      ∀ sp a, sp ≠ .rowbuf → readByte sp a t = readByte sp a s

/-- R231, R356: an UPDATE or an ERASE_DISPLAY that had to wait after `n` acknowledgements goes on in the next step. If the transport
then acknowledges every event, it ends exactly where one that never waited ends; if it acknowledges `m` more and stalls again, or
has enough, it stands exactly where one whose transport acknowledged `n + m` from the start stands. (That the position determines
what is left is the model's design, log 11; the count of acknowledgements, log 8.) -/
def Obligations.WaitingRefreshResumes : Prop :=
  ∀ (s t : State) (n : Nat), ∀ x ∈ refreshes s, buildOk s.build = true → s.lutValid = true → s.resetAfter = none →
    s.presented = none → exec x.command { s with transport := .acksLeft n } = .next t → t.presented ≠ none →
    step { t with transport := .ready } = exec x.command { s with transport := .ready } ∧
    ∀ m, step { t with transport := .acksLeft m } = exec x.command { s with transport := .acksLeft (n + m) }

/-! ## The whole machine -/

/-- R301, R306, R102: a step that raises a fault raises one, and changes nothing but `ERR` if it was 0, the fault history, at most one
result word 0, and the words taken; no event is emitted, no byte changes, and the block is idle again. -/
def Obligations.FaultsArePrecise : Prop :=
  ∀ (s t : State), step s = .next t → t.faultLog ≠ s.faultLog →
    ∃ f, t.faultLog = s.faultLog ++ [f] ∧ t.err = (if s.err = 0 then f.code else s.err) ∧ Idle t ∧
      (t.results = s.results ∨ t.results = s.results ++ [0]) ∧
      t = { s with
        err := t.err, faultLog := t.faultLog, results := t.results, cmdChan := t.cmdChan, asm := [], busy := false,
        resetAfter := t.resetAfter } ∧
      ∀ sp a, readByte sp a t = readByte sp a s

/-- R37, R307: once `ERR` is not 0, no step without a reset changes it. -/
def Obligations.ErrIsSticky : Prop :=
  ∀ (s t : State), s.resetAfter = none → s.err ≠ 0 → step s = .next t → t.err = s.err

/-- R33, R35 to R37, R39: without a reset, each status field is written by its owner alone: `LUT_VALID` by INIT, which sets it;
`ROTATION` by SET_ROTATION; `ACTIVE_SEL` by an UPDATE that completes; `ERR` by a fault. -/
def Obligations.StatusFieldsHaveOneWriter : Prop :=
  ∀ (s t : State), s.resetAfter = none → step s = .next t →
    (t.lutValid ≠ s.lutValid → t.lutValid = true ∧ ∃ rest, decode (offeredWords s) = .command .init rest) ∧
    (t.rotation ≠ s.rotation → ∃ r rest, decode (offeredWords s) = .command (.setRotation r) rest) ∧
    (t.activeSel ≠ s.activeSel → t.job = .none ∧
      (s.job = .update ∨ ∃ rest, decode (offeredWords s) = .command .update rest)) ∧
    (t.err ≠ s.err → s.err = 0 ∧ ∃ f, t.faultLog = s.faultLog ++ [f] ∧ t.err = f.code)

/-- R7 to R16, R42: no step changes the build. -/
def Obligations.BuildNeverChanges : Prop :=
  ∀ (s t : State), step s = .next t → t.build = s.build

/-- R32, R353: no command writes a byte of the reference buffer, but for an ERASE_DISPLAY of a build whose fill scope is BOTH; and no
step does, not even one in which a refresh goes on after a wait, without a reset. -/
def Obligations.ReferenceBufferIsProtected : Prop :=
  (∀ (i : Instr) (s t : State), s.resetAfter = none → (i = .eraseDisplay → s.build.eraseFillScope = .active) →
    exec i s = .next t → ∀ a, readByte (bufferOf .reference s) a t = readByte (bufferOf .reference s) a s) ∧
  ∀ (s t : State), s.resetAfter = none → (ErasesDisplay s → s.build.eraseFillScope = .active) →
    step s = .next t → ∀ a, readByte (bufferOf .reference s) a t = readByte (bufferOf .reference s) a s

/-- R246: every command but UPDATE and ERASE_DISPLAY leaves the sequencer's position, the transport port and the trace alone. It
leaves `BUSY` as the port set it (R44); that `BUSY` is lowered by the step, after `exec`, is log 16's choice. -/
def Obligations.OnlyRefreshesEmit : Prop :=
  ∀ (i : Instr) (s t : State), i ≠ .update → i ≠ .eraseDisplay → exec i s = .next t →
    t.trace = s.trace ∧ t.seq = s.seq ∧ t.job = s.job ∧ t.frameCtr = s.frameCtr ∧ t.rowCtr = s.rowCtr ∧
    t.srcSize = s.srcSize ∧ t.presented = s.presented ∧ t.transport = s.transport ∧ t.busy = s.busy

/-! ## Invariants -/

/-- R22, R70: every step keeps every byte space canonical and inside its size. -/
def Obligations.StepKeepsMemory : Prop :=
  ∀ (s t : State), MemoryOk s → step s = .next t → MemoryOk t

/-- R208: every step keeps the tables, once valid, equal to the expansion of the seeds. -/
def Obligations.StepKeepsTables : Prop :=
  ∀ (s t : State), TablesOk s → step s = .next t → TablesOk t

/-- R43 to R46, R246: every step keeps the port and the sequencer in agreement. -/
def Obligations.StepKeepsPort : Prop :=
  ∀ (s t : State), PortOk s → step s = .next t → PortOk t

/-- R246: from a state whose port and sequencer agree, no step stops with a fault; a fault of the model marks only positions that no
run reaches (log 11). -/
def Obligations.AgreeingPortNeverStops : Prop :=
  ∀ (s : State), PortOk s → ∀ r, step s ≠ .fault r

/-- R37, R300: every step keeps `ERR` a legal code that was raised. -/
def Obligations.StepKeepsErr : Prop :=
  ∀ (s t : State), ErrOk s → step s = .next t → ErrOk t

/-- R232: without a reset, every step keeps the power events of the trace alternating, beginning with `PWR_ON`, with one outstanding
exactly while a refresh that powers the panel waits before its `PWR_OFF`. -/
def Obligations.StepKeepsPowerPaired : Prop :=
  ∀ (s t : State), s.resetAfter = none → PortOk s → PowerOk s → step s = .next t → PowerOk t

/-- R48: the state after reset of every build meets every invariant above. -/
def Obligations.ResetMeetsInvariants : Prop :=
  ∀ (b : Build) (n : Nat), MemoryOk (State.resetOf b n) ∧ TablesOk (State.resetOf b n) ∧ PortOk (State.resetOf b n) ∧
    ErrOk (State.resetOf b n) ∧ PowerOk (State.resetOf b n)
end

