-- ==== Sys2Proof/Laws/Decode.lean ====
section
/-! SUPPORT. The laws of the packet encoding: fields of a concatenated word, the opcode map, the payload's packing, and what
`decode` can answer. -/

namespace Sys2Proof

/-! ## Fields of a concatenated word -/

/-- Bit `i` of a word made of three fields. -/
theorem getLsbD_cat3 {n m k : Nat} (h : n + m + k = 32) (a : BitVec n) (z : BitVec m) (c : BitVec k) (i : Nat) :
    (BitVec.cast h (a ++ z ++ c)).getLsbD i =
      if i < k then c.getLsbD i else if i < k + m then z.getLsbD (i - k) else a.getLsbD (i - k - m) := by
  rw [BitVec.getLsbD_cast, BitVec.getLsbD_append, BitVec.getLsbD_append]
  by_cases h1 : i < k <;> by_cases h2 : i < k + m <;> simp [h1, h2] <;> intro <;> omega

/-- Bit `i` of a word made of two fields. -/
theorem getLsbD_cat2 {n k : Nat} (h : n + k = 32) (a : BitVec n) (c : BitVec k) (i : Nat) :
    (BitVec.cast h (a ++ c)).getLsbD i = if i < k then c.getLsbD i else a.getLsbD (i - k) := by
  rw [BitVec.getLsbD_cast, BitVec.getLsbD_append]

theorem lowHalf_append (y x : BitVec 16) : lowHalf (y ++ x) = x := by
  apply BitVec.eq_of_getLsbD_eq
  intro i hi
  rw [lowHalf, BitVec.getLsbD_extractLsb', show (y ++ x : Word) = BitVec.cast rfl (y ++ x) from rfl, getLsbD_cat2]
  simp [hi]

theorem highHalf_append (y x : BitVec 16) : highHalf (y ++ x) = y := by
  apply BitVec.eq_of_getLsbD_eq
  intro i hi
  rw [highHalf, BitVec.getLsbD_extractLsb', show (y ++ x : Word) = BitVec.cast rfl (y ++ x) from rfl, getLsbD_cat2]
  simp [hi]

/-- A word is its two halves. -/
theorem halves_append (w : Word) : (highHalf w ++ lowHalf w : Word) = w := by
  apply BitVec.eq_of_getLsbD_eq
  intro i hi
  rw [show (highHalf w ++ lowHalf w : Word) = BitVec.cast rfl (highHalf w ++ lowHalf w) from rfl, getLsbD_cat2]
  by_cases h : i < 16
  · simp [h, lowHalf]
  · simp only [h, if_false, highHalf, BitVec.getLsbD_extractLsb']
    rw [show 16 + (i - 16) = i by omega]
    simp only [show i - 16 < 16 by omega, decide_true, Bool.true_and]

/-- The opcode of a word whose low part has three fields in all. -/
theorem opField_cat3 {m k : Nat} (h : 8 + m + k = 32) (op : BitVec 8) (z : BitVec m) (c : BitVec k) :
    opField (BitVec.cast h (op ++ z ++ c)) = op := by
  apply BitVec.eq_of_getLsbD_eq
  intro i hi
  rw [opField, BitVec.getLsbD_extractLsb', getLsbD_cat3]
  simp only [hi, decide_true, Bool.true_and]
  rw [if_neg (by omega), if_neg (by omega), show 24 + i - k - m = i by omega]

/-- The opcode of a word with two fields. -/
theorem opField_cat2 (op : BitVec 8) (z : BitVec 24) : opField (op ++ z) = op := by
  apply BitVec.eq_of_getLsbD_eq
  intro i hi
  rw [opField, BitVec.getLsbD_extractLsb', show (op ++ z : Word) = BitVec.cast rfl (op ++ z) from rfl, getLsbD_cat2]
  simp [hi]

/-! ## The opcode map -/

/-- Every row's opcode names that row (R114): no two rows share one. -/
theorem opcodeOf_pattern (o : Opcode) : opcodeOf (opField (opRow o).pattern) = some o := by
  cases o <;> decide

/-- An opcode that names a row is the row's (R114). -/
theorem opField_of_opcodeOf {op : BitVec 8} {o : Opcode} (h : opcodeOf op = some o) :
    opField (opRow o).pattern = op := by
  have := List.find?_some h
  simpa using this

/-! ## The payload -/

theorem wordBytes_append (b3 b2 b1 b0 : Byte) : wordBytes (b3 ++ b2 ++ b1 ++ b0) = [b0, b1, b2, b3] := by
  have key : ∀ i, (b3 ++ b2 ++ b1 ++ b0 : Word).getLsbD i =
      if i < 8 then b0.getLsbD i else if i < 16 then b1.getLsbD (i - 8) else (b3 ++ b2).getLsbD (i - 16) := by
    intro i
    exact getLsbD_cat3 (n := 16) (m := 8) (k := 8) rfl (b3 ++ b2) b1 b0 i
  simp only [wordBytes, List.cons.injEq, and_true]
  refine ⟨?_, ?_, ?_, ?_⟩ <;> apply BitVec.eq_of_getLsbD_eq <;> intro i hi <;>
    rw [BitVec.getLsbD_extractLsb', key] <;> simp only [hi, decide_true, Bool.true_and]
  · rw [if_pos (by omega), Nat.zero_add]
  · rw [if_neg (by omega), if_pos (by omega), Nat.add_sub_cancel_left]
  · rw [if_neg (by omega), if_neg (by omega), Nat.add_sub_cancel_left, BitVec.getLsbD_append]; simp [hi]
  · rw [if_neg (by omega), if_neg (by omega), BitVec.getLsbD_append, show 24 + i - 16 = 8 + i by omega]
    simp

theorem length_wordBytes (w : Word) : (wordBytes w).length = 4 := rfl

/-- Unpacking packed bytes gives them back, with the zero padding of the last word (R113). -/
theorem unpack_packBytes (bs : List Byte) :
    ∃ pad, (packBytes bs).flatMap wordBytes = bs ++ pad ∧ (packBytes bs).length = (bs.length + 3) / 4 := by
  induction bs using packBytes.induct with
  | case1 => exact ⟨[], rfl, rfl⟩
  | case2 b0 =>
    exact ⟨[0, 0, 0], by simpa [packBytes] using wordBytes_append 0 0 0 b0, by simp [packBytes]⟩
  | case3 b0 b1 =>
    exact ⟨[0, 0], by simpa [packBytes] using wordBytes_append 0 0 b1 b0, by simp [packBytes]⟩
  | case4 b0 b1 b2 =>
    exact ⟨[0], by simpa [packBytes] using wordBytes_append 0 b2 b1 b0, by simp [packBytes]⟩
  | case5 b0 b1 b2 b3 bs ih =>
    obtain ⟨pad, h, hl⟩ := ih
    refine ⟨pad, ?_, ?_⟩
    · simp [packBytes, h, wordBytes_append]
    · simp only [packBytes, List.length_cons, hl]; omega

/-- The decoder's bytes of a packed payload are the bytes packed (R113). -/
theorem payloadBytes_packBytes (bs : List Byte) : payloadBytes bs.length (packBytes bs) = bs := by
  obtain ⟨pad, h, _⟩ := unpack_packBytes bs
  simp [payloadBytes, h]

theorem length_packBytes (bs : List Byte) : (packBytes bs).length = (bs.length + 3) / 4 := by
  obtain ⟨_, _, h⟩ := unpack_packBytes bs
  exact h

theorem length_flatMap_wordBytes (ws : List Word) : (ws.flatMap wordBytes).length = 4 * ws.length := by
  induction ws with
  | nil => rfl
  | cons w ws ih => simp only [List.flatMap_cons, List.length_append, ih, length_wordBytes, List.length_cons]; omega

/-! ## What `decode` answers -/

/-- `decode` on a list that begins with a word, case by case. -/
theorem decode_cons (cw : Word) (args : List Word) :
    decode (cw :: args) =
      match opcodeOf (opField cw) with
      | none => .illegal .undefinedOpcode args
      | some o =>
        if (cw :: args).length < packetLength (cw :: args) then .incomplete
        else if cleanPacket o cw (args.getD 0 0) then
          .command (commandOf o cw (args.getD 0 0) (args.getD 1 0)
            (((cw :: args).take (packetLength (cw :: args))).drop 3)) ((cw :: args).drop (packetLength (cw :: args)))
        else .illegal (.reservedBits o) ((cw :: args).drop (packetLength (cw :: args))) := rfl

/-- The packet length of a list that begins with a row's word (R118). -/
theorem packetLength_cons {cw : Word} {o : Opcode} (h : opcodeOf (opField cw) = some o) (args : List Word) :
    packetLength (cw :: args) = 1 + (opRow o).narg +
      (if o = .drawBitmap then
        bitmapWordCount (lowHalf (args.getD 1 0)).toNat (highHalf (args.getD 1 0)).toNat else 0) := by
  simp [packetLength, h]

/-- When `decode` answers a command: a clean packet of a defined opcode, all of whose words have arrived. -/
theorem decode_command {ws : List Word} {i : Instr} {rest : List Word} (h : decode ws = .command i rest) :
    ∃ cw args o, ws = cw :: args ∧ opcodeOf (opField cw) = some o ∧ packetLength ws ≤ ws.length ∧
      cleanPacket o cw (args.getD 0 0) = true ∧
      i = commandOf o cw (args.getD 0 0) (args.getD 1 0) ((ws.take (packetLength ws)).drop 3) ∧
      rest = ws.drop (packetLength ws) := by
  cases ws with
  | nil => simp [decode] at h
  | cons cw args =>
    rw [decode_cons] at h
    split at h
    · simp at h
    · next o ho =>
      split at h
      · simp at h
      · next hl =>
        split at h
        · next hc =>
          simp only [Decoded.command.injEq] at h
          exact ⟨cw, args, o, rfl, ho, by omega, hc, h.1.symm, h.2.symm⟩
        · simp at h

end Sys2Proof
end

