-- ==== Sys2Proof/Laws/State.lean ====
section
/-! SUPPORT. What each update of State does to each field, so that no later proof unfolds a record update. -/

namespace Sys2Proof.Machine

variable (s : State)

/-! ## putResult -/

@[simp] theorem putResult_fb0 (v : Word) : (putResult v s).fb0 = s.fb0 := rfl
@[simp] theorem putResult_fb1 (v : Word) : (putResult v s).fb1 = s.fb1 := rfl
@[simp] theorem putResult_rowbuf (v : Word) : (putResult v s).rowbuf = s.rowbuf := rfl
@[simp] theorem putResult_lutE (v : Word) : (putResult v s).lutE = s.lutE := rfl
@[simp] theorem putResult_lutD (v : Word) : (putResult v s).lutD = s.lutD := rfl
@[simp] theorem putResult_build (v : Word) : (putResult v s).build = s.build := rfl
@[simp] theorem putResult_activeSel (v : Word) : (putResult v s).activeSel = s.activeSel := rfl
@[simp] theorem putResult_rotation (v : Word) : (putResult v s).rotation = s.rotation := rfl
@[simp] theorem putResult_lutValid (v : Word) : (putResult v s).lutValid = s.lutValid := rfl
@[simp] theorem putResult_err (v : Word) : (putResult v s).err = s.err := rfl
@[simp] theorem putResult_seq (v : Word) : (putResult v s).seq = s.seq := rfl
@[simp] theorem putResult_job (v : Word) : (putResult v s).job = s.job := rfl
@[simp] theorem putResult_frameCtr (v : Word) : (putResult v s).frameCtr = s.frameCtr := rfl
@[simp] theorem putResult_rowCtr (v : Word) : (putResult v s).rowCtr = s.rowCtr := rfl
@[simp] theorem putResult_srcSize (v : Word) : (putResult v s).srcSize = s.srcSize := rfl
@[simp] theorem putResult_busy (v : Word) : (putResult v s).busy = s.busy := rfl
@[simp] theorem putResult_asm (v : Word) : (putResult v s).asm = s.asm := rfl
@[simp] theorem putResult_presented (v : Word) : (putResult v s).presented = s.presented := rfl
@[simp] theorem putResult_cmdChan (v : Word) : (putResult v s).cmdChan = s.cmdChan := rfl
@[simp] theorem putResult_results (v : Word) : (putResult v s).results = s.results ++ [v] := rfl
@[simp] theorem putResult_transport (v : Word) : (putResult v s).transport = s.transport := rfl
@[simp] theorem putResult_resetAfter (v : Word) : (putResult v s).resetAfter = s.resetAfter := rfl
@[simp] theorem putResult_trace (v : Word) : (putResult v s).trace = s.trace := rfl
@[simp] theorem putResult_faultLog (v : Word) : (putResult v s).faultLog = s.faultLog := rfl
@[simp] theorem putResult_draw (v : Word) : (putResult v s).draw = s.draw := rfl

/-! ## raiseFault -/

@[simp] theorem raiseFault_fb0 (f : FaultCode) : (raiseFault f s).fb0 = s.fb0 := rfl
@[simp] theorem raiseFault_fb1 (f : FaultCode) : (raiseFault f s).fb1 = s.fb1 := rfl
@[simp] theorem raiseFault_rowbuf (f : FaultCode) : (raiseFault f s).rowbuf = s.rowbuf := rfl
@[simp] theorem raiseFault_lutE (f : FaultCode) : (raiseFault f s).lutE = s.lutE := rfl
@[simp] theorem raiseFault_lutD (f : FaultCode) : (raiseFault f s).lutD = s.lutD := rfl
@[simp] theorem raiseFault_build (f : FaultCode) : (raiseFault f s).build = s.build := rfl
@[simp] theorem raiseFault_activeSel (f : FaultCode) : (raiseFault f s).activeSel = s.activeSel := rfl
@[simp] theorem raiseFault_rotation (f : FaultCode) : (raiseFault f s).rotation = s.rotation := rfl
@[simp] theorem raiseFault_lutValid (f : FaultCode) : (raiseFault f s).lutValid = s.lutValid := rfl
@[simp] theorem raiseFault_err (f : FaultCode) : (raiseFault f s).err = if s.err = 0 then f.code else s.err := rfl
@[simp] theorem raiseFault_seq (f : FaultCode) : (raiseFault f s).seq = s.seq := rfl
@[simp] theorem raiseFault_job (f : FaultCode) : (raiseFault f s).job = s.job := rfl
@[simp] theorem raiseFault_frameCtr (f : FaultCode) : (raiseFault f s).frameCtr = s.frameCtr := rfl
@[simp] theorem raiseFault_rowCtr (f : FaultCode) : (raiseFault f s).rowCtr = s.rowCtr := rfl
@[simp] theorem raiseFault_srcSize (f : FaultCode) : (raiseFault f s).srcSize = s.srcSize := rfl
@[simp] theorem raiseFault_busy (f : FaultCode) : (raiseFault f s).busy = s.busy := rfl
@[simp] theorem raiseFault_asm (f : FaultCode) : (raiseFault f s).asm = s.asm := rfl
@[simp] theorem raiseFault_presented (f : FaultCode) : (raiseFault f s).presented = s.presented := rfl
@[simp] theorem raiseFault_cmdChan (f : FaultCode) : (raiseFault f s).cmdChan = s.cmdChan := rfl
@[simp] theorem raiseFault_results (f : FaultCode) : (raiseFault f s).results = s.results := rfl
@[simp] theorem raiseFault_transport (f : FaultCode) : (raiseFault f s).transport = s.transport := rfl
@[simp] theorem raiseFault_resetAfter (f : FaultCode) : (raiseFault f s).resetAfter = s.resetAfter := rfl
@[simp] theorem raiseFault_trace (f : FaultCode) : (raiseFault f s).trace = s.trace := rfl
@[simp] theorem raiseFault_faultLog (f : FaultCode) : (raiseFault f s).faultLog = s.faultLog ++ [f] := rfl
@[simp] theorem raiseFault_draw (f : FaultCode) : (raiseFault f s).draw = s.draw := rfl

/-! ## raiseWithResult -/

@[simp] theorem raiseWithResult_fb0 (f : FaultCode) : (raiseWithResult f s).fb0 = s.fb0 := rfl
@[simp] theorem raiseWithResult_fb1 (f : FaultCode) : (raiseWithResult f s).fb1 = s.fb1 := rfl
@[simp] theorem raiseWithResult_rowbuf (f : FaultCode) : (raiseWithResult f s).rowbuf = s.rowbuf := rfl
@[simp] theorem raiseWithResult_lutE (f : FaultCode) : (raiseWithResult f s).lutE = s.lutE := rfl
@[simp] theorem raiseWithResult_lutD (f : FaultCode) : (raiseWithResult f s).lutD = s.lutD := rfl
@[simp] theorem raiseWithResult_build (f : FaultCode) : (raiseWithResult f s).build = s.build := rfl
@[simp] theorem raiseWithResult_activeSel (f : FaultCode) : (raiseWithResult f s).activeSel = s.activeSel := rfl
@[simp] theorem raiseWithResult_rotation (f : FaultCode) : (raiseWithResult f s).rotation = s.rotation := rfl
@[simp] theorem raiseWithResult_lutValid (f : FaultCode) : (raiseWithResult f s).lutValid = s.lutValid := rfl
@[simp] theorem raiseWithResult_err (f : FaultCode) : (raiseWithResult f s).err = if s.err = 0 then f.code else s.err := rfl
@[simp] theorem raiseWithResult_seq (f : FaultCode) : (raiseWithResult f s).seq = s.seq := rfl
@[simp] theorem raiseWithResult_job (f : FaultCode) : (raiseWithResult f s).job = s.job := rfl
@[simp] theorem raiseWithResult_frameCtr (f : FaultCode) : (raiseWithResult f s).frameCtr = s.frameCtr := rfl
@[simp] theorem raiseWithResult_rowCtr (f : FaultCode) : (raiseWithResult f s).rowCtr = s.rowCtr := rfl
@[simp] theorem raiseWithResult_srcSize (f : FaultCode) : (raiseWithResult f s).srcSize = s.srcSize := rfl
@[simp] theorem raiseWithResult_busy (f : FaultCode) : (raiseWithResult f s).busy = s.busy := rfl
@[simp] theorem raiseWithResult_asm (f : FaultCode) : (raiseWithResult f s).asm = s.asm := rfl
@[simp] theorem raiseWithResult_presented (f : FaultCode) : (raiseWithResult f s).presented = s.presented := rfl
@[simp] theorem raiseWithResult_cmdChan (f : FaultCode) : (raiseWithResult f s).cmdChan = s.cmdChan := rfl
@[simp] theorem raiseWithResult_results (f : FaultCode) : (raiseWithResult f s).results = s.results ++ [0] := rfl
@[simp] theorem raiseWithResult_transport (f : FaultCode) : (raiseWithResult f s).transport = s.transport := rfl
@[simp] theorem raiseWithResult_resetAfter (f : FaultCode) : (raiseWithResult f s).resetAfter = s.resetAfter := rfl
@[simp] theorem raiseWithResult_trace (f : FaultCode) : (raiseWithResult f s).trace = s.trace := rfl
@[simp] theorem raiseWithResult_faultLog (f : FaultCode) : (raiseWithResult f s).faultLog = s.faultLog ++ [f] := rfl
@[simp] theorem raiseWithResult_draw (f : FaultCode) : (raiseWithResult f s).draw = s.draw := rfl

/-! ## present -/

@[simp] theorem present_fb0 (e : Event) : (present e s).fb0 = s.fb0 := rfl
@[simp] theorem present_fb1 (e : Event) : (present e s).fb1 = s.fb1 := rfl
@[simp] theorem present_rowbuf (e : Event) : (present e s).rowbuf = s.rowbuf := rfl
@[simp] theorem present_lutE (e : Event) : (present e s).lutE = s.lutE := rfl
@[simp] theorem present_lutD (e : Event) : (present e s).lutD = s.lutD := rfl
@[simp] theorem present_build (e : Event) : (present e s).build = s.build := rfl
@[simp] theorem present_activeSel (e : Event) : (present e s).activeSel = s.activeSel := rfl
@[simp] theorem present_rotation (e : Event) : (present e s).rotation = s.rotation := rfl
@[simp] theorem present_lutValid (e : Event) : (present e s).lutValid = s.lutValid := rfl
@[simp] theorem present_err (e : Event) : (present e s).err = s.err := rfl
@[simp] theorem present_seq (e : Event) : (present e s).seq = s.seq := rfl
@[simp] theorem present_job (e : Event) : (present e s).job = s.job := rfl
@[simp] theorem present_frameCtr (e : Event) : (present e s).frameCtr = s.frameCtr := rfl
@[simp] theorem present_rowCtr (e : Event) : (present e s).rowCtr = s.rowCtr := rfl
@[simp] theorem present_srcSize (e : Event) : (present e s).srcSize = s.srcSize := rfl
@[simp] theorem present_busy (e : Event) : (present e s).busy = s.busy := rfl
@[simp] theorem present_asm (e : Event) : (present e s).asm = s.asm := rfl
@[simp] theorem present_presented (e : Event) : (present e s).presented = some e := rfl
@[simp] theorem present_cmdChan (e : Event) : (present e s).cmdChan = s.cmdChan := rfl
@[simp] theorem present_results (e : Event) : (present e s).results = s.results := rfl
@[simp] theorem present_transport (e : Event) : (present e s).transport = s.transport := rfl
@[simp] theorem present_resetAfter (e : Event) : (present e s).resetAfter = s.resetAfter := rfl
@[simp] theorem present_trace (e : Event) : (present e s).trace = s.trace ++ [.event e] := rfl
@[simp] theorem present_faultLog (e : Event) : (present e s).faultLog = s.faultLog := rfl
@[simp] theorem present_draw (e : Event) : (present e s).draw = s.draw := rfl

/-! ## recordSettle -/

@[simp] theorem recordSettle_fb0 (k : Settle) : (recordSettle k s).fb0 = s.fb0 := rfl
@[simp] theorem recordSettle_fb1 (k : Settle) : (recordSettle k s).fb1 = s.fb1 := rfl
@[simp] theorem recordSettle_rowbuf (k : Settle) : (recordSettle k s).rowbuf = s.rowbuf := rfl
@[simp] theorem recordSettle_lutE (k : Settle) : (recordSettle k s).lutE = s.lutE := rfl
@[simp] theorem recordSettle_lutD (k : Settle) : (recordSettle k s).lutD = s.lutD := rfl
@[simp] theorem recordSettle_build (k : Settle) : (recordSettle k s).build = s.build := rfl
@[simp] theorem recordSettle_activeSel (k : Settle) : (recordSettle k s).activeSel = s.activeSel := rfl
@[simp] theorem recordSettle_rotation (k : Settle) : (recordSettle k s).rotation = s.rotation := rfl
@[simp] theorem recordSettle_lutValid (k : Settle) : (recordSettle k s).lutValid = s.lutValid := rfl
@[simp] theorem recordSettle_err (k : Settle) : (recordSettle k s).err = s.err := rfl
@[simp] theorem recordSettle_seq (k : Settle) : (recordSettle k s).seq = s.seq := rfl
@[simp] theorem recordSettle_job (k : Settle) : (recordSettle k s).job = s.job := rfl
@[simp] theorem recordSettle_frameCtr (k : Settle) : (recordSettle k s).frameCtr = s.frameCtr := rfl
@[simp] theorem recordSettle_rowCtr (k : Settle) : (recordSettle k s).rowCtr = s.rowCtr := rfl
@[simp] theorem recordSettle_srcSize (k : Settle) : (recordSettle k s).srcSize = s.srcSize := rfl
@[simp] theorem recordSettle_busy (k : Settle) : (recordSettle k s).busy = s.busy := rfl
@[simp] theorem recordSettle_asm (k : Settle) : (recordSettle k s).asm = s.asm := rfl
@[simp] theorem recordSettle_presented (k : Settle) : (recordSettle k s).presented = s.presented := rfl
@[simp] theorem recordSettle_cmdChan (k : Settle) : (recordSettle k s).cmdChan = s.cmdChan := rfl
@[simp] theorem recordSettle_results (k : Settle) : (recordSettle k s).results = s.results := rfl
@[simp] theorem recordSettle_transport (k : Settle) : (recordSettle k s).transport = s.transport := rfl
@[simp] theorem recordSettle_resetAfter (k : Settle) : (recordSettle k s).resetAfter = s.resetAfter := rfl
@[simp] theorem recordSettle_trace (k : Settle) : (recordSettle k s).trace = s.trace ++ [.settle k] := rfl
@[simp] theorem recordSettle_faultLog (k : Settle) : (recordSettle k s).faultLog = s.faultLog := rfl
@[simp] theorem recordSettle_draw (k : Settle) : (recordSettle k s).draw = s.draw := rfl

/-! ## tickReset -/

@[simp] theorem tickReset_fb0 : (tickReset s).fb0 = s.fb0 := rfl
@[simp] theorem tickReset_fb1 : (tickReset s).fb1 = s.fb1 := rfl
@[simp] theorem tickReset_rowbuf : (tickReset s).rowbuf = s.rowbuf := rfl
@[simp] theorem tickReset_lutE : (tickReset s).lutE = s.lutE := rfl
@[simp] theorem tickReset_lutD : (tickReset s).lutD = s.lutD := rfl
@[simp] theorem tickReset_build : (tickReset s).build = s.build := rfl
@[simp] theorem tickReset_activeSel : (tickReset s).activeSel = s.activeSel := rfl
@[simp] theorem tickReset_rotation : (tickReset s).rotation = s.rotation := rfl
@[simp] theorem tickReset_lutValid : (tickReset s).lutValid = s.lutValid := rfl
@[simp] theorem tickReset_err : (tickReset s).err = s.err := rfl
@[simp] theorem tickReset_seq : (tickReset s).seq = s.seq := rfl
@[simp] theorem tickReset_job : (tickReset s).job = s.job := rfl
@[simp] theorem tickReset_frameCtr : (tickReset s).frameCtr = s.frameCtr := rfl
@[simp] theorem tickReset_rowCtr : (tickReset s).rowCtr = s.rowCtr := rfl
@[simp] theorem tickReset_srcSize : (tickReset s).srcSize = s.srcSize := rfl
@[simp] theorem tickReset_busy : (tickReset s).busy = s.busy := rfl
@[simp] theorem tickReset_asm : (tickReset s).asm = s.asm := rfl
@[simp] theorem tickReset_presented : (tickReset s).presented = s.presented := rfl
@[simp] theorem tickReset_cmdChan : (tickReset s).cmdChan = s.cmdChan := rfl
@[simp] theorem tickReset_results : (tickReset s).results = s.results := rfl
@[simp] theorem tickReset_transport : (tickReset s).transport = s.transport := rfl
@[simp] theorem tickReset_resetAfter : (tickReset s).resetAfter = s.resetAfter.map (· - 1) := rfl
@[simp] theorem tickReset_trace : (tickReset s).trace = s.trace := rfl
@[simp] theorem tickReset_faultLog : (tickReset s).faultLog = s.faultLog := rfl
@[simp] theorem tickReset_draw : (tickReset s).draw = s.draw := rfl

/-! ## swapRoles -/

@[simp] theorem swapRoles_fb0 : (swapRoles s).fb0 = s.fb0 := rfl
@[simp] theorem swapRoles_fb1 : (swapRoles s).fb1 = s.fb1 := rfl
@[simp] theorem swapRoles_rowbuf : (swapRoles s).rowbuf = s.rowbuf := rfl
@[simp] theorem swapRoles_lutE : (swapRoles s).lutE = s.lutE := rfl
@[simp] theorem swapRoles_lutD : (swapRoles s).lutD = s.lutD := rfl
@[simp] theorem swapRoles_build : (swapRoles s).build = s.build := rfl
@[simp] theorem swapRoles_activeSel : (swapRoles s).activeSel = !s.activeSel := rfl
@[simp] theorem swapRoles_rotation : (swapRoles s).rotation = s.rotation := rfl
@[simp] theorem swapRoles_lutValid : (swapRoles s).lutValid = s.lutValid := rfl
@[simp] theorem swapRoles_err : (swapRoles s).err = s.err := rfl
@[simp] theorem swapRoles_seq : (swapRoles s).seq = s.seq := rfl
@[simp] theorem swapRoles_job : (swapRoles s).job = s.job := rfl
@[simp] theorem swapRoles_frameCtr : (swapRoles s).frameCtr = s.frameCtr := rfl
@[simp] theorem swapRoles_rowCtr : (swapRoles s).rowCtr = s.rowCtr := rfl
@[simp] theorem swapRoles_srcSize : (swapRoles s).srcSize = s.srcSize := rfl
@[simp] theorem swapRoles_busy : (swapRoles s).busy = s.busy := rfl
@[simp] theorem swapRoles_asm : (swapRoles s).asm = s.asm := rfl
@[simp] theorem swapRoles_presented : (swapRoles s).presented = s.presented := rfl
@[simp] theorem swapRoles_cmdChan : (swapRoles s).cmdChan = s.cmdChan := rfl
@[simp] theorem swapRoles_results : (swapRoles s).results = s.results := rfl
@[simp] theorem swapRoles_transport : (swapRoles s).transport = s.transport := rfl
@[simp] theorem swapRoles_resetAfter : (swapRoles s).resetAfter = s.resetAfter := rfl
@[simp] theorem swapRoles_trace : (swapRoles s).trace = s.trace := rfl
@[simp] theorem swapRoles_faultLog : (swapRoles s).faultLog = s.faultLog := rfl
@[simp] theorem swapRoles_draw : (swapRoles s).draw = s.draw := rfl

/-! ## startJob -/

@[simp] theorem startJob_fb0 (j : Job) (n : Nat) : (startJob j n s).fb0 = s.fb0 := rfl
@[simp] theorem startJob_fb1 (j : Job) (n : Nat) : (startJob j n s).fb1 = s.fb1 := rfl
@[simp] theorem startJob_rowbuf (j : Job) (n : Nat) : (startJob j n s).rowbuf = s.rowbuf := rfl
@[simp] theorem startJob_lutE (j : Job) (n : Nat) : (startJob j n s).lutE = s.lutE := rfl
@[simp] theorem startJob_lutD (j : Job) (n : Nat) : (startJob j n s).lutD = s.lutD := rfl
@[simp] theorem startJob_build (j : Job) (n : Nat) : (startJob j n s).build = s.build := rfl
@[simp] theorem startJob_activeSel (j : Job) (n : Nat) : (startJob j n s).activeSel = s.activeSel := rfl
@[simp] theorem startJob_rotation (j : Job) (n : Nat) : (startJob j n s).rotation = s.rotation := rfl
@[simp] theorem startJob_lutValid (j : Job) (n : Nat) : (startJob j n s).lutValid = s.lutValid := rfl
@[simp] theorem startJob_err (j : Job) (n : Nat) : (startJob j n s).err = s.err := rfl
@[simp] theorem startJob_seq (j : Job) (n : Nat) : (startJob j n s).seq = s.seq := rfl
@[simp] theorem startJob_job (j : Job) (n : Nat) : (startJob j n s).job = j := rfl
@[simp] theorem startJob_frameCtr (j : Job) (n : Nat) : (startJob j n s).frameCtr = s.frameCtr := rfl
@[simp] theorem startJob_rowCtr (j : Job) (n : Nat) : (startJob j n s).rowCtr = s.rowCtr := rfl
@[simp] theorem startJob_srcSize (j : Job) (n : Nat) : (startJob j n s).srcSize = n := rfl
@[simp] theorem startJob_busy (j : Job) (n : Nat) : (startJob j n s).busy = true := rfl
@[simp] theorem startJob_asm (j : Job) (n : Nat) : (startJob j n s).asm = s.asm := rfl
@[simp] theorem startJob_presented (j : Job) (n : Nat) : (startJob j n s).presented = s.presented := rfl
@[simp] theorem startJob_cmdChan (j : Job) (n : Nat) : (startJob j n s).cmdChan = s.cmdChan := rfl
@[simp] theorem startJob_results (j : Job) (n : Nat) : (startJob j n s).results = s.results := rfl
@[simp] theorem startJob_transport (j : Job) (n : Nat) : (startJob j n s).transport = s.transport := rfl
@[simp] theorem startJob_resetAfter (j : Job) (n : Nat) : (startJob j n s).resetAfter = s.resetAfter := rfl
@[simp] theorem startJob_trace (j : Job) (n : Nat) : (startJob j n s).trace = s.trace := rfl
@[simp] theorem startJob_faultLog (j : Job) (n : Nat) : (startJob j n s).faultLog = s.faultLog := rfl
@[simp] theorem startJob_draw (j : Job) (n : Nat) : (startJob j n s).draw = s.draw := rfl

/-! ## endJob -/

@[simp] theorem endJob_fb0 : (endJob s).fb0 = s.fb0 := rfl
@[simp] theorem endJob_fb1 : (endJob s).fb1 = s.fb1 := rfl
@[simp] theorem endJob_rowbuf : (endJob s).rowbuf = s.rowbuf := rfl
@[simp] theorem endJob_lutE : (endJob s).lutE = s.lutE := rfl
@[simp] theorem endJob_lutD : (endJob s).lutD = s.lutD := rfl
@[simp] theorem endJob_build : (endJob s).build = s.build := rfl
@[simp] theorem endJob_activeSel : (endJob s).activeSel = s.activeSel := rfl
@[simp] theorem endJob_rotation : (endJob s).rotation = s.rotation := rfl
@[simp] theorem endJob_lutValid : (endJob s).lutValid = s.lutValid := rfl
@[simp] theorem endJob_err : (endJob s).err = s.err := rfl
@[simp] theorem endJob_seq : (endJob s).seq = .idle := rfl
@[simp] theorem endJob_job : (endJob s).job = .none := rfl
@[simp] theorem endJob_frameCtr : (endJob s).frameCtr = s.frameCtr := rfl
@[simp] theorem endJob_rowCtr : (endJob s).rowCtr = s.rowCtr := rfl
@[simp] theorem endJob_srcSize : (endJob s).srcSize = s.srcSize := rfl
@[simp] theorem endJob_busy : (endJob s).busy = false := rfl
@[simp] theorem endJob_asm : (endJob s).asm = s.asm := rfl
@[simp] theorem endJob_presented : (endJob s).presented = s.presented := rfl
@[simp] theorem endJob_cmdChan : (endJob s).cmdChan = s.cmdChan := rfl
@[simp] theorem endJob_results : (endJob s).results = s.results := rfl
@[simp] theorem endJob_transport : (endJob s).transport = s.transport := rfl
@[simp] theorem endJob_resetAfter : (endJob s).resetAfter = s.resetAfter := rfl
@[simp] theorem endJob_trace : (endJob s).trace = s.trace := rfl
@[simp] theorem endJob_faultLog : (endJob s).faultLog = s.faultLog := rfl
@[simp] theorem endJob_draw : (endJob s).draw = s.draw := rfl

/-! ## packetTaken -/

@[simp] theorem packetTaken_fb0 (ws : List Word) : (packetTaken ws s).fb0 = s.fb0 := rfl
@[simp] theorem packetTaken_fb1 (ws : List Word) : (packetTaken ws s).fb1 = s.fb1 := rfl
@[simp] theorem packetTaken_rowbuf (ws : List Word) : (packetTaken ws s).rowbuf = s.rowbuf := rfl
@[simp] theorem packetTaken_lutE (ws : List Word) : (packetTaken ws s).lutE = s.lutE := rfl
@[simp] theorem packetTaken_lutD (ws : List Word) : (packetTaken ws s).lutD = s.lutD := rfl
@[simp] theorem packetTaken_build (ws : List Word) : (packetTaken ws s).build = s.build := rfl
@[simp] theorem packetTaken_activeSel (ws : List Word) : (packetTaken ws s).activeSel = s.activeSel := rfl
@[simp] theorem packetTaken_rotation (ws : List Word) : (packetTaken ws s).rotation = s.rotation := rfl
@[simp] theorem packetTaken_lutValid (ws : List Word) : (packetTaken ws s).lutValid = s.lutValid := rfl
@[simp] theorem packetTaken_err (ws : List Word) : (packetTaken ws s).err = s.err := rfl
@[simp] theorem packetTaken_seq (ws : List Word) : (packetTaken ws s).seq = s.seq := rfl
@[simp] theorem packetTaken_job (ws : List Word) : (packetTaken ws s).job = s.job := rfl
@[simp] theorem packetTaken_frameCtr (ws : List Word) : (packetTaken ws s).frameCtr = s.frameCtr := rfl
@[simp] theorem packetTaken_rowCtr (ws : List Word) : (packetTaken ws s).rowCtr = s.rowCtr := rfl
@[simp] theorem packetTaken_srcSize (ws : List Word) : (packetTaken ws s).srcSize = s.srcSize := rfl
@[simp] theorem packetTaken_busy (ws : List Word) : (packetTaken ws s).busy = true := rfl
@[simp] theorem packetTaken_asm (ws : List Word) : (packetTaken ws s).asm = [] := rfl
@[simp] theorem packetTaken_presented (ws : List Word) : (packetTaken ws s).presented = s.presented := rfl
@[simp] theorem packetTaken_cmdChan (ws : List Word) : (packetTaken ws s).cmdChan = ws := rfl
@[simp] theorem packetTaken_results (ws : List Word) : (packetTaken ws s).results = s.results := rfl
@[simp] theorem packetTaken_transport (ws : List Word) : (packetTaken ws s).transport = s.transport := rfl
@[simp] theorem packetTaken_resetAfter (ws : List Word) : (packetTaken ws s).resetAfter = s.resetAfter := rfl
@[simp] theorem packetTaken_trace (ws : List Word) : (packetTaken ws s).trace = s.trace := rfl
@[simp] theorem packetTaken_faultLog (ws : List Word) : (packetTaken ws s).faultLog = s.faultLog := rfl
@[simp] theorem packetTaken_draw (ws : List Word) : (packetTaken ws s).draw = s.draw := rfl

/-! ## elapse -/

@[simp] theorem elapse_fb0 (n : Nat) : (elapse n s).fb0 = s.fb0 := rfl
@[simp] theorem elapse_fb1 (n : Nat) : (elapse n s).fb1 = s.fb1 := rfl
@[simp] theorem elapse_rowbuf (n : Nat) : (elapse n s).rowbuf = s.rowbuf := rfl
@[simp] theorem elapse_lutE (n : Nat) : (elapse n s).lutE = s.lutE := rfl
@[simp] theorem elapse_lutD (n : Nat) : (elapse n s).lutD = s.lutD := rfl
@[simp] theorem elapse_build (n : Nat) : (elapse n s).build = s.build := rfl
@[simp] theorem elapse_activeSel (n : Nat) : (elapse n s).activeSel = s.activeSel := rfl
@[simp] theorem elapse_rotation (n : Nat) : (elapse n s).rotation = s.rotation := rfl
@[simp] theorem elapse_lutValid (n : Nat) : (elapse n s).lutValid = s.lutValid := rfl
@[simp] theorem elapse_err (n : Nat) : (elapse n s).err = s.err := rfl
@[simp] theorem elapse_seq (n : Nat) : (elapse n s).seq = s.seq := rfl
@[simp] theorem elapse_job (n : Nat) : (elapse n s).job = s.job := rfl
@[simp] theorem elapse_frameCtr (n : Nat) : (elapse n s).frameCtr = s.frameCtr := rfl
@[simp] theorem elapse_rowCtr (n : Nat) : (elapse n s).rowCtr = s.rowCtr := rfl
@[simp] theorem elapse_srcSize (n : Nat) : (elapse n s).srcSize = s.srcSize := rfl
@[simp] theorem elapse_busy (n : Nat) : (elapse n s).busy = s.busy := rfl
@[simp] theorem elapse_asm (n : Nat) : (elapse n s).asm = s.asm := rfl
@[simp] theorem elapse_presented (n : Nat) : (elapse n s).presented = s.presented := rfl
@[simp] theorem elapse_cmdChan (n : Nat) : (elapse n s).cmdChan = s.cmdChan := rfl
@[simp] theorem elapse_results (n : Nat) : (elapse n s).results = s.results := rfl
@[simp] theorem elapse_transport (n : Nat) : (elapse n s).transport = s.transport := rfl
@[simp] theorem elapse_resetAfter (n : Nat) : (elapse n s).resetAfter = s.resetAfter.map (· - n) := rfl
@[simp] theorem elapse_trace (n : Nat) : (elapse n s).trace = s.trace := rfl
@[simp] theorem elapse_faultLog (n : Nat) : (elapse n s).faultLog = s.faultLog := rfl
@[simp] theorem elapse_draw (n : Nat) : (elapse n s).draw = s.draw := rfl

/-! ## holdWords -/

@[simp] theorem holdWords_fb0 : (holdWords s).fb0 = s.fb0 := rfl
@[simp] theorem holdWords_fb1 : (holdWords s).fb1 = s.fb1 := rfl
@[simp] theorem holdWords_rowbuf : (holdWords s).rowbuf = s.rowbuf := rfl
@[simp] theorem holdWords_lutE : (holdWords s).lutE = s.lutE := rfl
@[simp] theorem holdWords_lutD : (holdWords s).lutD = s.lutD := rfl
@[simp] theorem holdWords_build : (holdWords s).build = s.build := rfl
@[simp] theorem holdWords_activeSel : (holdWords s).activeSel = s.activeSel := rfl
@[simp] theorem holdWords_rotation : (holdWords s).rotation = s.rotation := rfl
@[simp] theorem holdWords_lutValid : (holdWords s).lutValid = s.lutValid := rfl
@[simp] theorem holdWords_err : (holdWords s).err = s.err := rfl
@[simp] theorem holdWords_seq : (holdWords s).seq = s.seq := rfl
@[simp] theorem holdWords_job : (holdWords s).job = s.job := rfl
@[simp] theorem holdWords_frameCtr : (holdWords s).frameCtr = s.frameCtr := rfl
@[simp] theorem holdWords_rowCtr : (holdWords s).rowCtr = s.rowCtr := rfl
@[simp] theorem holdWords_srcSize : (holdWords s).srcSize = s.srcSize := rfl
@[simp] theorem holdWords_busy : (holdWords s).busy = !(offeredWords s).isEmpty := rfl
@[simp] theorem holdWords_asm : (holdWords s).asm = offeredWords s := rfl
@[simp] theorem holdWords_presented : (holdWords s).presented = s.presented := rfl
@[simp] theorem holdWords_cmdChan : (holdWords s).cmdChan = [] := rfl
@[simp] theorem holdWords_results : (holdWords s).results = s.results := rfl
@[simp] theorem holdWords_transport : (holdWords s).transport = s.transport := rfl
@[simp] theorem holdWords_resetAfter : (holdWords s).resetAfter = s.resetAfter := rfl
@[simp] theorem holdWords_trace : (holdWords s).trace = s.trace := rfl
@[simp] theorem holdWords_faultLog : (holdWords s).faultLog = s.faultLog := rfl
@[simp] theorem holdWords_draw : (holdWords s).draw = s.draw := rfl

/-! ## resetAfterWords -/

@[simp] theorem resetAfterWords_fb0 (k : Nat) : (resetAfterWords k s).fb0 = [] := rfl
@[simp] theorem resetAfterWords_fb1 (k : Nat) : (resetAfterWords k s).fb1 = [] := rfl
@[simp] theorem resetAfterWords_rowbuf (k : Nat) : (resetAfterWords k s).rowbuf = [] := rfl
@[simp] theorem resetAfterWords_lutE (k : Nat) : (resetAfterWords k s).lutE = [] := rfl
@[simp] theorem resetAfterWords_lutD (k : Nat) : (resetAfterWords k s).lutD = [] := rfl
@[simp] theorem resetAfterWords_build (k : Nat) : (resetAfterWords k s).build = s.build := rfl
@[simp] theorem resetAfterWords_activeSel (k : Nat) : (resetAfterWords k s).activeSel = false := rfl
@[simp] theorem resetAfterWords_rotation (k : Nat) : (resetAfterWords k s).rotation = 0 := rfl
@[simp] theorem resetAfterWords_lutValid (k : Nat) : (resetAfterWords k s).lutValid = false := rfl
@[simp] theorem resetAfterWords_err (k : Nat) : (resetAfterWords k s).err = 0 := rfl
@[simp] theorem resetAfterWords_seq (k : Nat) : (resetAfterWords k s).seq = .idle := rfl
@[simp] theorem resetAfterWords_job (k : Nat) : (resetAfterWords k s).job = .none := rfl
@[simp] theorem resetAfterWords_frameCtr (k : Nat) : (resetAfterWords k s).frameCtr = Config.freeFrameCtr (s.draw + 1) := rfl
@[simp] theorem resetAfterWords_rowCtr (k : Nat) : (resetAfterWords k s).rowCtr = Config.freeRowCtr (s.draw + 1) := rfl
@[simp] theorem resetAfterWords_srcSize (k : Nat) : (resetAfterWords k s).srcSize = Config.freeSrcSize (s.draw + 1) := rfl
@[simp] theorem resetAfterWords_busy (k : Nat) : (resetAfterWords k s).busy = false := rfl
@[simp] theorem resetAfterWords_asm (k : Nat) : (resetAfterWords k s).asm = [] := rfl
@[simp] theorem resetAfterWords_presented (k : Nat) : (resetAfterWords k s).presented = none := rfl
@[simp] theorem resetAfterWords_cmdChan (k : Nat) : (resetAfterWords k s).cmdChan = s.cmdChan.drop k := rfl
@[simp] theorem resetAfterWords_results (k : Nat) : (resetAfterWords k s).results = s.results := rfl
@[simp] theorem resetAfterWords_transport (k : Nat) : (resetAfterWords k s).transport = s.transport := rfl
@[simp] theorem resetAfterWords_resetAfter (k : Nat) : (resetAfterWords k s).resetAfter = none := rfl
@[simp] theorem resetAfterWords_trace (k : Nat) : (resetAfterWords k s).trace = s.trace := rfl
@[simp] theorem resetAfterWords_faultLog (k : Nat) : (resetAfterWords k s).faultLog = s.faultLog := rfl
@[simp] theorem resetAfterWords_draw (k : Nat) : (resetAfterWords k s).draw = s.draw + 1 := rfl

/-! ## resetEvent -/

@[simp] theorem resetEvent_fb0 : (resetEvent s).fb0 = [] := rfl
@[simp] theorem resetEvent_fb1 : (resetEvent s).fb1 = [] := rfl
@[simp] theorem resetEvent_rowbuf : (resetEvent s).rowbuf = [] := rfl
@[simp] theorem resetEvent_lutE : (resetEvent s).lutE = [] := rfl
@[simp] theorem resetEvent_lutD : (resetEvent s).lutD = [] := rfl
@[simp] theorem resetEvent_build : (resetEvent s).build = s.build := rfl
@[simp] theorem resetEvent_activeSel : (resetEvent s).activeSel = false := rfl
@[simp] theorem resetEvent_rotation : (resetEvent s).rotation = 0 := rfl
@[simp] theorem resetEvent_lutValid : (resetEvent s).lutValid = false := rfl
@[simp] theorem resetEvent_err : (resetEvent s).err = 0 := rfl
@[simp] theorem resetEvent_seq : (resetEvent s).seq = .idle := rfl
@[simp] theorem resetEvent_job : (resetEvent s).job = .none := rfl
@[simp] theorem resetEvent_frameCtr : (resetEvent s).frameCtr = Config.freeFrameCtr (s.draw + 1) := rfl
@[simp] theorem resetEvent_rowCtr : (resetEvent s).rowCtr = Config.freeRowCtr (s.draw + 1) := rfl
@[simp] theorem resetEvent_srcSize : (resetEvent s).srcSize = Config.freeSrcSize (s.draw + 1) := rfl
@[simp] theorem resetEvent_busy : (resetEvent s).busy = false := rfl
@[simp] theorem resetEvent_asm : (resetEvent s).asm = [] := rfl
@[simp] theorem resetEvent_presented : (resetEvent s).presented = none := rfl
@[simp] theorem resetEvent_cmdChan : (resetEvent s).cmdChan = s.cmdChan := rfl
@[simp] theorem resetEvent_results : (resetEvent s).results = s.results := rfl
@[simp] theorem resetEvent_transport : (resetEvent s).transport = s.transport := rfl
@[simp] theorem resetEvent_resetAfter : (resetEvent s).resetAfter = none := rfl
@[simp] theorem resetEvent_trace : (resetEvent s).trace = s.trace := rfl
@[simp] theorem resetEvent_faultLog : (resetEvent s).faultLog = s.faultLog := rfl
@[simp] theorem resetEvent_draw : (resetEvent s).draw = s.draw + 1 := rfl

/-! ## acknowledge -/

@[simp] theorem acknowledge_fb0 : (acknowledge s).fb0 = s.fb0 := by
  unfold acknowledge; split <;> rfl
@[simp] theorem acknowledge_fb1 : (acknowledge s).fb1 = s.fb1 := by
  unfold acknowledge; split <;> rfl
@[simp] theorem acknowledge_rowbuf : (acknowledge s).rowbuf = s.rowbuf := by
  unfold acknowledge; split <;> rfl
@[simp] theorem acknowledge_lutE : (acknowledge s).lutE = s.lutE := by
  unfold acknowledge; split <;> rfl
@[simp] theorem acknowledge_lutD : (acknowledge s).lutD = s.lutD := by
  unfold acknowledge; split <;> rfl
@[simp] theorem acknowledge_build : (acknowledge s).build = s.build := by
  unfold acknowledge; split <;> rfl
@[simp] theorem acknowledge_activeSel : (acknowledge s).activeSel = s.activeSel := by
  unfold acknowledge; split <;> rfl
@[simp] theorem acknowledge_rotation : (acknowledge s).rotation = s.rotation := by
  unfold acknowledge; split <;> rfl
@[simp] theorem acknowledge_lutValid : (acknowledge s).lutValid = s.lutValid := by
  unfold acknowledge; split <;> rfl
@[simp] theorem acknowledge_err : (acknowledge s).err = s.err := by
  unfold acknowledge; split <;> rfl
@[simp] theorem acknowledge_seq : (acknowledge s).seq = s.seq := by
  unfold acknowledge; split <;> rfl
@[simp] theorem acknowledge_job : (acknowledge s).job = s.job := by
  unfold acknowledge; split <;> rfl
@[simp] theorem acknowledge_frameCtr : (acknowledge s).frameCtr = s.frameCtr := by
  unfold acknowledge; split <;> rfl
@[simp] theorem acknowledge_rowCtr : (acknowledge s).rowCtr = s.rowCtr := by
  unfold acknowledge; split <;> rfl
@[simp] theorem acknowledge_srcSize : (acknowledge s).srcSize = s.srcSize := by
  unfold acknowledge; split <;> rfl
@[simp] theorem acknowledge_busy : (acknowledge s).busy = s.busy := by
  unfold acknowledge; split <;> rfl
@[simp] theorem acknowledge_asm : (acknowledge s).asm = s.asm := by
  unfold acknowledge; split <;> rfl
@[simp] theorem acknowledge_cmdChan : (acknowledge s).cmdChan = s.cmdChan := by
  unfold acknowledge; split <;> rfl
@[simp] theorem acknowledge_results : (acknowledge s).results = s.results := by
  unfold acknowledge; split <;> rfl
@[simp] theorem acknowledge_resetAfter : (acknowledge s).resetAfter = s.resetAfter := by
  unfold acknowledge; split <;> rfl
@[simp] theorem acknowledge_trace : (acknowledge s).trace = s.trace := by
  unfold acknowledge; split <;> rfl
@[simp] theorem acknowledge_faultLog : (acknowledge s).faultLog = s.faultLog := by
  unfold acknowledge; split <;> rfl
@[simp] theorem acknowledge_draw : (acknowledge s).draw = s.draw := by
  unfold acknowledge; split <;> rfl

/-! ## emit -/

@[simp] theorem emit_fb0 (e : Event) : (emit e s).fb0 = s.fb0 := by
  simp [emit]
@[simp] theorem emit_fb1 (e : Event) : (emit e s).fb1 = s.fb1 := by
  simp [emit]
@[simp] theorem emit_rowbuf (e : Event) : (emit e s).rowbuf = s.rowbuf := by
  simp [emit]
@[simp] theorem emit_lutE (e : Event) : (emit e s).lutE = s.lutE := by
  simp [emit]
@[simp] theorem emit_lutD (e : Event) : (emit e s).lutD = s.lutD := by
  simp [emit]
@[simp] theorem emit_build (e : Event) : (emit e s).build = s.build := by
  simp [emit]
@[simp] theorem emit_activeSel (e : Event) : (emit e s).activeSel = s.activeSel := by
  simp [emit]
@[simp] theorem emit_rotation (e : Event) : (emit e s).rotation = s.rotation := by
  simp [emit]
@[simp] theorem emit_lutValid (e : Event) : (emit e s).lutValid = s.lutValid := by
  simp [emit]
@[simp] theorem emit_err (e : Event) : (emit e s).err = s.err := by
  simp [emit]
@[simp] theorem emit_seq (e : Event) : (emit e s).seq = s.seq := by
  simp [emit]
@[simp] theorem emit_job (e : Event) : (emit e s).job = s.job := by
  simp [emit]
@[simp] theorem emit_frameCtr (e : Event) : (emit e s).frameCtr = s.frameCtr := by
  simp [emit]
@[simp] theorem emit_rowCtr (e : Event) : (emit e s).rowCtr = s.rowCtr := by
  simp [emit]
@[simp] theorem emit_srcSize (e : Event) : (emit e s).srcSize = s.srcSize := by
  simp [emit]
@[simp] theorem emit_busy (e : Event) : (emit e s).busy = s.busy := by
  simp [emit]
@[simp] theorem emit_asm (e : Event) : (emit e s).asm = s.asm := by
  simp [emit]
@[simp] theorem emit_cmdChan (e : Event) : (emit e s).cmdChan = s.cmdChan := by
  simp [emit]
@[simp] theorem emit_results (e : Event) : (emit e s).results = s.results := by
  simp [emit]
@[simp] theorem emit_resetAfter (e : Event) : (emit e s).resetAfter = s.resetAfter := by
  simp [emit]
@[simp] theorem emit_trace (e : Event) : (emit e s).trace = s.trace ++ [.event e] := by
  simp [emit]
@[simp] theorem emit_faultLog (e : Event) : (emit e s).faultLog = s.faultLog := by
  simp [emit]
@[simp] theorem emit_draw (e : Event) : (emit e s).draw = s.draw := by
  simp [emit]

/-! ## setSpace -/

@[simp] theorem setSpace_build (sp : Space) (m : Memory) : (setSpace sp m s).build = s.build := by
  cases sp <;> rfl
@[simp] theorem setSpace_activeSel (sp : Space) (m : Memory) : (setSpace sp m s).activeSel = s.activeSel := by
  cases sp <;> rfl
@[simp] theorem setSpace_rotation (sp : Space) (m : Memory) : (setSpace sp m s).rotation = s.rotation := by
  cases sp <;> rfl
@[simp] theorem setSpace_lutValid (sp : Space) (m : Memory) : (setSpace sp m s).lutValid = s.lutValid := by
  cases sp <;> rfl
@[simp] theorem setSpace_err (sp : Space) (m : Memory) : (setSpace sp m s).err = s.err := by
  cases sp <;> rfl
@[simp] theorem setSpace_seq (sp : Space) (m : Memory) : (setSpace sp m s).seq = s.seq := by
  cases sp <;> rfl
@[simp] theorem setSpace_job (sp : Space) (m : Memory) : (setSpace sp m s).job = s.job := by
  cases sp <;> rfl
@[simp] theorem setSpace_frameCtr (sp : Space) (m : Memory) : (setSpace sp m s).frameCtr = s.frameCtr := by
  cases sp <;> rfl
@[simp] theorem setSpace_rowCtr (sp : Space) (m : Memory) : (setSpace sp m s).rowCtr = s.rowCtr := by
  cases sp <;> rfl
@[simp] theorem setSpace_srcSize (sp : Space) (m : Memory) : (setSpace sp m s).srcSize = s.srcSize := by
  cases sp <;> rfl
@[simp] theorem setSpace_busy (sp : Space) (m : Memory) : (setSpace sp m s).busy = s.busy := by
  cases sp <;> rfl
@[simp] theorem setSpace_asm (sp : Space) (m : Memory) : (setSpace sp m s).asm = s.asm := by
  cases sp <;> rfl
@[simp] theorem setSpace_presented (sp : Space) (m : Memory) : (setSpace sp m s).presented = s.presented := by
  cases sp <;> rfl
@[simp] theorem setSpace_cmdChan (sp : Space) (m : Memory) : (setSpace sp m s).cmdChan = s.cmdChan := by
  cases sp <;> rfl
@[simp] theorem setSpace_results (sp : Space) (m : Memory) : (setSpace sp m s).results = s.results := by
  cases sp <;> rfl
@[simp] theorem setSpace_transport (sp : Space) (m : Memory) : (setSpace sp m s).transport = s.transport := by
  cases sp <;> rfl
@[simp] theorem setSpace_resetAfter (sp : Space) (m : Memory) : (setSpace sp m s).resetAfter = s.resetAfter := by
  cases sp <;> rfl
@[simp] theorem setSpace_trace (sp : Space) (m : Memory) : (setSpace sp m s).trace = s.trace := by
  cases sp <;> rfl
@[simp] theorem setSpace_faultLog (sp : Space) (m : Memory) : (setSpace sp m s).faultLog = s.faultLog := by
  cases sp <;> rfl
@[simp] theorem setSpace_draw (sp : Space) (m : Memory) : (setSpace sp m s).draw = s.draw := by
  cases sp <;> rfl

/-! ## writeByte -/

@[simp] theorem writeByte_build (sp : Space) (a : Nat) (v : Byte) : (writeByte sp a v s).build = s.build := by
  simp [writeByte]
@[simp] theorem writeByte_activeSel (sp : Space) (a : Nat) (v : Byte) : (writeByte sp a v s).activeSel = s.activeSel := by
  simp [writeByte]
@[simp] theorem writeByte_rotation (sp : Space) (a : Nat) (v : Byte) : (writeByte sp a v s).rotation = s.rotation := by
  simp [writeByte]
@[simp] theorem writeByte_lutValid (sp : Space) (a : Nat) (v : Byte) : (writeByte sp a v s).lutValid = s.lutValid := by
  simp [writeByte]
@[simp] theorem writeByte_err (sp : Space) (a : Nat) (v : Byte) : (writeByte sp a v s).err = s.err := by
  simp [writeByte]
@[simp] theorem writeByte_seq (sp : Space) (a : Nat) (v : Byte) : (writeByte sp a v s).seq = s.seq := by
  simp [writeByte]
@[simp] theorem writeByte_job (sp : Space) (a : Nat) (v : Byte) : (writeByte sp a v s).job = s.job := by
  simp [writeByte]
@[simp] theorem writeByte_frameCtr (sp : Space) (a : Nat) (v : Byte) : (writeByte sp a v s).frameCtr = s.frameCtr := by
  simp [writeByte]
@[simp] theorem writeByte_rowCtr (sp : Space) (a : Nat) (v : Byte) : (writeByte sp a v s).rowCtr = s.rowCtr := by
  simp [writeByte]
@[simp] theorem writeByte_srcSize (sp : Space) (a : Nat) (v : Byte) : (writeByte sp a v s).srcSize = s.srcSize := by
  simp [writeByte]
@[simp] theorem writeByte_busy (sp : Space) (a : Nat) (v : Byte) : (writeByte sp a v s).busy = s.busy := by
  simp [writeByte]
@[simp] theorem writeByte_asm (sp : Space) (a : Nat) (v : Byte) : (writeByte sp a v s).asm = s.asm := by
  simp [writeByte]
@[simp] theorem writeByte_presented (sp : Space) (a : Nat) (v : Byte) : (writeByte sp a v s).presented = s.presented := by
  simp [writeByte]
@[simp] theorem writeByte_cmdChan (sp : Space) (a : Nat) (v : Byte) : (writeByte sp a v s).cmdChan = s.cmdChan := by
  simp [writeByte]
@[simp] theorem writeByte_results (sp : Space) (a : Nat) (v : Byte) : (writeByte sp a v s).results = s.results := by
  simp [writeByte]
@[simp] theorem writeByte_transport (sp : Space) (a : Nat) (v : Byte) : (writeByte sp a v s).transport = s.transport := by
  simp [writeByte]
@[simp] theorem writeByte_resetAfter (sp : Space) (a : Nat) (v : Byte) : (writeByte sp a v s).resetAfter = s.resetAfter := by
  simp [writeByte]
@[simp] theorem writeByte_trace (sp : Space) (a : Nat) (v : Byte) : (writeByte sp a v s).trace = s.trace := by
  simp [writeByte]
@[simp] theorem writeByte_faultLog (sp : Space) (a : Nat) (v : Byte) : (writeByte sp a v s).faultLog = s.faultLog := by
  simp [writeByte]
@[simp] theorem writeByte_draw (sp : Space) (a : Nat) (v : Byte) : (writeByte sp a v s).draw = s.draw := by
  simp [writeByte]

/-! ## writeAll -/

@[simp] theorem writeAll_build (sp : Space) (g : Nat → Byte) : (writeAll sp g s).build = s.build := by
  simp [writeAll]
@[simp] theorem writeAll_activeSel (sp : Space) (g : Nat → Byte) : (writeAll sp g s).activeSel = s.activeSel := by
  simp [writeAll]
@[simp] theorem writeAll_rotation (sp : Space) (g : Nat → Byte) : (writeAll sp g s).rotation = s.rotation := by
  simp [writeAll]
@[simp] theorem writeAll_lutValid (sp : Space) (g : Nat → Byte) : (writeAll sp g s).lutValid = s.lutValid := by
  simp [writeAll]
@[simp] theorem writeAll_err (sp : Space) (g : Nat → Byte) : (writeAll sp g s).err = s.err := by
  simp [writeAll]
@[simp] theorem writeAll_seq (sp : Space) (g : Nat → Byte) : (writeAll sp g s).seq = s.seq := by
  simp [writeAll]
@[simp] theorem writeAll_job (sp : Space) (g : Nat → Byte) : (writeAll sp g s).job = s.job := by
  simp [writeAll]
@[simp] theorem writeAll_frameCtr (sp : Space) (g : Nat → Byte) : (writeAll sp g s).frameCtr = s.frameCtr := by
  simp [writeAll]
@[simp] theorem writeAll_rowCtr (sp : Space) (g : Nat → Byte) : (writeAll sp g s).rowCtr = s.rowCtr := by
  simp [writeAll]
@[simp] theorem writeAll_srcSize (sp : Space) (g : Nat → Byte) : (writeAll sp g s).srcSize = s.srcSize := by
  simp [writeAll]
@[simp] theorem writeAll_busy (sp : Space) (g : Nat → Byte) : (writeAll sp g s).busy = s.busy := by
  simp [writeAll]
@[simp] theorem writeAll_asm (sp : Space) (g : Nat → Byte) : (writeAll sp g s).asm = s.asm := by
  simp [writeAll]
@[simp] theorem writeAll_presented (sp : Space) (g : Nat → Byte) : (writeAll sp g s).presented = s.presented := by
  simp [writeAll]
@[simp] theorem writeAll_cmdChan (sp : Space) (g : Nat → Byte) : (writeAll sp g s).cmdChan = s.cmdChan := by
  simp [writeAll]
@[simp] theorem writeAll_results (sp : Space) (g : Nat → Byte) : (writeAll sp g s).results = s.results := by
  simp [writeAll]
@[simp] theorem writeAll_transport (sp : Space) (g : Nat → Byte) : (writeAll sp g s).transport = s.transport := by
  simp [writeAll]
@[simp] theorem writeAll_resetAfter (sp : Space) (g : Nat → Byte) : (writeAll sp g s).resetAfter = s.resetAfter := by
  simp [writeAll]
@[simp] theorem writeAll_trace (sp : Space) (g : Nat → Byte) : (writeAll sp g s).trace = s.trace := by
  simp [writeAll]
@[simp] theorem writeAll_faultLog (sp : Space) (g : Nat → Byte) : (writeAll sp g s).faultLog = s.faultLog := by
  simp [writeAll]
@[simp] theorem writeAll_draw (sp : Space) (g : Nat → Byte) : (writeAll sp g s).draw = s.draw := by
  simp [writeAll]

/-! ## buildRow -/

@[simp] theorem buildRow_build (p : Phase) (f r : Nat) : (buildRow p f r s).build = s.build := by
  simp [buildRow]
@[simp] theorem buildRow_activeSel (p : Phase) (f r : Nat) : (buildRow p f r s).activeSel = s.activeSel := by
  simp [buildRow]
@[simp] theorem buildRow_rotation (p : Phase) (f r : Nat) : (buildRow p f r s).rotation = s.rotation := by
  simp [buildRow]
@[simp] theorem buildRow_lutValid (p : Phase) (f r : Nat) : (buildRow p f r s).lutValid = s.lutValid := by
  simp [buildRow]
@[simp] theorem buildRow_err (p : Phase) (f r : Nat) : (buildRow p f r s).err = s.err := by
  simp [buildRow]
@[simp] theorem buildRow_seq (p : Phase) (f r : Nat) : (buildRow p f r s).seq = s.seq := by
  simp [buildRow]
@[simp] theorem buildRow_job (p : Phase) (f r : Nat) : (buildRow p f r s).job = s.job := by
  simp [buildRow]
@[simp] theorem buildRow_frameCtr (p : Phase) (f r : Nat) : (buildRow p f r s).frameCtr = s.frameCtr := by
  simp [buildRow]
@[simp] theorem buildRow_rowCtr (p : Phase) (f r : Nat) : (buildRow p f r s).rowCtr = s.rowCtr := by
  simp [buildRow]
@[simp] theorem buildRow_srcSize (p : Phase) (f r : Nat) : (buildRow p f r s).srcSize = s.srcSize := by
  simp [buildRow]
@[simp] theorem buildRow_busy (p : Phase) (f r : Nat) : (buildRow p f r s).busy = s.busy := by
  simp [buildRow]
@[simp] theorem buildRow_asm (p : Phase) (f r : Nat) : (buildRow p f r s).asm = s.asm := by
  simp [buildRow]
@[simp] theorem buildRow_presented (p : Phase) (f r : Nat) : (buildRow p f r s).presented = s.presented := by
  simp [buildRow]
@[simp] theorem buildRow_cmdChan (p : Phase) (f r : Nat) : (buildRow p f r s).cmdChan = s.cmdChan := by
  simp [buildRow]
@[simp] theorem buildRow_results (p : Phase) (f r : Nat) : (buildRow p f r s).results = s.results := by
  simp [buildRow]
@[simp] theorem buildRow_transport (p : Phase) (f r : Nat) : (buildRow p f r s).transport = s.transport := by
  simp [buildRow]
@[simp] theorem buildRow_resetAfter (p : Phase) (f r : Nat) : (buildRow p f r s).resetAfter = s.resetAfter := by
  simp [buildRow]
@[simp] theorem buildRow_trace (p : Phase) (f r : Nat) : (buildRow p f r s).trace = s.trace := by
  simp [buildRow]
@[simp] theorem buildRow_faultLog (p : Phase) (f r : Nat) : (buildRow p f r s).faultLog = s.faultLog := by
  simp [buildRow]
@[simp] theorem buildRow_draw (p : Phase) (f r : Nat) : (buildRow p f r s).draw = s.draw := by
  simp [buildRow]

/-! ## expandTable -/

@[simp] theorem expandTable_build (p : Phase) : (expandTable p s).build = s.build := by
  simp [expandTable]
@[simp] theorem expandTable_activeSel (p : Phase) : (expandTable p s).activeSel = s.activeSel := by
  simp [expandTable]
@[simp] theorem expandTable_rotation (p : Phase) : (expandTable p s).rotation = s.rotation := by
  simp [expandTable]
@[simp] theorem expandTable_lutValid (p : Phase) : (expandTable p s).lutValid = s.lutValid := by
  simp [expandTable]
@[simp] theorem expandTable_err (p : Phase) : (expandTable p s).err = s.err := by
  simp [expandTable]
@[simp] theorem expandTable_seq (p : Phase) : (expandTable p s).seq = s.seq := by
  simp [expandTable]
@[simp] theorem expandTable_job (p : Phase) : (expandTable p s).job = s.job := by
  simp [expandTable]
@[simp] theorem expandTable_frameCtr (p : Phase) : (expandTable p s).frameCtr = s.frameCtr := by
  simp [expandTable]
@[simp] theorem expandTable_rowCtr (p : Phase) : (expandTable p s).rowCtr = s.rowCtr := by
  simp [expandTable]
@[simp] theorem expandTable_srcSize (p : Phase) : (expandTable p s).srcSize = s.srcSize := by
  simp [expandTable]
@[simp] theorem expandTable_busy (p : Phase) : (expandTable p s).busy = s.busy := by
  simp [expandTable]
@[simp] theorem expandTable_asm (p : Phase) : (expandTable p s).asm = s.asm := by
  simp [expandTable]
@[simp] theorem expandTable_presented (p : Phase) : (expandTable p s).presented = s.presented := by
  simp [expandTable]
@[simp] theorem expandTable_cmdChan (p : Phase) : (expandTable p s).cmdChan = s.cmdChan := by
  simp [expandTable]
@[simp] theorem expandTable_results (p : Phase) : (expandTable p s).results = s.results := by
  simp [expandTable]
@[simp] theorem expandTable_transport (p : Phase) : (expandTable p s).transport = s.transport := by
  simp [expandTable]
@[simp] theorem expandTable_resetAfter (p : Phase) : (expandTable p s).resetAfter = s.resetAfter := by
  simp [expandTable]
@[simp] theorem expandTable_trace (p : Phase) : (expandTable p s).trace = s.trace := by
  simp [expandTable]
@[simp] theorem expandTable_faultLog (p : Phase) : (expandTable p s).faultLog = s.faultLog := by
  simp [expandTable]
@[simp] theorem expandTable_draw (p : Phase) : (expandTable p s).draw = s.draw := by
  simp [expandTable]

/-! ## endCommand -/

@[simp] theorem endCommand_fb0 : (endCommand s).fb0 = s.fb0 := by
  unfold endCommand; split <;> rfl
@[simp] theorem endCommand_fb1 : (endCommand s).fb1 = s.fb1 := by
  unfold endCommand; split <;> rfl
@[simp] theorem endCommand_rowbuf : (endCommand s).rowbuf = s.rowbuf := by
  unfold endCommand; split <;> rfl
@[simp] theorem endCommand_lutE : (endCommand s).lutE = s.lutE := by
  unfold endCommand; split <;> rfl
@[simp] theorem endCommand_lutD : (endCommand s).lutD = s.lutD := by
  unfold endCommand; split <;> rfl
@[simp] theorem endCommand_build : (endCommand s).build = s.build := by
  unfold endCommand; split <;> rfl
@[simp] theorem endCommand_activeSel : (endCommand s).activeSel = s.activeSel := by
  unfold endCommand; split <;> rfl
@[simp] theorem endCommand_rotation : (endCommand s).rotation = s.rotation := by
  unfold endCommand; split <;> rfl
@[simp] theorem endCommand_lutValid : (endCommand s).lutValid = s.lutValid := by
  unfold endCommand; split <;> rfl
@[simp] theorem endCommand_err : (endCommand s).err = s.err := by
  unfold endCommand; split <;> rfl
@[simp] theorem endCommand_seq : (endCommand s).seq = s.seq := by
  unfold endCommand; split <;> rfl
@[simp] theorem endCommand_job : (endCommand s).job = s.job := by
  unfold endCommand; split <;> rfl
@[simp] theorem endCommand_frameCtr : (endCommand s).frameCtr = s.frameCtr := by
  unfold endCommand; split <;> rfl
@[simp] theorem endCommand_rowCtr : (endCommand s).rowCtr = s.rowCtr := by
  unfold endCommand; split <;> rfl
@[simp] theorem endCommand_srcSize : (endCommand s).srcSize = s.srcSize := by
  unfold endCommand; split <;> rfl
@[simp] theorem endCommand_asm : (endCommand s).asm = s.asm := by
  unfold endCommand; split <;> rfl
@[simp] theorem endCommand_presented : (endCommand s).presented = s.presented := by
  unfold endCommand; split <;> rfl
@[simp] theorem endCommand_cmdChan : (endCommand s).cmdChan = s.cmdChan := by
  unfold endCommand; split <;> rfl
@[simp] theorem endCommand_results : (endCommand s).results = s.results := by
  unfold endCommand; split <;> rfl
@[simp] theorem endCommand_transport : (endCommand s).transport = s.transport := by
  unfold endCommand; split <;> rfl
@[simp] theorem endCommand_trace : (endCommand s).trace = s.trace := by
  unfold endCommand; split <;> rfl
@[simp] theorem endCommand_faultLog : (endCommand s).faultLog = s.faultLog := by
  unfold endCommand; split <;> rfl
@[simp] theorem endCommand_draw : (endCommand s).draw = s.draw := by
  unfold endCommand; split <;> rfl

end Sys2Proof.Machine
end

