-- ==== Sys2Proof/Laws/Memory.lean ====
section
/-! SUPPORT. The laws of the byte spaces: a read after a write, and that every memory operation keeps the canonical form
and stays inside its space. -/

namespace Sys2Proof.Machine

/-! ## One memory -/

theorem Memory.find?_insert (m : Memory) (a b : Nat) (v : Byte) :
    (Memory.insert m a v).find? b = if a = b then some v else m.find? b := by
  induction m with
  | nil => simp [Memory.insert, Memory.find?]
  | cons c m ih =>
    simp only [Memory.insert]
    split
    · simp [Memory.find?]
    · split
      · next h1 h2 => subst h2; simp only [Memory.find?]; split <;> simp_all
      · simp only [Memory.find?, ih]; split <;> split <;> simp_all

theorem Memory.mem_insert (m : Memory) (a : Nat) (v : Byte) :
    ∀ c ∈ Memory.insert m a v, c = (a, v) ∨ c ∈ m := by
  induction m with
  | nil => simp [Memory.insert]
  | cons d m ih =>
    intro c hc
    simp only [Memory.insert] at hc
    split at hc
    · simpa using hc
    · split at hc
      · rcases List.mem_cons.1 hc with h | h
        · exact .inl h
        · exact .inr (List.mem_cons_of_mem _ h)
      · rcases List.mem_cons.1 hc with h | h
        · exact .inr (h ▸ List.mem_cons_self)
        · exact (ih c h).imp_right (List.mem_cons_of_mem _)

/-- A write keeps the canonical form. -/
theorem Memory.wf_insert {m : Memory} (h : m.wf) (a : Nat) (v : Byte) : (Memory.insert m a v).wf := by
  induction m with
  | nil => simp [Memory.insert, Memory.wf]
  | cons d m ih =>
    have hd : ∀ c ∈ m, d.1 < c.1 := by
      intro c hc
      exact (List.pairwise_cons.1 h).1 _ (List.mem_map_of_mem hc)
    have hm : Memory.wf m := (List.pairwise_cons.1 h).2
    simp only [Memory.insert]
    split
    · next hlt =>
      refine List.pairwise_cons.2 ⟨?_, h⟩
      intro x hx
      obtain ⟨c, hc, rfl⟩ := List.mem_map.1 hx
      rcases List.mem_cons.1 hc with rfl | hc
      · exact hlt
      · exact hlt.trans (hd c hc)
    · split
      · next heq =>
        refine List.pairwise_cons.2 ⟨?_, hm⟩
        intro x hx
        obtain ⟨c, hc, rfl⟩ := List.mem_map.1 hx
        exact heq ▸ hd c hc
      · next hlt hne =>
        refine List.pairwise_cons.2 ⟨?_, ih hm⟩
        intro x hx
        obtain ⟨c, hc, rfl⟩ := List.mem_map.1 hx
        rcases Memory.mem_insert m a v c hc with rfl | hc
        · simp only; omega
        · exact hd c hc

/-- A write at an index of the space stays inside the space. -/
theorem Memory.within_insert {n : Nat} {m : Memory} (h : m.within n) {a : Nat} (ha : a < n) (v : Byte) :
    (Memory.insert m a v).within n := by
  intro c hc
  rcases Memory.mem_insert m a v c hc with rfl | hc
  · exact ha
  · exact h c hc

theorem Memory.wf_table (n : Nat) (g : Nat → Byte) : (Memory.table n g).wf := by
  simpa [Memory.wf, Memory.table, Function.comp_def] using List.pairwise_lt_range

theorem Memory.within_table (n : Nat) (g : Nat → Byte) : (Memory.table n g).within n := by
  intro c hc
  simp only [Memory.table, List.mem_map, List.mem_range] at hc
  obtain ⟨a, ha, rfl⟩ := hc
  exact ha

theorem Memory.find?_map (l : List Nat) (g : Nat → Byte) (a : Nat) :
    Memory.find? (l.map fun k => (k, g k)) a = if a ∈ l then some (g a) else none := by
  induction l with
  | nil => simp [Memory.find?]
  | cons k l ih =>
    simp only [List.map_cons, Memory.find?, ih, List.mem_cons]
    by_cases h : k = a
    · simp [h]
    · simp [h, Ne.symm h]

theorem Memory.find?_table (n : Nat) (g : Nat → Byte) (a : Nat) :
    (Memory.table n g).find? a = if a < n then some (g a) else none := by
  simp [Memory.table, Memory.find?_map]

/-! ## The spaces of a state -/

@[simp] theorem spaceOf_setSpace (sp sp' : Space) (m : Memory) (s : State) :
    spaceOf sp' (setSpace sp m s) = if sp = sp' then m else spaceOf sp' s := by
  cases sp <;> cases sp' <;> rfl

/-- A read after a write: the byte written at its index, every other byte of every space as before. -/
theorem readByte_writeByte (sp sp' : Space) (a a' : Nat) (v : Byte) (s : State) :
    readByte sp' a' (writeByte sp a v s) = if sp = sp' ∧ a = a' then v else readByte sp' a' s := by
  unfold readByte writeByte
  simp only [spaceOf_setSpace, setSpace_draw]
  by_cases h : sp = sp'
  · subst h
    by_cases ha : a = a' <;> simp [Memory.find?_insert, ha]
  · simp [h]

/-- A read after a whole space has been written: no byte of another space changes; of the bytes beyond the space's size none
is listed. -/
theorem readByte_writeAll (sp sp' : Space) (a : Nat) (g : Nat → Byte) (s : State) :
    readByte sp' a (writeAll sp g s) =
      if sp = sp' then (if a < spaceSize s.build sp then g a else Config.freeByte s.draw sp' a)
      else readByte sp' a s := by
  unfold readByte writeAll
  simp only [spaceOf_setSpace, setSpace_draw]
  by_cases h : sp = sp'
  · subst h
    by_cases ha : a < spaceSize s.build sp <;> simp [Memory.find?_table, ha]
  · simp [h]

theorem spaceOk_writeByte {sp sp' : Space} {a : Nat} {s : State} (h : spaceOk sp' s)
    (ha : a < spaceSize s.build sp) (v : Byte) : spaceOk sp' (writeByte sp a v s) := by
  unfold spaceOk writeByte
  rw [spaceOf_setSpace, setSpace_build]
  by_cases hs : sp = sp'
  · subst hs
    rw [if_pos rfl]
    exact ⟨Memory.wf_insert h.1 a v, Memory.within_insert h.2 ha v⟩
  · rw [if_neg hs]; exact h

theorem spaceOk_writeAll {sp sp' : Space} {s : State} (h : spaceOk sp' s) (g : Nat → Byte) :
    spaceOk sp' (writeAll sp g s) := by
  unfold spaceOk writeAll
  rw [spaceOf_setSpace, setSpace_build]
  by_cases hs : sp = sp'
  · subst hs
    rw [if_pos rfl]
    exact ⟨Memory.wf_table _ g, Memory.within_table _ g⟩
  · rw [if_neg hs]; exact h

/-- Two states with the same memories, build and draw read the same bytes. -/
theorem readByte_congr {sp : Space} {a : Nat} {s t : State} (hm : spaceOf sp t = spaceOf sp s) (hd : t.draw = s.draw) :
    readByte sp a t = readByte sp a s := by
  simp [readByte, hm, hd]

end Sys2Proof.Machine
end

