-- ==== Sys2Proof/Laws/Operands.lean ====
section
/-! SUPPORT. The laws of the operand forms: fields of a byte, the rotation addressing unit, well-formed builds. -/

namespace Sys2Proof.Machine

/-! ## Fields of a byte (R75) -/

/-- The field indexes, one by one. -/
theorem field_cases {p : Nat} (h : p < 4) : p = 0 ∨ p = 1 ∨ p = 2 ∨ p = 3 := by omega

/-- Writing a field and reading one: the written field holds the code, the other three keep theirs (R75, R76). -/
theorem getField_setField (v : Byte) {p q : Nat} (hp : p < 4) (hq : q < 4) (c : Code) :
    getField (setField v p c) q = if p = q then c else getField v q := by
  obtain rfl | rfl | rfl | rfl := field_cases hp <;> obtain rfl | rfl | rfl | rfl := field_cases hq <;>
    (simp only [getField, setField]; ext i hi; interval_cases i <;> simp)

/-- Bit `i` of four concatenated codes. -/
theorem getLsbD_append (a b c d : Code) {i : Nat} (hi : i < 8) :
    (a ++ b ++ c ++ d : Byte).getLsbD i =
      if i < 2 then d.getLsbD i else if i < 4 then c.getLsbD (i - 2) else if i < 6 then b.getLsbD (i - 4)
      else a.getLsbD (i - 6) := by
  refine (BitVec.getLsbD_append (x := a ++ b ++ c) (y := d)).trans ?_
  rw [BitVec.getLsbD_append, BitVec.getLsbD_append]
  interval_cases i <;> simp

/-- Field `p` of four concatenated codes. -/
theorem getField_append (a b c d : Code) {p : Nat} (hp : p < 4) :
    getField (a ++ b ++ c ++ d : Byte) p = if p = 0 then a else if p = 1 then b else if p = 2 then c else d := by
  apply BitVec.eq_of_getLsbD_eq
  intro i hi
  rw [getField, BitVec.getLsbD_extractLsb', getLsbD_append _ _ _ _ (by omega)]
  obtain rfl | rfl | rfl | rfl := field_cases hp <;> interval_cases i <;> simp

theorem getField_rep (c : Code) {p : Nat} (hp : p < 4) : getField (rep c) p = c := by
  rw [rep, getField_append _ _ _ _ hp]; split <;> (try split) <;> (try split) <;> rfl

/-- A byte is its four fields (R71). -/
theorem byte_eq_fields (v : Byte) : v = getField v 0 ++ getField v 1 ++ getField v 2 ++ getField v 3 := by
  apply BitVec.eq_of_getLsbD_eq
  intro i hi
  rw [getLsbD_append _ _ _ _ hi]
  simp only [getField, BitVec.getLsbD_extractLsb']
  interval_cases i <;> simp

/-- Bytes with equal fields are equal. -/
theorem byte_ext {v w : Byte} (h : ∀ p < 4, getField v p = getField w p) : v = w := by
  rw [byte_eq_fields v, byte_eq_fields w, h 0 (by omega), h 1 (by omega), h 2 (by omega), h 3 (by omega)]

/-- Field `p` of the expansion is the seed's code of field `p` (R201). -/
theorem getField_expand (b : Build) (ph : Phase) (v : Byte) (f : Nat) {p : Nat} (hp : p < 4) :
    getField (expand b ph v f) p = seedAt b ph f (getField v p) := by
  rw [expand, getField_append _ _ _ _ hp]
  obtain rfl | rfl | rfl | rfl := field_cases hp <;> simp

/-! ## Well-formed builds -/

theorem buildOk_sizes {b : Build} (h : buildOk b = true) :
    b.w % 4 = 0 ∧ 4 ≤ b.w ∧ b.w ≤ 32764 ∧ 1 ≤ b.h ∧ b.h ≤ 32767 := by
  simp only [buildOk, sizesOk, Bool.and_eq_true, decide_eq_true_eq] at h
  tauto

theorem buildOk_frames {b : Build} (h : buildOk b = true) :
    1 ≤ b.e ∧ b.e ≤ 65535 ∧ 2 ≤ b.d ∧ b.d ≤ 65535 ∧ b.eraseSeed.length = b.e ∧ b.drawSeed.length = b.d := by
  simp only [buildOk, framesOk, Bool.and_eq_true, decide_eq_true_eq] at h
  tauto

theorem buildOk_thresholds {b : Build} (h : buildOk b = true) :
    0 < b.t1 ∧ b.t1 < b.t2 ∧ b.t2 < b.t3 ∧ b.t3 ≤ 125 := by
  simp only [buildOk, thresholdsOk, Bool.and_eq_true, decide_eq_true_eq] at h
  tauto

theorem buildOk_bands {b : Build} (h : buildOk b = true) :
    band b (metric b.sBlack) = 0 ∧ band b (metric b.sDarkGrey) = 1 ∧ band b (metric b.sLightGrey) = 2 ∧
      band b (metric b.sWhite) = 3 := by
  simp only [buildOk, sentinelsOk, Bool.and_eq_true, decide_eq_true_eq] at h
  tauto

theorem buildOk_distinct {b : Build} (h : buildOk b = true) :
    [b.sBlack, b.sDarkGrey, b.sLightGrey, b.sWhite].Nodup := by
  simp only [buildOk, sentinelsOk, Bool.and_eq_true, decide_eq_true_eq] at h
  tauto

theorem four_bytesPerRow {b : Build} (h : buildOk b = true) : 4 * bytesPerRow b = b.w := by
  have := (buildOk_sizes h).1
  unfold bytesPerRow; omega

/-- `BUF_SIZE = H * BPR` (R17). -/
theorem bufSize_eq {b : Build} (h : buildOk b = true) : bufSize b = b.h * bytesPerRow b := by
  have h4 := four_bytesPerRow h
  have : b.w * b.h * 2 = 8 * (b.h * bytesPerRow b) := by rw [← h4]; ring
  unfold bufSize; omega

/-! ## The rotation addressing unit (R146 to R150) -/

theorem rot_cases (r : BitVec 2) : r = 0 ∨ r = 1 ∨ r = 2 ∨ r = 3 := by
  revert r; decide

theorem inVis_iff (b : Build) (r : BitVec 2) (x y : Int) :
    inVis b r x y = true ↔ 0 ≤ x ∧ x < visW b r ∧ 0 ≤ y ∧ y < visH b r := by
  simp [inVis, and_assoc]

/-- A visible pixel's native column and row, as integers (R148). -/
theorem native_eq {b : Build} {r : BitVec 2} {x y : Int} (h : inVis b r x y = true) :
    (nativeX b r x y : Int) = (rotate b r x y).1 ∧ (nativeY b r x y : Int) = (rotate b r x y).2 := by
  rw [inVis_iff] at h
  obtain rfl | rfl | rfl | rfl := rot_cases r <;>
    simp [nativeX, nativeY, rotate, visW, visH] at h ⊢ <;> omega

/-- A visible pixel lies on the native grid (R149). -/
theorem native_lt {b : Build} {r : BitVec 2} {x y : Int} (h : inVis b r x y = true) :
    nativeX b r x y < b.w ∧ nativeY b r x y < b.h := by
  have e := native_eq h
  rw [inVis_iff] at h
  generalize nativeX b r x y = xn at *
  generalize nativeY b r x y = yn at *
  obtain rfl | rfl | rfl | rfl := rot_cases r <;> simp [rotate, visW, visH] at h e <;> omega

/-- Distinct visible pixels have distinct native pixels (R149). -/
theorem native_inj {b : Build} {r : BitVec 2} {x y x' y' : Int} (h : inVis b r x y = true)
    (h' : inVis b r x' y' = true) (hx : nativeX b r x y = nativeX b r x' y') (hy : nativeY b r x y = nativeY b r x' y') :
    x = x' ∧ y = y' := by
  have e := native_eq h
  have e' := native_eq h'
  rw [hx, hy] at e
  obtain rfl | rfl | rfl | rfl := rot_cases r <;> simp [rotate] at e e' <;> omega

/-- Every native pixel is a visible pixel's (R149). -/
theorem native_surj {b : Build} (r : BitVec 2) {xn yn : Nat} (hx : xn < b.w) (hy : yn < b.h) :
    ∃ x y, inVis b r x y = true ∧ nativeX b r x y = xn ∧ nativeY b r x y = yn := by
  obtain rfl | rfl | rfl | rfl := rot_cases r
  · exact ⟨xn, yn, by rw [inVis_iff]; simp [visW, visH]; omega, by simp [nativeX, rotate], by simp [nativeY, rotate]⟩
  · exact ⟨yn, b.w - 1 - xn, by rw [inVis_iff]; simp [visW, visH]; omega, by simp [nativeX, rotate],
      by simp [nativeY, rotate]⟩
  · exact ⟨b.w - 1 - xn, b.h - 1 - yn, by rw [inVis_iff]; simp [visW, visH]; omega, by simp [nativeX, rotate],
      by simp [nativeY, rotate]⟩
  · exact ⟨b.h - 1 - yn, xn, by rw [inVis_iff]; simp [visW, visH]; omega, by simp [nativeX, rotate],
      by simp [nativeY, rotate]⟩

/-- A pixel's byte lies in the buffer (R22, R74). -/
theorem pixByte_lt {b : Build} (hb : buildOk b = true) {xn yn : Nat} (hx : xn < b.w) (hy : yn < b.h) :
    pixByte b xn yn < bufSize b := by
  have h4 := four_bytesPerRow hb
  rw [bufSize_eq hb, pixByte]
  have : (yn + 1) * bytesPerRow b ≤ b.h * bytesPerRow b := Nat.mul_le_mul_right _ hy
  have : xn / 4 < bytesPerRow b := by omega
  nlinarith

/-- A visible pixel's address lies in the buffer. -/
theorem addrByte_lt {b : Build} (hb : buildOk b = true) {r : BitVec 2} {x y : Int} (h : inVis b r x y = true) :
    addrByte b r x y < bufSize b := by
  have := native_lt h
  exact pixByte_lt hb this.1 this.2

theorem addrField_lt (b : Build) (r : BitVec 2) (x y : Int) : addrField b r x y < 4 := by
  unfold addrField pixField; omega

/-- A native pixel is known from its byte and its field (R74). -/
theorem pix_inj {b : Build} (hb : buildOk b = true) {xn yn xn' yn' : Nat} (hx : xn < b.w) (hx' : xn' < b.w)
    (hbyte : pixByte b xn yn = pixByte b xn' yn') (hfield : pixField xn = pixField xn') : xn = xn' ∧ yn = yn' := by
  have h4 := four_bytesPerRow hb
  have hp : 0 < bytesPerRow b := by have := (buildOk_sizes hb).2.1; omega
  have l : xn / 4 < bytesPerRow b := by omega
  have l' : xn' / 4 < bytesPerRow b := by omega
  simp only [pixByte] at hbyte
  have hy : yn = yn' := by
    have := congrArg (· / bytesPerRow b) hbyte
    simpa [Nat.mul_comm _ (bytesPerRow b), Nat.mul_add_div hp, Nat.div_eq_of_lt l, Nat.div_eq_of_lt l'] using this
  subst hy
  simp only [pixField] at hfield
  exact ⟨by omega, rfl⟩

/-- A visible pixel is known from its address (R149, R150). -/
theorem addr_inj {b : Build} (hb : buildOk b = true) {r : BitVec 2} {x y x' y' : Int} (h : inVis b r x y = true)
    (h' : inVis b r x' y' = true) (hbyte : addrByte b r x y = addrByte b r x' y')
    (hfield : addrField b r x y = addrField b r x' y') : x = x' ∧ y = y' := by
  have := pix_inj hb (native_lt h).1 (native_lt h').1 hbyte hfield
  exact native_inj h h' this.1 this.2

end Sys2Proof.Machine
end

