-- ==== Sys2Proof/Laws/PerInstr.lean ====
section
/-! SUPPORT. One family of statements per instruction: the head of an encoded command selects its own row of the opcode map and
sets no reserved bit (R103 to R110, R114). -/

namespace Sys2Proof.Laws.Head

/-- The command's first word names its row, lies in the row's pattern, and carries the row's argument words. -/
def Statement (i : Instr) : Prop :=
  ∃ cw args, encode i = cw :: args ∧ opcodeOf (opField cw) = some i.opcode ∧ cleanWord i.opcode cw = true ∧
    (opRow i.opcode).narg ≤ args.length

/-- The statement of an instruction from its row and its words. -/
theorem of_words {i : Instr} (o : Opcode) (cw : Word) (args : List Word) (he : encode i = cw :: args) (ho : i.opcode = o)
    (hop : opcodeOf (opField cw) = some o) (hc : cleanWord o cw = true) (hn : (opRow o).narg ≤ args.length) :
    Statement i :=
  ⟨cw, args, he, by rw [ho]; exact hop, by rw [ho]; exact hc, by rw [ho]; exact hn⟩

/-- A word `op, 0, color` of a row with the mask 0xFFFF0000 names the row and is clean (R105 to R107). -/
theorem color_word (o : Opcode) (h : o = .setPixel ∨ o = .fill ∨ o = .drawBitmap) (color : Color) :
    opcodeOf (opField (opField (opRow o).pattern ++ 0#8 ++ color)) = some o ∧
      cleanWord o (opField (opRow o).pattern ++ 0#8 ++ color) = true := by
  refine ⟨(congrArg opcodeOf (opField_cat3 (m := 8) (k := 16) rfl _ _ _)).trans (opcodeOf_pattern o), ?_⟩
  simp only [cleanWord, beq_iff_eq]
  apply BitVec.eq_of_getLsbD_eq
  intro i hi
  rw [BitVec.getLsbD_and, show (opField (opRow o).pattern ++ 0#8 ++ color : Word) =
    BitVec.cast rfl (opField (opRow o).pattern ++ 0#8 ++ color) from rfl, getLsbD_cat3]
  obtain rfl | rfl | rfl := h <;> interval_cases i <;> simp [opRow, opField]

theorem nop : Statement .nop := ⟨_, _, rfl, by decide, by decide, by decide⟩

theorem init : Statement .init := ⟨_, _, rfl, by decide, by decide, by decide⟩

theorem setRotation (rot : BitVec 2) : Statement (.setRotation rot) :=
  of_words .setRotation _ _ rfl rfl (by revert rot; decide) (by revert rot; decide) (by decide)

theorem setPixel (x y : BitVec 16) (color : Color) : Statement (.setPixel x y color) :=
  of_words .setPixel _ _ rfl rfl (color_word .setPixel (by simp) color).1 (color_word .setPixel (by simp) color).2
    (by simp [opRow])

theorem fill (color : Color) : Statement (.fill color) :=
  of_words .fill _ _ rfl rfl (color_word .fill (by simp) color).1 (color_word .fill (by simp) color).2 (by simp [opRow])

theorem drawBitmap (x y bw bh : BitVec 16) (fg : Color) (bytes : List Byte) :
    Statement (.drawBitmap x y bw bh fg bytes) :=
  of_words .drawBitmap _ _ rfl rfl (color_word .drawBitmap (by simp) fg).1 (color_word .drawBitmap (by simp) fg).2
    (by simp [opRow])

theorem readPixel (role : Role) (x y : BitVec 16) : Statement (.readPixel role x y) := by
  refine of_words .readPixel _ _ rfl rfl ?_ ?_ (by simp [opRow])
  · change opcodeOf (opField (opField (opRow .readPixel).pattern ++ 0#23 ++ role.bit)) = some .readPixel
    cases role <;> decide
  · change cleanWord .readPixel (opField (opRow .readPixel).pattern ++ 0#23 ++ role.bit) = true
    cases role <;> decide

theorem update : Statement .update := ⟨_, _, rfl, by decide, by decide, by decide⟩

theorem eraseDisplay : Statement .eraseDisplay := ⟨_, _, rfl, by decide, by decide, by decide⟩

theorem readStatus : Statement .readStatus := ⟨_, _, rfl, by decide, by decide, by decide⟩

theorem readInfo (sel : BitVec 2) : Statement (.readInfo sel) :=
  of_words .readInfo _ _ rfl rfl (by revert sel; decide) (by revert sel; decide) (by decide)

theorem readLut (phase : Phase) (bval : Byte) (frame : BitVec 16) : Statement (.readLut phase bval frame) := by
  refine of_words .readLut _ _ rfl rfl ?_ ?_ (by simp [opRow])
  · change opcodeOf (opField (opField (opRow .readLut).pattern ++ 0#7 ++ phase.bit ++ bval ++ 0#8)) = some .readLut
    cases phase <;> revert bval <;> decide
  · change cleanWord .readLut (opField (opRow .readLut).pattern ++ 0#7 ++ phase.bit ++ bval ++ 0#8) = true
    cases phase <;> revert bval <;> decide

end Sys2Proof.Laws.Head
end

