-- ==== Sys2Proof/Laws/Pixel.lean ====
section
/-! SUPPORT. The laws of the pixel operations: what one plotted pixel changes, and that a bitmap changes the buffers alone. -/

namespace Sys2Proof.Machine

/-- The framebuffer of a role is `FB0` or `FB1` (R34). -/
theorem bufferOf_cases (role : Role) (s : State) : bufferOf role s = .fb0 ∨ bufferOf role s = .fb1 := by
  cases role <;> simp only [bufferOf] <;> split <;> simp

/-- The two roles name different framebuffers (R34). -/
theorem bufferOf_ne (s : State) : bufferOf .reference s ≠ bufferOf .active s := by
  simp only [bufferOf]
  split <;> simp

/-- Writing a byte of a framebuffer changes no item but the framebuffers. -/
theorem writeByte_buffer (role : Role) (s t : State) (a : Nat) (v : Byte) :
    writeByte (bufferOf role s) a v t =
      { t with fb0 := (writeByte (bufferOf role s) a v t).fb0, fb1 := (writeByte (bufferOf role s) a v t).fb1 } := by
  obtain h | h := bufferOf_cases role s <;> rw [h] <;> rfl

/-- A plotted pixel changes no item but the framebuffers (R76, R153). -/
theorem plot_frame (c : Code) (x y : Int) (s : State) :
    plot c x y s = { s with fb0 := (plot c x y s).fb0, fb1 := (plot c x y s).fb1 } := by
  simp only [plot]
  split
  · exact writeByte_buffer .active s s _ _
  · rfl

/-- What a plotted pixel does to every byte: the field of a visible pixel in its byte of the active buffer, and nothing else
(R76, R147). -/
theorem readByte_plot (c : Code) (x y : Int) (s : State) (sp : Space) (a : Nat) :
    readByte sp a (plot c x y s) =
      if inVis s.build s.rotation x y = true ∧ sp = bufferOf .active s ∧ a = addrByte s.build s.rotation x y then
        setField (readByte sp a s) (addrField s.build s.rotation x y) c
      else readByte sp a s := by
  simp only [plot]
  by_cases hv : inVis s.build s.rotation x y = true
  · simp only [hv, if_true, true_and, writePixel, readByte_writeByte]
    by_cases hs : bufferOf .active s = sp ∧ addrByte s.build s.rotation x y = a
    · obtain ⟨rfl, rfl⟩ := hs
      simp
    · rw [if_neg hs, if_neg (fun h => hs ⟨h.1.symm, h.2.symm⟩)]
  · simp [hv]

/-- A plotted pixel seen through the packed read: the pixel itself has the code, every other visible pixel keeps its own
(R76, R77, R149). -/
theorem readPixelCode_plot {s : State} (hb : buildOk s.build = true) (c : Code) {x y x' y' : Int}
    (h' : inVis s.build s.rotation x' y' = true) (role : Role) :
    readPixelCode role x' y' (plot c x y s) =
      if role = .active ∧ x' = x ∧ y' = y then c else readPixelCode role x' y' s := by
  have hf := plot_frame c x y s
  have e1 : (plot c x y s).build = s.build := by rw [hf]
  have e2 : (plot c x y s).rotation = s.rotation := by rw [hf]
  have e3 : bufferOf role (plot c x y s) = bufferOf role s := by
    have : (plot c x y s).activeSel = s.activeSel := by rw [hf]
    cases role <;> simp [bufferOf, this]
  simp only [readPixelCode, e1, e2, e3, readByte_plot]
  by_cases hv : inVis s.build s.rotation x y = true
  · by_cases hr : bufferOf role s = bufferOf .active s ∧
      addrByte s.build s.rotation x' y' = addrByte s.build s.rotation x y
    · obtain ⟨hrole, hbyte⟩ := hr
      have hrole : role = .active := by
        cases role
        · rfl
        · exact absurd hrole (bufferOf_ne s)
      rw [if_pos ⟨hv, by rw [hrole], hbyte⟩, getField_setField _ (addrField_lt _ _ _ _) (addrField_lt _ _ _ _)]
      by_cases hfield : addrField s.build s.rotation x y = addrField s.build s.rotation x' y'
      · obtain ⟨rfl, rfl⟩ := addr_inj hb h' hv hbyte hfield.symm
        simp [hrole]
      · rw [if_neg hfield, if_neg]
        rintro ⟨-, rfl, rfl⟩
        exact hfield rfl
    · rw [if_neg (fun h => hr h.2), if_neg]
      rintro ⟨rfl, rfl, rfl⟩
      exact hr ⟨rfl, rfl⟩
  · rw [if_neg (fun h => hv h.1), if_neg]
    rintro ⟨-, rfl, rfl⟩
    exact hv h'

/-- A property that plotting one pixel keeps is kept by a whole bitmap (R155). -/
theorem plotBitmap_keeps {P : State → Prop} (h : ∀ c x y t, P t → P (plot c x y t)) (x0 y0 : Int) (bw bh : Nat)
    (fg : Code) (bytes : List Byte) {s : State} (hs : P s) : P (plotBitmap x0 y0 bw bh fg bytes s) := by
  have row : ∀ (js : List Nat) (j : Nat) (t : State), P t →
      P (js.foldl (fun t i => plot (bitmapCode fg (bitmapBit bytes bw i j)) (x0 + i) (y0 + j) t) t) := by
    intro js j
    induction js with
    | nil => exact fun _ ht => ht
    | cons i js ih => exact fun t ht => ih _ (h _ _ _ t ht)
  have all : ∀ (js : List Nat) (t : State), P t → P (js.foldl (fun t j => plotRow x0 y0 bw fg bytes j t) t) := by
    intro js
    induction js with
    | nil => exact fun _ ht => ht
    | cons j js ih => exact fun t ht => ih _ (row _ j t ht)
  exact all _ s hs

/-- A bitmap changes no item but the framebuffers (R155). -/
theorem plotBitmap_frame (x0 y0 : Int) (bw bh : Nat) (fg : Code) (bytes : List Byte) (s : State) :
    ∃ m0 m1, plotBitmap x0 y0 bw bh fg bytes s = { s with fb0 := m0, fb1 := m1 } := by
  refine plotBitmap_keeps (P := fun t => ∃ m0 m1, t = { s with fb0 := m0, fb1 := m1 }) ?_ x0 y0 bw bh fg bytes
    ⟨s.fb0, s.fb1, rfl⟩
  rintro c x y t ⟨m0, m1, rfl⟩
  exact ⟨_, _, plot_frame c x y _⟩

end Sys2Proof.Machine
end

