-- ==== Sys2Proof/Laws/Sequencer.lean ====
section
/-! SUPPORT. The laws of the sequencer: what a list of actions can do, and the closed form of a pass that nothing hinders. -/

namespace Sys2Proof.Machine

/-! ## What performing actions keeps -/

/-- A property that a reset, a tick with an action of the list, and nothing else can touch is kept by the whole list. -/
theorem perform_keeps {P : State → Prop} (hreset : ∀ s, P s → P (resetEvent s)) :
    ∀ (as : List Action), (∀ a ∈ as, ∀ s, P s → P (act a (tickReset s))) → ∀ s, P s → P (perform as s)
  | [], _, _, h => h
  | a :: as, hact, s, h => by
    simp only [perform]
    split
    · exact hreset s h
    · split
      · exact hact a List.mem_cons_self s h
      · exact perform_keeps hreset as (fun b hb => hact b (List.mem_cons_of_mem _ hb)) _
          (hact a List.mem_cons_self s h)

/-- With no reset awaited no action brings one nearer. -/
theorem elapse_none {s : State} (h : s.resetAfter = none) (n : Nat) : elapse n s = s := by
  cases s
  simp_all [elapse]

/-- With no reset awaited a tick changes nothing. -/
theorem tickReset_none {s : State} (h : s.resetAfter = none) : tickReset s = s := elapse_none h 1

/-- The same for a list performed while no reset is due: no reset can happen. -/
theorem perform_keeps_noReset {P : State → Prop} :
    ∀ (as : List Action), (∀ a ∈ as, ∀ s, P s → P (act a s)) → ∀ s, s.resetAfter = none → P s → P (perform as s)
  | [], _, _, _, h => h
  | a :: as, hact, s, hr, h => by
    have ht := tickReset_none hr
    have hr' : (act a s).resetAfter = none := by cases a <;> simp [act, hr]
    simp only [perform, hr, ht]
    split
    · exact hact a List.mem_cons_self s h
    · exact perform_keeps_noReset as (fun b hb => hact b (List.mem_cons_of_mem _ hb)) _ hr'
        (hact a List.mem_cons_self s h)

/-! ## Nothing hinders: the transport is ready and no reset is due -/

/-- With a ready transport an event is presented, recorded and acknowledged at once. -/
theorem emit_ready {s : State} (h : s.transport = .ready) (e : Event) :
    emit e s = { s with presented := none, trace := s.trace ++ [.event e] } := by
  simp [emit, acknowledge, present, h]

/-- An unhindered list of actions is performed to its end, one after the other. -/
theorem perform_unhindered :
    ∀ (as : List Action) (s : State), Unhindered s → s.presented = none →
      perform as s = as.foldl (fun t a => act a t) s
  | [], _, _, _ => rfl
  | a :: as, s, hu, hp => by
    have ht := tickReset_none hu.2
    have hp' : (act a s).presented = none := by
      cases a <;> simp [act, hp, emit_ready hu.1]
    have hu' : Unhindered (act a s) := by
      cases a <;> simp [act, Unhindered, emit_ready hu.1, hu.1, hu.2]
    simp only [perform, hu.2, ht, hp', List.foldl_cons]
    exact perform_unhindered as _ hu' hp'

/-- Unhindered actions leave the port empty and stay unhindered. -/
theorem foldl_act_unhindered :
    ∀ (as : List Action) (s : State), Unhindered s → s.presented = none →
      Unhindered (as.foldl (fun t a => act a t) s) ∧ (as.foldl (fun t a => act a t) s).presented = none
  | [], _, hu, hp => ⟨hu, hp⟩
  | a :: as, s, hu, hp => by
    have hp' : (act a s).presented = none := by
      cases a <;> simp [act, hp, emit_ready hu.1]
    have hu' : Unhindered (act a s) := by
      cases a <;> simp [act, Unhindered, emit_ready hu.1, hu.1, hu.2]
    exact foldl_act_unhindered as _ hu' hp'

/-! ## The closed form of a pass -/

/-- The row buffer after row `r` of frame `f` has been built (R236). -/
def rowMemory (s : State) (p : Phase) (f r : Nat) : Memory :=
  Memory.table (bytesPerRow s.build) (fun j => rowByte p f r j s)

/-- The mark of that row. -/
def rowMark (s : State) (p : Phase) (f r : Nat) : Mark :=
  .event (.row ((List.range (bytesPerRow s.build)).map fun j => rowByte p f r j s) s.build.w)

/-- A frame's marks, from row `r` on. -/
def rowMarks (s : State) (p : Phase) (f r : Nat) : List Mark :=
  (List.range' r (s.build.h - r)).map (rowMark s p f) ++ [rowMark s p f (s.build.h - 1)]

/-- A row byte depends on the build, the buffers, the tables, the roles, the declared size and the draw alone. -/
theorem rowByte_congr {s t : State} (hb : t.build = s.build) (hm : ∀ sp, sp ≠ .rowbuf → spaceOf sp t = spaceOf sp s)
    (ha : t.activeSel = s.activeSel) (hs : t.srcSize = s.srcSize) (hd : t.draw = s.draw) (p : Phase) (f r j : Nat) :
    rowByte p f r j t = rowByte p f r j s := by
  have hbuf : bufferOf (passRole p) t = bufferOf (passRole p) s := by cases p <;> simp [bufferOf, passRole, ha]
  have hne : bufferOf (passRole p) s ≠ .rowbuf := by
    cases p <;> simp only [bufferOf, passRole] <;> split <;> simp
  have hsrc : ∀ i, srcByte p i t = srcByte p i s := by
    intro i
    simp only [srcByte, hs, hbuf]
    split
    · exact readByte_congr (hm _ hne) hd
    · rfl
  have hlut : lutSpace p ≠ .rowbuf := by cases p <;> simp [lutSpace]
  simp only [rowByte, hsrc, hb, readTable]
  exact readByte_congr (hm _ hlut) hd

/-- A state some way into a pass: only the counters, the row buffer, the port and the trace have changed. -/
def midPass (s : State) (f r : BitVec 16) (m : Memory) (tr : List Mark) : State :=
  { s with frameCtr := f, rowCtr := r, rowbuf := m, presented := none, trace := tr }

@[simp] theorem midPass_midPass (s : State) (f r f' r' : BitVec 16) (m m' : Memory) (tr tr' : List Mark) :
    midPass (midPass s f r m tr) f' r' m' tr' = midPass s f' r' m' tr' := rfl

@[simp] theorem midPass_build (s : State) (f r : BitVec 16) (m : Memory) (tr : List Mark) :
    (midPass s f r m tr).build = s.build := rfl

@[simp] theorem midPass_trace (s : State) (f r : BitVec 16) (m : Memory) (tr : List Mark) :
    (midPass s f r m tr).trace = tr := rfl

@[simp] theorem midPass_frameCtr (s : State) (f r : BitVec 16) (m : Memory) (tr : List Mark) :
    (midPass s f r m tr).frameCtr = f := rfl

@[simp] theorem midPass_rowCtr (s : State) (f r : BitVec 16) (m : Memory) (tr : List Mark) :
    (midPass s f r m tr).rowCtr = r := rfl

@[simp] theorem midPass_rowbuf (s : State) (f r : BitVec 16) (m : Memory) (tr : List Mark) :
    (midPass s f r m tr).rowbuf = m := rfl

theorem midPass_unhindered {s : State} (hu : Unhindered s) (f r : BitVec 16) (m : Memory) (tr : List Mark) :
    Unhindered (midPass s f r m tr) := hu

@[simp] theorem rowByte_midPass (s : State) (f' r' : BitVec 16) (m : Memory) (tr : List Mark) (p : Phase)
    (f r j : Nat) : rowByte p f r j (midPass s f' r' m tr) = rowByte p f r j s :=
  rowByte_congr (s := s) (t := midPass s f' r' m tr) rfl
    (fun sp h => by cases sp <;> first | rfl | exact absurd rfl h) rfl rfl rfl p f r j

@[simp] theorem rowMemory_midPass (s : State) (f' r' : BitVec 16) (m : Memory) (tr : List Mark) (p : Phase)
    (f r : Nat) : rowMemory (midPass s f' r' m tr) p f r = rowMemory s p f r := by
  simp [rowMemory]

@[simp] theorem rowMark_midPass (s : State) (f' r' : BitVec 16) (m : Memory) (tr : List Mark) (p : Phase)
    (f : Nat) : rowMark (midPass s f' r' m tr) p f = rowMark s p f := by
  funext r
  simp only [rowMark, midPass_build, rowByte_midPass]

@[simp] theorem rowMarks_midPass (s : State) (f' r' : BitVec 16) (m : Memory) (tr : List Mark) (p : Phase)
    (f r : Nat) : rowMarks (midPass s f' r' m tr) p f r = rowMarks s p f r := by
  simp [rowMarks]

/-- The row event of a row buffer that has just been built (R230, R236). -/
theorem rowEvent_built (s : State) (f' r' : BitVec 16) (tr : List Mark) (p : Phase) (f r : Nat) :
    Mark.event (rowEvent (midPass s f' r' (rowMemory s p f r) tr)) = rowMark s p f r := by
  simp only [rowEvent, rowMark, midPass_build, Mark.event.injEq, Event.row.injEq]
  refine ⟨List.map_congr_left ?_, trivial⟩
  intro j hj
  simp [readByte, spaceOf, rowMemory, Memory.find?_table, List.mem_range.1 hj]

/-- One row of a pass: counted, built and sent. -/
theorem foldl_rowActions {s : State} (hu : Unhindered s) (hp : s.presented = none) (p : Phase) (f r : Nat) :
    (rowActions p f r).foldl (fun t a => act a t) s =
      midPass s s.frameCtr (BitVec.ofNat 16 r) (rowMemory s p f r) (s.trace ++ [rowMark s p f r]) := by
  have e1 : act (.row r) s = midPass s s.frameCtr (BitVec.ofNat 16 r) s.rowbuf s.trace := by
    simp [act, midPass, ← hp]
  have e2 : ∀ m, act (.build p f r) (midPass s s.frameCtr (BitVec.ofNat 16 r) m s.trace) =
      midPass s s.frameCtr (BitVec.ofNat 16 r) (rowMemory s p f r) s.trace := by
    intro m
    simp only [act, buildRow, writeAll, setSpace, rowByte_midPass]
    rfl
  simp only [rowActions, List.foldl_cons, List.foldl_nil, e1, e2]
  rw [act, emit_ready (midPass_unhindered hu _ _ _ _).1, rowEvent_built]
  rfl

/-- The rows of a frame from row `r` on, and the flush row. -/
theorem foldl_rowsFrom (p : Phase) (f : Nat) :
    ∀ (k r : Nat) (s : State), Unhindered s → s.presented = none → s.build.h - r = k + 1 →
      (rowsFrom s.build p f r).foldl (fun t a => act a t) s =
        midPass s s.frameCtr (BitVec.ofNat 16 s.build.h) (rowMemory s p f (s.build.h - 1))
          (s.trace ++ rowMarks s p f r) := by
  intro k
  induction k with
  | zero =>
    intro r s hu hp hk
    have hr : s.build.h - 1 = r := by omega
    simp only [rowsFrom, hk, Nat.zero_add, List.range'_one, List.flatMap_cons, List.flatMap_nil, List.append_nil,
      List.foldl_append, foldl_rowActions hu hp, List.foldl_cons, List.foldl_nil]
    have e1 : ∀ t, act (.row s.build.h) (midPass s s.frameCtr (BitVec.ofNat 16 r) (rowMemory s p f r) t) =
        midPass s s.frameCtr (BitVec.ofNat 16 s.build.h) (rowMemory s p f r) t := fun _ => rfl
    rw [e1, act, emit_ready (midPass_unhindered hu _ _ _ _).1, rowEvent_built]
    simp only [rowMarks, hk, Nat.zero_add, List.range'_one, List.map_cons, List.map_nil, hr, midPass_trace,
      List.append_assoc]
    rfl
  | succ k ih =>
    intro r s hu hp hk
    have hsplit : rowsFrom s.build p f r = rowActions p f r ++ rowsFrom s.build p f (r + 1) := by
      simp only [rowsFrom, show s.build.h - r = (s.build.h - (r + 1)) + 1 by omega, List.range'_succ,
        List.flatMap_cons, List.append_assoc]
    rw [hsplit, List.foldl_append, foldl_rowActions hu hp]
    refine (ih (r + 1) (midPass s s.frameCtr (BitVec.ofNat 16 r) (rowMemory s p f r) (s.trace ++ [rowMark s p f r]))
      (midPass_unhindered hu _ _ _ _) rfl (by simp only [midPass_build]; omega)).trans ?_
    simp only [midPass_midPass, midPass_build, midPass_frameCtr, midPass_trace, rowMemory_midPass, rowMarks_midPass,
      List.append_assoc]
    congr 2
    simp only [rowMarks, show s.build.h - r = (s.build.h - (r + 1)) + 1 by omega, List.range'_succ, List.map_cons]
    rfl

/-- A frame's marks (R237). -/
def frameMarks (s : State) (p : Phase) (f : Nat) : List Mark := .event .scanStart :: rowMarks s p f 0

@[simp] theorem frameMarks_midPass (s : State) (f' r' : BitVec 16) (m : Memory) (tr : List Mark) (p : Phase) :
    frameMarks (midPass s f' r' m tr) p = frameMarks s p := by
  funext f
  simp [frameMarks]

/-- One frame of a pass. -/
theorem foldl_frameActions {s : State} (hu : Unhindered s) (hp : s.presented = none) (hh : 1 ≤ s.build.h) (p : Phase)
    (f : Nat) :
    (frameActions s.build p f).foldl (fun t a => act a t) s =
      midPass s (BitVec.ofNat 16 f) (BitVec.ofNat 16 s.build.h) (rowMemory s p f (s.build.h - 1))
        (s.trace ++ frameMarks s p f) := by
  have e1 : act (.frame f) s = midPass s (BitVec.ofNat 16 f) s.rowCtr s.rowbuf s.trace := by
    simp [act, midPass, ← hp]
  have e2 : act .emitScan (midPass s (BitVec.ofNat 16 f) s.rowCtr s.rowbuf s.trace) =
      midPass s (BitVec.ofNat 16 f) s.rowCtr s.rowbuf (s.trace ++ [.event .scanStart]) := by
    rw [act, emit_ready (midPass_unhindered hu _ _ _ _).1]
    rfl
  simp only [frameActions, List.foldl_cons, e1, e2]
  refine (foldl_rowsFrom p f (s.build.h - 1) 0
    (midPass s (BitVec.ofNat 16 f) s.rowCtr s.rowbuf (s.trace ++ [.event .scanStart]))
    (midPass_unhindered hu _ _ _ _) rfl (by simp only [midPass_build]; omega)).trans ?_
  simp only [midPass_midPass, midPass_build, midPass_frameCtr, midPass_trace, rowMemory_midPass, rowMarks_midPass,
    List.append_assoc, frameMarks]
  rfl

/-- Frames `f` to `n-1` of a pass. -/
theorem foldl_framesFrom (p : Phase) (n : Nat) :
    ∀ (k f : Nat) (s : State), Unhindered s → s.presented = none → 1 ≤ s.build.h → n - f = k + 1 →
      (framesFrom s.build p f n).foldl (fun t a => act a t) s =
        midPass s (BitVec.ofNat 16 (n - 1)) (BitVec.ofNat 16 s.build.h) (rowMemory s p (n - 1) (s.build.h - 1))
          (s.trace ++ (List.range' f (n - f)).flatMap (frameMarks s p)) := by
  intro k
  induction k with
  | zero =>
    intro f s hu hp hh hk
    have hf : n - 1 = f := by omega
    simp only [framesFrom, hk, Nat.zero_add, List.range'_one, List.flatMap_cons, List.flatMap_nil, List.append_nil,
      foldl_frameActions hu hp hh, hf]
  | succ k ih =>
    intro f s hu hp hh hk
    have hsplit : framesFrom s.build p f n = frameActions s.build p f ++ framesFrom s.build p (f + 1) n := by
      simp only [framesFrom, show n - f = (n - (f + 1)) + 1 by omega, List.range'_succ, List.flatMap_cons]
    rw [hsplit, List.foldl_append, foldl_frameActions hu hp hh]
    refine (ih (f + 1) (midPass s (BitVec.ofNat 16 f) (BitVec.ofNat 16 s.build.h) (rowMemory s p f (s.build.h - 1))
      (s.trace ++ frameMarks s p f)) (midPass_unhindered hu _ _ _ _) rfl hh (by omega)).trans ?_
    simp only [midPass_midPass, midPass_build, midPass_trace, rowMemory_midPass, frameMarks_midPass, List.append_assoc,
      show n - f = (n - (f + 1)) + 1 by omega, List.range'_succ, List.flatMap_cons]

/-- A whole pass that nothing hinders (R237). -/
theorem foldl_passActions {s : State} (hu : Unhindered s) (hp : s.presented = none) (hh : 1 ≤ s.build.h) (p : Phase)
    (hn : 1 ≤ passFrames s.build p) :
    (passActions s.build p).foldl (fun t a => act a t) s =
      midPass s (BitVec.ofNat 16 (passFrames s.build p - 1)) (BitVec.ofNat 16 s.build.h)
        (rowMemory s p (passFrames s.build p - 1) (s.build.h - 1))
        (s.trace ++ (List.range (passFrames s.build p)).flatMap (frameMarks s p)) := by
  have := foldl_framesFrom p (passFrames s.build p) (passFrames s.build p - 1) 0 s hu hp hh (by omega)
  simpa [passActions, List.range_eq_range'] using this

/-! ## The marks in the terms of the statements -/

/-- A pass's marks are the statement's, once the source bytes are known (R236, R243). -/
theorem frameMarks_eq {s : State} {p : Phase} {src : Nat → Byte}
    (h : ∀ i, i < s.build.h * bytesPerRow s.build → srcByte p i s = src i) (hh : 1 ≤ s.build.h) (f : Nat) :
    frameMarks s p f = frameOut s p src f := by
  have hrow : ∀ r, r < s.build.h → rowMark s p f r = rowOut s p src f r := by
    intro r hr
    simp only [rowMark, rowOut]
    congr 2
    apply List.map_congr_left
    intro j hj
    have hj := List.mem_range.1 hj
    have : (r + 1) * bytesPerRow s.build ≤ s.build.h * bytesPerRow s.build := Nat.mul_le_mul_right _ hr
    rw [rowByte, h _ (by nlinarith)]
  simp only [frameMarks, rowMarks, frameOut, Nat.sub_zero, List.range_eq_range']
  rw [hrow (s.build.h - 1) (by omega)]
  congr 2
  apply List.map_congr_left
  intro r hr
  simp only [List.mem_range'_1, Nat.zero_le, Nat.zero_add, true_and] at hr
  exact hrow r hr

theorem flatMap_frameMarks {s : State} {p : Phase} {src : Nat → Byte}
    (h : ∀ i, i < s.build.h * bytesPerRow s.build → srcByte p i s = src i) (hh : 1 ≤ s.build.h) (n : Nat) :
    (List.range n).flatMap (frameMarks s p) = passOut s p src n := by
  simp only [passOut]
  congr 1
  funext f
  exact frameMarks_eq h hh f

end Sys2Proof.Machine
end

