-- ==== Sys2Proof/Laws/Position.lean ====
section
/-! SUPPORT. The laws of the sequencer's position: wherever a refresh waits, its position says exactly which actions are left
(R43, R246; log 11). -/

namespace Sys2Proof.Machine

/-! ## The position -/

/-- The action emits the event. -/
def Action.emits : Action → Event → Prop
  | .emitPwrOn, e => e = .pwrOn
  | .emitPwrOff, e => e = .pwrOff
  | .emitScan, e => e = .scanStart
  | .emitRow, e => ∃ bytes w, e = .row bytes w
  | .enter _, _ => False
  | .frame _, _ => False
  | .row _, _ => False
  | .build _ _ _, _ => False
  | .settle _, _ => False
  | .swap, _ => False
  | .white _, _ => False
  | .finish, _ => False

/-- What an action does to the position alone. -/
def Action.moves : Action → State → State
  | .enter q, s => { s with seq := q }
  | .frame f, s => { s with frameCtr := BitVec.ofNat 16 f }
  | .row r, s => { s with rowCtr := BitVec.ofNat 16 r }
  | .finish, s => endJob s
  | .emitPwrOn, s => s
  | .emitPwrOff, s => s
  | .emitScan, s => s
  | .emitRow, s => s
  | .build _ _ _, s => s
  | .settle _, s => s
  | .swap, s => s
  | .white _, s => s

/-- Two states stand at the same position of the same build. -/
def SamePos (s t : State) : Prop :=
  t.build = s.build ∧ t.job = s.job ∧ t.seq = s.seq ∧ t.frameCtr = s.frameCtr ∧ t.rowCtr = s.rowCtr

theorem SamePos.refl (s : State) : SamePos s s := ⟨rfl, rfl, rfl, rfl, rfl⟩

theorem SamePos.trans {s t u : State} (h : SamePos s t) (h' : SamePos t u) : SamePos s u :=
  ⟨h'.1.trans h.1, h'.2.1.trans h.2.1, h'.2.2.1.trans h.2.2.1, h'.2.2.2.1.trans h.2.2.2.1, h'.2.2.2.2.trans h.2.2.2.2⟩

theorem SamePos.moves {s t : State} (h : SamePos s t) (a : Action) : SamePos (a.moves s) (a.moves t) := by
  obtain ⟨h1, h2, h3, h4, h5⟩ := h
  cases a <;> simp_all [SamePos, Action.moves]

/-- What is left depends on the position alone. -/
theorem SamePos.rest {s t : State} (h : SamePos s t) (e : Event) : restActions t e = restActions s e := by
  obtain ⟨h1, h2, h3, h4, h5⟩ := h
  simp only [restActions, h1, h2, h3, h4, h5]

theorem samePos_acknowledge (s : State) : SamePos s (acknowledge s) := by
  simp [SamePos]

theorem samePos_tickReset (s : State) : SamePos s (tickReset s) := by
  simp [SamePos]

/-- An action moves the position as `moves` says. -/
theorem samePos_act (a : Action) (s : State) : SamePos (a.moves s) (act a s) := by
  cases a <;> simp [SamePos, Action.moves, act, emit, buildRow, writeAll, endJob]

/-- An action that leaves an event presented has just emitted it. -/
theorem emits_of_presented {a : Action} {s : State} {e : Event} (hp : s.presented = none)
    (h : (act a s).presented = some e) : a.emits e := by
  have hack : ∀ t : State, (acknowledge t).presented = some e → t.presented = some e := by
    intro t ht
    unfold acknowledge at ht
    split at ht <;> simp_all
  cases a <;> simp only [act, emit, buildRow, writeAll, setSpace_presented, recordSettle_presented, swapRoles_presented,
    endJob_presented, hp, reduceCtorEq] at h <;> (try have h := hack _ h) <;>
    simp [present] at h <;> simp [Action.emits, ← h, rowEvent]

/-! ## Lists that can be resumed -/

/-- At every event that the list emits, the position leaves exactly the rest of the list, and then `k`. -/
def Resumable (k : List Action) : List Action → State → Prop
  | [], _ => True
  | a :: as, s => (∀ e, a.emits e → restActions (a.moves s) e = some (as ++ k)) ∧ Resumable k as (a.moves s)

theorem Resumable.congr {k : List Action} :
    ∀ {as : List Action} {s t : State}, SamePos s t → Resumable k as s → Resumable k as t
  | [], _, _, _, _ => trivial
  | a :: _, _, _, hp, h =>
    ⟨fun e he => by rw [(hp.moves a).rest]; exact h.1 e he, Resumable.congr (hp.moves a) h.2⟩

theorem Resumable.append {k : List Action} :
    ∀ {as bs : List Action} {s : State}, Resumable (bs ++ k) as s →
      Resumable k bs (as.foldl (fun t a => a.moves t) s) → Resumable k (as ++ bs) s
  | [], _, _, _, h => h
  | _ :: as, bs, _, h, h' =>
    ⟨fun e he => (h.1 e he).trans (congrArg some (List.append_assoc as bs k).symm), Resumable.append h.2 h'⟩

/-- Performing a resumable list: it ends with no event presented (a reset leaves none either), or it waits at an event whose
position leaves exactly what is left of the list. -/
theorem perform_resumable :
    ∀ (as : List Action) (s : State), s.presented = none → Resumable [] as s →
      ((perform as s).presented = none ∨
        ∃ e rest, (perform as s).presented = some e ∧ restActions (perform as s) e = some rest ∧ rest <:+ as)
  | [], _, hp, _ => .inl hp
  | a :: as, s, hp, h => by
    simp only [perform]
    split
    · exact .inl rfl
    · cases hpre : (act a (tickReset s)).presented with
      | none =>
        have hpos := ((samePos_tickReset s).moves a).trans (samePos_act a (tickReset s))
        simp only [Option.isSome_none, Bool.false_eq_true, if_false]
        obtain h0 | ⟨e, rest, h1, h2, h3⟩ := perform_resumable as _ hpre (h.2.congr hpos)
        · exact .inl h0
        · exact .inr ⟨e, rest, h1, h2, h3.trans (List.suffix_cons a as)⟩
      | some e =>
        simp only [Option.isSome_some, if_true]
        refine .inr ⟨e, as, hpre, ?_, List.suffix_cons a as⟩
        rw [(samePos_act a _).rest, ((samePos_tickReset s).moves a).rest,
          h.1 e (emits_of_presented (s := tickReset s) hp hpre), List.append_nil]

/-- The list ends its command, and does so only at its end. -/
def Ends (as : List Action) : Prop := ∃ pre, as = pre ++ [.finish] ∧ .finish ∉ pre

theorem Ends.append {bs : List Action} (h : Ends bs) {as : List Action} (ha : .finish ∉ as) : Ends (as ++ bs) := by
  obtain ⟨pre, rfl, hp⟩ := h
  exact ⟨as ++ pre, by simp, by simp [ha, hp]⟩

/-- Performing a list that ends its command: the command is over (completed, or abandoned by a reset), or an event is presented and it
still runs. -/
theorem perform_ends {as : List Action} (h : Ends as) {s : State} (hp : s.presented = none) :
    (Idle (perform as s) ∧ (perform as s).busy = false ∧ (s.asm = [] → (perform as s).asm = [])) ∨
      ((perform as s).presented.isSome = true ∧ (perform as s).job = s.job ∧ (perform as s).busy = s.busy ∧
        (perform as s).asm = s.asm) := by
  obtain ⟨pre, rfl, hf⟩ := h
  induction pre generalizing s with
  | nil =>
    simp only [List.nil_append, perform]
    split
    · exact .inl ⟨⟨rfl, rfl, rfl⟩, rfl, fun _ => rfl⟩
    · have : (act .finish (tickReset s)).presented = none := hp
      simp only [this, Option.isSome_none, Bool.false_eq_true, if_false]
      exact .inl ⟨⟨rfl, rfl, hp⟩, rfl, fun h => h⟩
  | cons a pre ih =>
    have ha : a ≠ .finish := fun h => hf (h ▸ List.mem_cons_self)
    have hj : (act a (tickReset s)).job = s.job ∧ (act a (tickReset s)).busy = s.busy ∧
        (act a (tickReset s)).asm = s.asm := by
      cases a <;> simp [act, emit, buildRow, writeAll] at ha ⊢
    simp only [List.cons_append, perform]
    split
    · exact .inl ⟨⟨rfl, rfl, rfl⟩, rfl, fun _ => rfl⟩
    · cases hpre : (act a (tickReset s)).presented with
      | none =>
        simp only [Option.isSome_none, Bool.false_eq_true, if_false]
        have := ih hpre (fun h => hf (List.mem_cons_of_mem _ h))
        rwa [hj.1, hj.2.1, hj.2.2] at this
      | some e =>
        simp only [Option.isSome_some, if_true, hpre]
        exact .inr ⟨trivial, hj⟩

/-! ## The passes can be resumed -/

theorem toNat_ofNat16 {n : Nat} (h : n < 65536) : (BitVec.ofNat 16 n).toNat = n := by
  simp only [BitVec.toNat_ofNat]; omega

/-- What a position inside a pass leaves: the rest of the pass, and then `k`. -/
def PassAt (p : Phase) (k : List Action) (s : State) : Prop :=
  ∀ t : State, t.build = s.build → t.job = s.job → t.seq = s.seq → ∀ e,
    restActions t e = (passRest s.build p t.frameCtr.toNat t.rowCtr.toNat e).map (· ++ k)

theorem PassAt.congr {p : Phase} {k : List Action} {s t : State} (h : PassAt p k s) (h1 : t.build = s.build)
    (h2 : t.job = s.job) (h3 : t.seq = s.seq) : PassAt p k t := by
  intro u hu1 hu2 hu3 e
  rw [h u (hu1.trans h1) (hu2.trans h2) (hu3.trans h3) e, h1]

/-- The rows of frame `f` from row `r` on. -/
theorem resumable_rows {p : Phase} {k : List Action} {f : Nat} :
    ∀ (n r : Nat) (s : State), PassAt p k s → s.frameCtr.toNat = f → s.build.h < 65536 → s.build.h - r = n → r ≤ s.build.h →
      Resumable (framesFrom s.build p (f + 1) (passFrames s.build p) ++ k) (rowsFrom s.build p f r) s := by
  intro n
  induction n with
  | zero =>
    intro r s hp hf hh hn hr
    simp only [rowsFrom, hn, List.range'_zero, List.flatMap_nil, List.nil_append]
    refine ⟨fun e he => he.elim, ?_, trivial⟩
    rintro e ⟨bytes, w, rfl⟩
    refine (hp { s with rowCtr := BitVec.ofNat 16 s.build.h } rfl rfl rfl _).trans ?_
    simp [passRest, hf, toNat_ofNat16 hh]
  | succ n ih =>
    intro r s hp hf hh hn hr
    have hsplit : rowsFrom s.build p f r = rowActions p f r ++ rowsFrom s.build p f (r + 1) := by
      simp only [rowsFrom, show s.build.h - r = (s.build.h - (r + 1)) + 1 by omega, List.range'_succ,
        List.flatMap_cons, List.append_assoc]
    rw [hsplit]
    refine Resumable.append ?_ ?_
    · refine ⟨fun e he => he.elim, fun e he => he.elim, ?_, trivial⟩
      rintro e ⟨bytes, w, rfl⟩
      refine (hp { s with rowCtr := BitVec.ofNat 16 r } rfl rfl rfl _).trans ?_
      have hr16 : r < 65536 := by omega
      simp only [passRest, hf, toNat_ofNat16 hr16, if_pos (show r < s.build.h by omega),
        Option.map_some, List.nil_append, List.append_assoc]
    · have h1 : s.build.h - (r + 1) = n := by omega
      have h2 : r + 1 ≤ s.build.h := by omega
      exact ih (r + 1) { s with rowCtr := BitVec.ofNat 16 r } (hp.congr rfl rfl rfl) hf hh h1 h2

/-- Moving through a list of rows changes no counter but `ROW_CTR`. -/
theorem moves_rows (p : Phase) (f : Nat) (b : Build) (r : Nat) (s : State) :
    ∃ c, (rowsFrom b p f r).foldl (fun t a => a.moves t) s = { s with rowCtr := c } := by
  have h : ∀ (l : List Nat) (s : State), ∃ c,
      (l.flatMap (rowActions p f)).foldl (fun t a => a.moves t) s = { s with rowCtr := c } := by
    intro l
    induction l with
    | nil => exact fun s => ⟨s.rowCtr, rfl⟩
    | cons r l ih =>
      intro s
      rw [List.flatMap_cons, List.foldl_append]
      obtain ⟨c, hc⟩ := ih ((rowActions p f r).foldl (fun t a => a.moves t) s)
      exact ⟨c, hc⟩
  obtain ⟨c, hc⟩ := h (List.range' r (b.h - r)) s
  exact ⟨BitVec.ofNat 16 b.h, by rw [rowsFrom, List.foldl_append, hc]; rfl⟩

/-- Frames `f` on of a pass. -/
theorem resumable_frames {p : Phase} {k : List Action} :
    ∀ (n f : Nat) (s : State), PassAt p k s → s.build.h < 65536 → passFrames s.build p ≤ 65536 →
      passFrames s.build p - f = n →
      Resumable k (framesFrom s.build p f (passFrames s.build p)) s := by
  intro n
  induction n with
  | zero =>
    intro f s hp hh hfr hn
    simp only [framesFrom, hn, List.range'_zero, List.flatMap_nil]
    trivial
  | succ n ih =>
    intro f s hp hh hfr hn
    have hf : f < 65536 := by omega
    have hsplit : framesFrom s.build p f (passFrames s.build p) =
        frameActions s.build p f ++ framesFrom s.build p (f + 1) (passFrames s.build p) := by
      simp only [framesFrom, show passFrames s.build p - f = (passFrames s.build p - (f + 1)) + 1 by omega,
        List.range'_succ, List.flatMap_cons]
    rw [hsplit]
    obtain ⟨c, hc⟩ := moves_rows p f s.build 0 { s with frameCtr := BitVec.ofNat 16 f }
    refine Resumable.append ⟨fun e he => he.elim, ?_, ?_⟩ ?_
    · rintro e rfl
      refine (hp { s with frameCtr := BitVec.ofNat 16 f } rfl rfl rfl _).trans ?_
      simp only [passRest, toNat_ofNat16 hf, Option.map_some, List.append_assoc]
    · exact resumable_rows s.build.h 0 { s with frameCtr := BitVec.ofNat 16 f } (hp.congr rfl rfl rfl)
        (toNat_ofNat16 hf) hh (by simp) (by simp)
    · have hm : (frameActions s.build p f).foldl (fun t a => a.moves t) s =
          { s with frameCtr := BitVec.ofNat 16 f, rowCtr := c } := hc
      have h1 : passFrames s.build p - (f + 1) = n := by omega
      rw [hm]
      exact ih (f + 1) { s with frameCtr := BitVec.ofNat 16 f, rowCtr := c } (hp.congr rfl rfl rfl) hh hfr h1

/-- A whole pass. -/
theorem resumable_pass {p : Phase} {k : List Action} {s : State} (hp : PassAt p k s) (hb : buildOk s.build = true) :
    Resumable k (passActions s.build p) s := by
  have h1 := buildOk_sizes hb
  have h2 := buildOk_frames hb
  refine resumable_frames _ 0 s hp (by omega) ?_ rfl
  cases p <;> simp only [passFrames] <;> omega

/-- Moving through frames changes no item but the counters. -/
theorem moves_frames (p : Phase) (b : Build) (f n : Nat) (s : State) :
    ∃ c d, (framesFrom b p f n).foldl (fun t a => a.moves t) s = { s with frameCtr := c, rowCtr := d } := by
  have h : ∀ (l : List Nat) (s : State), ∃ c d,
      (l.flatMap (frameActions b p)).foldl (fun t a => a.moves t) s = { s with frameCtr := c, rowCtr := d } := by
    intro l
    induction l with
    | nil => exact fun s => ⟨s.frameCtr, s.rowCtr, rfl⟩
    | cons f l ih =>
      intro s
      rw [List.flatMap_cons, List.foldl_append]
      obtain ⟨c, hc⟩ := moves_rows p f b 0 { s with frameCtr := BitVec.ofNat 16 f }
      have hm : (frameActions b p f).foldl (fun t a => a.moves t) s =
          { s with frameCtr := BitVec.ofNat 16 f, rowCtr := c } := hc
      rw [hm]
      obtain ⟨c', d', h'⟩ := ih { s with frameCtr := BitVec.ofNat 16 f, rowCtr := c }
      exact ⟨c', d', h'⟩
  exact h _ s

/-- Moving through a pass changes no item but the counters. -/
theorem moves_pass (p : Phase) (b : Build) (s : State) :
    ∃ c d, (passActions b p).foldl (fun t a => a.moves t) s = { s with frameCtr := c, rowCtr := d } :=
  moves_frames p b 0 _ s

/-! ## The commands can be resumed -/

theorem resumable_updateSwap (s : State) : Resumable [] updateSwap s :=
  ⟨fun _ he => he.elim, fun _ he => he.elim, fun _ he => he.elim, fun _ he => he.elim, trivial⟩

theorem resumable_updatePowerOff {s : State} (hj : s.job = .update) : Resumable [] updatePowerOff s := by
  refine ⟨fun _ he => he.elim, fun _ he => he.elim, fun _ he => he.elim, ?_, resumable_updateSwap _⟩
  rintro e rfl
  simp [restActions, Action.moves, hj]

theorem resumable_updateDraw {s : State} (hj : s.job = .update) (hb : buildOk s.build = true) :
    Resumable [] (updateDraw s.build) s := by
  refine ⟨fun _ he => he.elim, Resumable.append (s := { s with seq := .draw }) ?_ ?_⟩
  · rw [List.append_nil]
    refine resumable_pass (s := { s with seq := .draw }) ?_ hb
    intro t h1 h2 h3 e
    simp only [restActions, h2, hj, h3, h1]
  · obtain ⟨c, d, h⟩ := moves_pass .draw s.build { s with seq := .draw }
    rw [h]
    exact resumable_updatePowerOff hj

theorem resumable_updateErase {s : State} (hj : s.job = .update) (hb : buildOk s.build = true) :
    Resumable [] (updateErase s.build) s := by
  refine ⟨fun _ he => he.elim, fun _ he => he.elim, fun _ he => he.elim,
    Resumable.append (as := passActions s.build .erase) (bs := updateDraw s.build) (s := { s with seq := .erase }) ?_ ?_⟩
  · rw [List.append_nil]
    refine resumable_pass (s := { s with seq := .erase }) ?_ hb
    intro t h1 h2 h3 e
    simp only [restActions, h2, hj, h3, h1]
  · obtain ⟨c, d, h⟩ := moves_pass .erase s.build { s with seq := .erase }
    rw [h]
    exact resumable_updateDraw (s := { s with seq := .erase, frameCtr := c, rowCtr := d }) hj hb

/-- UPDATE waits only where its position leaves exactly what is left of it (R246). -/
theorem resumable_update {s : State} (hj : s.job = .update) (hb : buildOk s.build = true) :
    Resumable [] (updateActions s.build) s := by
  refine ⟨fun _ he => he.elim, ?_, resumable_updateErase (s := { s with seq := .powerOn }) hj hb⟩
  rintro e rfl
  simp [restActions, Action.moves, hj]

theorem resumable_quiet {as : List Action} (h : ∀ a ∈ as, ∀ e, ¬ a.emits e) (k : List Action) (s : State) :
    Resumable k as s := by
  induction as generalizing s with
  | nil => trivial
  | cons a as ih =>
    exact ⟨fun e he => absurd he (h a List.mem_cons_self e), ih (fun b hb => h b (List.mem_cons_of_mem _ hb)) _⟩

theorem resumable_displayFill (b : Build) (s : State) : Resumable [] (displayFill b) s := by
  refine resumable_quiet ?_ [] s
  intro a ha e
  simp only [displayFill] at ha
  split at ha <;> simp at ha <;> rcases ha with rfl | rfl | rfl | rfl | rfl <;> exact fun h => h

theorem resumable_displayPowerOff {s : State} (hj : s.job = .eraseDisplay) :
    Resumable [] (displayPowerOff s.build) s := by
  simp only [displayPowerOff]
  split
  · refine ⟨fun _ he => he.elim, fun _ he => he.elim, fun _ he => he.elim, ?_, resumable_displayFill _ _⟩
    rintro e rfl
    simp [restActions, Action.moves, hj]
  · exact resumable_displayFill _ _

theorem resumable_displayErase {s : State} (hj : s.job = .eraseDisplay) (hb : buildOk s.build = true) :
    Resumable [] (displayErase s.build) s := by
  refine ⟨fun _ he => he.elim, Resumable.append (s := { s with seq := .erase }) ?_ ?_⟩
  · rw [List.append_nil]
    refine resumable_pass (s := { s with seq := .erase }) ?_ hb
    intro t h1 h2 h3 e
    simp only [restActions, h2, hj, h3, h1]
  · obtain ⟨c, d, h⟩ := moves_pass .erase s.build { s with seq := .erase }
    rw [h]
    exact resumable_displayPowerOff (s := { s with seq := .erase, frameCtr := c, rowCtr := d }) hj

/-- ERASE_DISPLAY waits only where its position leaves exactly what is left of it (R246). -/
theorem resumable_display {s : State} (hj : s.job = .eraseDisplay) (hb : buildOk s.build = true) :
    Resumable [] (displayActions s.build) s := by
  simp only [displayActions]
  split
  · refine ⟨fun _ he => he.elim, ?_, fun _ he => he.elim, fun _ he => he.elim,
      resumable_displayErase (s := { s with seq := .settleOn }) hj hb⟩
    rintro e rfl
    simp [restActions, Action.moves, hj]
  · exact resumable_displayErase hj hb

/-! ## Where every command ends -/

theorem finish_notMem_frames (b : Build) (p : Phase) (f n : Nat) : Action.finish ∉ framesFrom b p f n := by
  simp [framesFrom, frameActions, rowsFrom, rowActions]

theorem finish_notMem_rows (b : Build) (p : Phase) (f r : Nat) : Action.finish ∉ rowsFrom b p f r := by
  simp [rowsFrom, rowActions]

theorem ends_updateSwap : Ends updateSwap := ⟨[.enter .swap, .swap, .enter .idle], rfl, by decide⟩

theorem ends_updatePowerOff : Ends updatePowerOff := ends_updateSwap.append (by decide)

theorem ends_updateDraw (b : Build) : Ends (updateDraw b) :=
  (ends_updatePowerOff.append (as := .enter .draw :: passActions b .draw)
    (by simpa [passActions] using finish_notMem_frames b .draw 0 _))

theorem ends_updateErase (b : Build) : Ends (updateErase b) :=
  ((ends_updateDraw b).append (as := passActions b .erase)
    (by simpa [passActions] using finish_notMem_frames b .erase 0 _)).append (by decide)

theorem ends_update (b : Build) : Ends (updateActions b) := (ends_updateErase b).append (by decide)

theorem ends_displayFill (b : Build) : Ends (displayFill b) := by
  refine ⟨[.enter .fill, .white .active] ++ (if b.eraseFillScope = .both then [.white .reference] else []) ++
    [.enter .idle], by simp [displayFill], ?_⟩
  split <;> decide

theorem ends_displayPowerOff (b : Build) : Ends (displayPowerOff b) :=
  (ends_displayFill b).append (by split <;> decide)

theorem ends_displayErase (b : Build) : Ends (displayErase b) :=
  ((ends_displayPowerOff b).append (as := .enter .erase :: passActions b .erase)
    (by simpa [passActions] using finish_notMem_frames b .erase 0 _))

theorem ends_display (b : Build) : Ends (displayActions b) := by
  simp only [displayActions]
  split
  · exact ((ends_displayErase b).append (as := [.enter .settleOn, .settle .on]) (by decide)).append (by decide)
  · exact ends_displayErase b

/-! ## What a waiting position leaves -/

/-- What is left of a pass can be resumed, and does not end the command. -/
theorem resumable_passRest {p : Phase} {k as : List Action} {s : State} {e : Event} (hp : PassAt p k s)
    (hb : buildOk s.build = true) (h : passRest s.build p s.frameCtr.toNat s.rowCtr.toNat e = some as) :
    Resumable k as s ∧ (∃ c d, as.foldl (fun t a => a.moves t) s = { s with frameCtr := c, rowCtr := d }) ∧
      .finish ∉ as := by
  have h1 := buildOk_sizes hb
  have h2 := buildOk_frames hb
  have hfr : passFrames s.build p ≤ 65536 := by cases p <;> simp only [passFrames] <;> omega
  have hh : s.build.h < 65536 := by omega
  have frames : ∀ c, Resumable k (framesFrom s.build p (s.frameCtr.toNat + 1) (passFrames s.build p))
      { s with rowCtr := c } ∧
      ∃ c' d, (framesFrom s.build p (s.frameCtr.toNat + 1) (passFrames s.build p)).foldl (fun t a => a.moves t)
        { s with rowCtr := c } = { s with frameCtr := c', rowCtr := d } := by
    intro c
    refine ⟨resumable_frames _ (s.frameCtr.toNat + 1) { s with rowCtr := c } (hp.congr rfl rfl rfl) hh hfr rfl, ?_⟩
    obtain ⟨c', d, hm⟩ := moves_frames p s.build (s.frameCtr.toNat + 1) (passFrames s.build p) { s with rowCtr := c }
    exact ⟨c', d, hm⟩
  have rows : ∀ r, r ≤ s.build.h →
      Resumable k (rowsFrom s.build p s.frameCtr.toNat r ++
        framesFrom s.build p (s.frameCtr.toNat + 1) (passFrames s.build p)) s ∧
      (∃ c d, (rowsFrom s.build p s.frameCtr.toNat r ++
        framesFrom s.build p (s.frameCtr.toNat + 1) (passFrames s.build p)).foldl (fun t a => a.moves t) s =
          { s with frameCtr := c, rowCtr := d }) ∧
      .finish ∉ rowsFrom s.build p s.frameCtr.toNat r ++
        framesFrom s.build p (s.frameCtr.toNat + 1) (passFrames s.build p) := by
    intro r hr
    obtain ⟨c, hc⟩ := moves_rows p s.frameCtr.toNat s.build r s
    obtain ⟨hres, c', d, hm⟩ := frames c
    refine ⟨Resumable.append (resumable_rows _ r s hp rfl hh rfl hr) (by rw [hc]; exact hres), ⟨c', d, ?_⟩, ?_⟩
    · rw [List.foldl_append, hc, hm]
    · simp [finish_notMem_rows, finish_notMem_frames]
  cases e with
  | pwrOn => simp [passRest] at h
  | pwrOff => simp [passRest] at h
  | scanStart =>
    obtain rfl : _ = as := Option.some.inj h
    exact rows 0 (Nat.zero_le _)
  | row bytes w =>
    simp only [passRest, Option.some.injEq] at h
    subst h
    by_cases hr : s.rowCtr.toNat < s.build.h
    · rw [if_pos hr]; exact rows _ hr
    · rw [if_neg hr, List.nil_append]
      obtain ⟨hres, hm⟩ := frames s.rowCtr
      exact ⟨hres, hm, finish_notMem_frames _ _ _ _⟩

/-- What a waiting command has left can be resumed in its turn, and ends the command. -/
theorem resumable_rest {s : State} {e : Event} {as : List Action} (hb : buildOk s.build = true)
    (h : restActions s e = some as) : Resumable [] as s ∧ Ends as := by
  simp only [restActions] at h
  split at h
  · cases h
  · next hj =>
    split at h <;> (try cases h)
    · split at h <;> cases h
      exact ⟨resumable_updateErase hj hb, ends_updateErase _⟩
    · next hs =>
      obtain ⟨as', ha, rfl⟩ := Option.map_eq_some_iff.1 h
      obtain ⟨hres, ⟨c, d, hm⟩, hf⟩ := resumable_passRest (k := updateDraw s.build) (fun t h1 h2 h3 e => by
        simp only [restActions, h2, hj, h3, hs, h1]) hb ha
      refine ⟨Resumable.append (by rwa [List.append_nil]) ?_, (ends_updateDraw _).append hf⟩
      rw [hm]
      exact resumable_updateDraw (s := { s with frameCtr := c, rowCtr := d }) hj hb
    · next hs =>
      obtain ⟨as', ha, rfl⟩ := Option.map_eq_some_iff.1 h
      obtain ⟨hres, ⟨c, d, hm⟩, hf⟩ := resumable_passRest (k := updatePowerOff) (fun t h1 h2 h3 e => by
        simp only [restActions, h2, hj, h3, hs, h1]) hb ha
      refine ⟨Resumable.append (by rwa [List.append_nil]) ?_, ends_updatePowerOff.append hf⟩
      rw [hm]
      exact resumable_updatePowerOff hj
    · split at h <;> cases h
      exact ⟨resumable_updateSwap _, ends_updateSwap⟩
  · next hj =>
    split at h <;> (try cases h)
    · split at h <;> cases h
      refine ⟨⟨fun _ he => he.elim, fun _ he => he.elim,
        resumable_displayErase (s := { s with seq := .settleOn }) hj hb⟩,
        (ends_displayErase _).append (as := [.enter .settleOn, .settle .on]) (by decide)⟩
    · next hs =>
      obtain ⟨as', ha, rfl⟩ := Option.map_eq_some_iff.1 h
      obtain ⟨hres, ⟨c, d, hm⟩, hf⟩ := resumable_passRest (k := displayPowerOff s.build) (fun t h1 h2 h3 e => by
        simp only [restActions, h2, hj, h3, hs, h1]) hb ha
      refine ⟨Resumable.append (by rwa [List.append_nil]) ?_, (ends_displayPowerOff _).append hf⟩
      rw [hm]
      exact resumable_displayPowerOff (s := { s with frameCtr := c, rowCtr := d }) hj
    · split at h <;> cases h
      exact ⟨resumable_displayFill _ _, ends_displayFill _⟩

end Sys2Proof.Machine
end

