-- ==== Sys2Proof/Laws/Step.lean ====
section
/-! SUPPORT. The laws of the step: everything one step can do, said once. -/

namespace Sys2Proof.Machine

theorem portFree_iff (s : State) : portFree s = true ↔ Idle s := by
  simp [portFree, Idle, and_assoc]

theorem portFree_false (s : State) : portFree s = false ↔ ¬ Idle s := by
  rw [← portFree_iff]; simp

theorem idle_tickReset (s : State) : Idle (tickReset s) ↔ Idle s := Iff.rfl

/-- No command stops: every one answers a next state (R24, R301). -/
theorem exec_next (i : Instr) (s : State) : ∃ t, exec i s = .next t := by
  cases i <;> simp only [exec, execNop, execInit, execSetRotation, execSetPixel, execFill, execDrawBitmap, execReadPixel,
    execUpdate, execEraseDisplay, execReadStatus, execReadInfo, execReadLut] <;>
    (try split) <;> (try split) <;> (try split) <;> exact ⟨_, rfl⟩

/-- A waiting command's step: it waits on, or goes on with the actions that its position leaves it. -/
theorem resume_some {s t : State} (h : resume s = some t) :
    ∃ e as, s.presented = some e ∧ restActions s e = some as ∧
      (((acknowledge s).presented.isSome = true ∧ t = acknowledge s) ∨
        ((acknowledge s).presented.isSome = false ∧ t = perform as (acknowledge s))) := by
  simp only [resume] at h
  split at h
  · cases h
  · next e he =>
    split at h
    · cases h
    · next as ha =>
      refine ⟨e, as, he, ha, ?_⟩
      split at h <;> simp_all

/-- With no reset awaited none is due while words are taken. -/
theorem resetWithin_none {s : State} (h : s.resetAfter = none) (n : Nat) : resetWithin n s = none := by
  simp [resetWithin, h]

/-- When a reset is due among the next `n` words, and which. -/
theorem resetWithin_some {s : State} {n k : Nat} : resetWithin n s = some k ↔ s.resetAfter = some k ∧ k ≤ n := by
  unfold resetWithin
  split
  · simp_all
  · split <;> simp_all
    · omega
    · intro h; subst h; omega

/-- The end of a command that waits for no acknowledgement (R44). -/
theorem endCommand_done {s : State} (h : s.presented = none) : endCommand s = { tickReset s with busy := false } := by
  simp [endCommand, h]

/-- A command that waits has not ended (R44). -/
theorem endCommand_waits {s : State} {e : Event} (h : s.presented = some e) : endCommand s = s := by
  simp [endCommand, h]

/-- Everything a step that answers a next state can have done. -/
theorem step_next {s t : State} (h : step s = .next t) :
    buildOk s.build = true ∧
      ((s.resetAfter = some 0 ∧ t = resetEvent s) ∨
        (s.resetAfter ≠ some 0 ∧ Idle s ∧
          ((∃ k, s.resetAfter = some k ∧ k ≤ wordsTaken s ∧ t = resetAfterWords k s) ∨
            (resetWithin (wordsTaken s) s = none ∧
              ((decode (offeredWords s) = .incomplete ∧ t = holdWords (elapse (max 1 (wordsTaken s)) s)) ∨
                (∃ why rest, decode (offeredWords s) = .illegal why rest ∧
                  t = endCommand (illegalPacket why (packetTaken rest (elapse (wordsTaken s) s)))) ∨
                ∃ i rest u, decode (offeredWords s) = .command i rest ∧
                  exec i (packetTaken rest (elapse (wordsTaken s) s)) = .next u ∧ t = endCommand u)))) ∨
        (s.resetAfter ≠ some 0 ∧ ¬ Idle s ∧ resume (tickReset s) = some t)) := by
  simp only [step, nextMove] at h
  by_cases hb : buildOk s.build = true
  · refine ⟨hb, ?_⟩
    rw [if_pos hb] at h
    by_cases hr : s.resetAfter = some 0
    · rw [if_pos hr] at h
      exact .inl ⟨hr, (Host.Outcome.next.inj h).symm⟩
    · rw [if_neg hr] at h
      by_cases hi : Idle s
      · rw [if_pos ((portFree_iff s).2 hi)] at h
        refine .inr (.inl ⟨hr, hi, ?_⟩)
        cases hw : resetWithin (wordsTaken s) s with
        | some k =>
          rw [hw] at h
          obtain ⟨h1, h2⟩ := resetWithin_some.1 hw
          exact .inl ⟨k, h1, h2, (Host.Outcome.next.inj h).symm⟩
        | none =>
          rw [hw] at h
          refine .inr ⟨rfl, ?_⟩
          simp only [takeWords] at h
          cases hd : decode (offeredWords s) with
          | command i rest =>
            rw [hd] at h
            obtain ⟨u, hu⟩ := exec_next i (packetTaken rest (elapse (wordsTaken s) s))
            simp only [hu] at h
            exact .inr (.inr ⟨i, rest, u, rfl, hu, (Host.Outcome.next.inj h).symm⟩)
          | illegal why rest =>
            rw [hd] at h
            exact .inr (.inl ⟨why, rest, rfl, (Host.Outcome.next.inj h).symm⟩)
          | incomplete =>
            rw [hd] at h
            exact .inl ⟨rfl, (Host.Outcome.next.inj h).symm⟩
      · rw [if_neg (by rw [portFree_iff]; exact hi)] at h
        refine .inr (.inr ⟨hr, hi, ?_⟩)
        cases hres : resume (tickReset s) with
        | none => simp [hres] at h
        | some u => rw [hres] at h; exact congrArg some (Host.Outcome.next.inj h)
  · rw [if_neg hb] at h; simp at h

end Sys2Proof.Machine
end

