-- ==== Sys2Proof/Laws/Transport.lean ====
section
/-! SUPPORT. The laws of the transport: a list of actions under a transport that acknowledges everything, enough, or too little
(R231; log 8). -/

namespace Sys2Proof.Machine

/-- `s` with another transport. -/
def onTransport (tr : Transport) (s : State) : State := { s with transport := tr }

/-- Whether an action emits an event. -/
def Action.isEmit : Action → Bool
  | .emitPwrOn => true
  | .emitPwrOff => true
  | .emitScan => true
  | .emitRow => true
  | .enter _ => false
  | .frame _ => false
  | .row _ => false
  | .build _ _ _ => false
  | .settle _ => false
  | .swap => false
  | .white _ => false
  | .finish => false

theorem samePos_onTransport (tr : Transport) (s : State) : SamePos s (onTransport tr s) := ⟨rfl, rfl, rfl, rfl, rfl⟩

/-- An emitting action presents its event, which depends on no transport, and lets the transport answer. -/
theorem act_isEmit {a : Action} (h : a.isEmit = true) (s : State) :
    ∃ e, a.emits e ∧ ∀ tr, act a (onTransport tr s) = emit e (onTransport tr s) := by
  cases a <;> simp [Action.isEmit] at h
  · exact ⟨_, rfl, fun _ => rfl⟩
  · exact ⟨_, rfl, fun _ => rfl⟩
  · exact ⟨_, rfl, fun _ => rfl⟩
  · exact ⟨rowEvent s, ⟨_, _, rfl⟩, fun _ => rfl⟩

/-- Every other action neither uses nor changes the transport or the port. -/
theorem act_notEmit {a : Action} (h : a.isEmit = false) (tr : Transport) (s : State) :
    act a (onTransport tr s) = onTransport tr (act a s) ∧ (act a s).presented = s.presented := by
  cases a <;> simp [Action.isEmit] at h <;> first
    | exact ⟨rfl, rfl⟩
    | exact ⟨by simp only [act, writeAll]; rename_i role; cases role <;> cases hs : s.activeSel <;>
        simp [bufferOf, onTransport, hs, spaceSize, setSpace], by simp [act]⟩

theorem resetAfter_act (a : Action) (s : State) : (act a s).resetAfter = s.resetAfter := by
  cases a <;> simp [act]

/-- While no reset is awaited a list goes on action by action until an event stays presented. -/
theorem perform_cons {s : State} (hr : s.resetAfter = none) (a : Action) (as : List Action) :
    perform (a :: as) s = if (act a s).presented.isSome then act a s else perform as (act a s) := by
  simp only [perform, hr, tickReset_none hr]

/-- `s` with an event acknowledged. -/
def acknowledged (e : Event) (s : State) : State := { s with presented := none, trace := s.trace ++ [.event e] }

theorem perform_notEmit {a : Action} (h : a.isEmit = false) {s : State} (hr : s.resetAfter = none) (hp : s.presented = none)
    (as : List Action) (tr : Transport) :
    perform (a :: as) (onTransport tr s) = perform as (onTransport tr (act a s)) := by
  rw [perform_cons (s := onTransport tr s) hr, (act_notEmit h tr s).1]
  have : (onTransport tr (act a s)).presented = none := (act_notEmit h tr s).2.trans hp
  simp only [this, Option.isSome_none, Bool.false_eq_true, if_false]

/-- An emitting action at the head of a list, under each transport: it stops, or goes on with one acknowledgement less. -/
theorem perform_isEmit {a : Action} (h : a.isEmit = true) {s : State} (hr : s.resetAfter = none) (as : List Action) :
    ∃ e, a.emits e ∧
      perform (a :: as) (onTransport (.acksLeft 0) s) = present e (onTransport (.acksLeft 0) s) ∧
      (∀ k, perform (a :: as) (onTransport (.acksLeft (k + 1)) s) =
        perform as (onTransport (.acksLeft k) (acknowledged e s))) ∧
      perform (a :: as) (onTransport .ready s) = perform as (onTransport .ready (acknowledged e s)) := by
  obtain ⟨e, he, hact⟩ := act_isEmit h s
  refine ⟨e, he, ?_, fun k => ?_, ?_⟩ <;> rw [perform_cons (s := onTransport _ s) (by exact hr), hact] <;> rfl

/-- A transport that acknowledges enough events is, but for its count, one that acknowledges all. -/
theorem perform_served :
    ∀ (as : List Action) (s : State) (m : Nat), s.resetAfter = none → s.presented = none →
      (as.filter Action.isEmit).length ≤ m →
      perform as (onTransport (.acksLeft m) s) =
        onTransport (.acksLeft (m - (as.filter Action.isEmit).length)) (perform as (onTransport .ready s))
  | [], _, _, _, _, _ => rfl
  | a :: as, s, m, hr, hp, hm => by
    cases ha : a.isEmit with
    | false =>
      rw [List.filter_cons_of_neg (by simp [ha])] at hm ⊢
      rw [perform_notEmit ha hr hp, perform_notEmit ha hr hp]
      exact perform_served as (act a s) m ((resetAfter_act a s).trans hr) ((act_notEmit ha .ready s).2.trans hp) hm
    | true =>
      rw [List.filter_cons_of_pos ha] at hm ⊢
      simp only [List.length_cons] at hm ⊢
      obtain ⟨m, rfl⟩ : ∃ k, m = k + 1 := ⟨m - 1, by omega⟩
      obtain ⟨e, -, -, more, all⟩ := perform_isEmit ha hr as
      rw [more, all, Nat.add_sub_add_right]
      exact perform_served as (acknowledged e s) m hr rfl (by omega)

/-- A resumable list that a transport of `n` acknowledgements leaves waiting: the position says what is left, and with the event
acknowledged the rest goes on as the whole list does with the acknowledgements taken together. -/
theorem perform_resumed :
    ∀ (as : List Action) (s : State) (n : Nat) (e : Event), s.resetAfter = none → s.presented = none →
      Resumable [] as s → (perform as (onTransport (.acksLeft n) s)).presented = some e →
      (perform as (onTransport (.acksLeft n) s)).transport = .acksLeft 0 ∧
      ∃ rest, restActions (perform as (onTransport (.acksLeft n) s)) e = some rest ∧
        perform rest (acknowledge (onTransport .ready (perform as (onTransport (.acksLeft n) s)))) =
          perform as (onTransport .ready s) ∧
        ∀ m, perform rest (acknowledge (onTransport (.acksLeft (m + 1)) (perform as (onTransport (.acksLeft n) s)))) =
          perform as (onTransport (.acksLeft (n + (m + 1))) s)
  | [], s, n, e, _, hp, _, h => by simp [perform, onTransport, hp] at h
  | a :: as, s, n, e, hr, hp, hres, h => by
    cases ha : a.isEmit with
    | false =>
      simp only [perform_notEmit ha hr hp] at h ⊢
      exact perform_resumed as (act a s) n e ((resetAfter_act a s).trans hr) ((act_notEmit ha .ready s).2.trans hp)
        (hres.2.congr (samePos_act a s)) h
    | true =>
      obtain ⟨e', he', stop, more, all⟩ := perform_isEmit ha hr as
      have moves : a.moves s = s := by cases a <;> first | rfl | simp [Action.isEmit] at ha
      cases n with
      | zero =>
        rw [stop] at h ⊢
        obtain rfl : e' = e := Option.some.inj h
        refine ⟨rfl, as, ?_, by rw [all]; rfl, fun m => by rw [Nat.zero_add, more]; rfl⟩
        have hpos : SamePos (a.moves s) (present e' (onTransport (.acksLeft 0) s)) := by
          rw [moves]; exact ⟨rfl, rfl, rfl, rfl, rfl⟩
        rw [hpos.rest, hres.1 _ he', List.append_nil]
      | succ n =>
        simp only [more] at h ⊢
        have hpos : SamePos (a.moves s) (acknowledged e' s) := by rw [moves]; exact ⟨rfl, rfl, rfl, rfl, rfl⟩
        obtain ⟨h0, rest, h1, h2, h3⟩ := perform_resumed as (acknowledged e' s) n e hr rfl (hres.2.congr hpos) h
        refine ⟨h0, rest, h1, by rw [all]; exact h2, fun m => ?_⟩
        rw [h3, show n + 1 + (m + 1) = (n + (m + 1)) + 1 by omega, more]

end Sys2Proof.Machine
end

