-- ==== Sys2Proof/Tests/Slice0.lean ====
section
/-! SUPPORT. The model's own tests: ill-formed terms and builds refused, a word of every row decoded, one step of every command on
the spec's vectors, and a witness for every statement that has hypotheses. Expected values are spec/95_test_vectors.md's (named by
section and row) or the worked examples of the rules named; none is read off the model. -/

namespace Sys2Proof.Tests

open Sys2Proof Sys2Proof.Machine

/-! ## Small states -/

/-- Bytes from index 0 on. -/
def bytesAt0 (bs : List Byte) : Memory := bs.zipIdx.map fun c => (c.2, c.1)

/-- TC1 after reset with the framebuffers as given. -/
def buffers (fb0 fb1 : List Byte) : State :=
  { State.resetOf Build.tc1 0 with fb0 := bytesAt0 fb0, fb1 := bytesAt0 fb1 }

/-- The entries of L2.8.1 that the refresh tests read: erase 0x00 and 0xFF, draw 0x00. -/
def tables (s : State) : State :=
  { s with
    lutValid := true, lutE := [(0, 0xFF), (1, 0xAA), (510, 0x00), (511, 0x55)], lutD := [(0, 0x55), (1, 0x00), (2, 0xFF)] }

/-- The host has offered words. -/
def offered (ws : List Word) (s : State) : State := { s with cmdChan := ws }

/-- A READ_STATUS taken, and a reset due right after its one word. -/
def resetInReadStatus : State := { offered [0x30000000, 0x00000000] State.reset with resetAfter := some 1 }

/-- An UPDATE waiting for the transport at row 0 of erase frame 0. -/
def waitingUpdate : State :=
  { tables (buffers [0, 0, 0, 0] [0xFF, 0xFF, 0xFF, 0xFF]) with
    job := .update, seq := .erase, frameCtr := 0, rowCtr := 0, srcSize := 4, busy := true,
    rowbuf := bytesAt0 [0, 0], presented := some (.row [0, 0] 8), transport := .acksLeft 0,
    trace := [.event .pwrOn, .settle .on, .event .scanStart, .event (.row [0, 0] 8)] }

/-- A field of the next state, if there is one. -/
def after {α : Type} (o : Host.Outcome State Fault Refusal) (f : State → α) : Option α :=
  match o with
  | .next t => some (f t)
  | .fault _ => none
  | .refused _ => none

/-- The first four bytes of a space. -/
def four (sp : Space) (s : State) : List Byte := (List.range 4).map fun a => readByte sp a s

/-! ## Ill-formed terms and builds are refused -/

theorem test_wf_bitmap_exact : (Instr.drawBitmap 0 0 9 3 0 [0, 0, 0, 0, 0, 0]).wf = true := by decide
theorem test_wf_bitmap_short : (Instr.drawBitmap 0 0 9 3 0 [0, 0, 0, 0, 0]).wf = false := by decide
theorem test_wf_bitmap_long : (Instr.drawBitmap 0 0 9 3 0 [0, 0, 0, 0, 0, 0, 0]).wf = false := by decide
theorem test_wf_bitmap_empty : (Instr.drawBitmap 0 0 0 5 0 []).wf = true ∧ (Instr.drawBitmap 0 0 0 5 0 [0]).wf = false := by
  decide

theorem test_build_tc1 : buildOk Build.tc1 = true := by decide
theorem test_build_width : buildOk { Build.tc1 with w := 6 } = false ∧ buildOk { Build.tc1 with w := 0 } = false ∧
    buildOk { Build.tc1 with w := 32768 } = false := by decide
theorem test_build_height : buildOk { Build.tc1 with h := 0 } = false ∧ buildOk { Build.tc1 with h := 32768 } = false := by
  decide
theorem test_build_frames : buildOk { Build.tc1 with e := 0, eraseSeed := [] } = false ∧
    buildOk { Build.tc1 with d := 1, drawSeed := [⟨1, 1, 2, 2⟩] } = false ∧
    buildOk { Build.tc1 with e := 3 } = false := by decide
theorem test_build_sentinels : buildOk { Build.tc1 with sDarkGrey := 0x0000 } = false := by decide
/-- L2.1: "A build with `T3 = 94` would violate it". -/
theorem test_build_thresholds : buildOk { Build.tc1 with t3 := 94 } = false ∧ buildOk { Build.tc1 with t1 := 0 } = false ∧
    buildOk { Build.tc1 with t3 := 126 } = false := by decide
/-- D34, U17: an ill-formed build is refused by name. -/
theorem test_step_refuses_build :
    step { State.reset with build := { Build.tc1 with h := 0 } } = .refused .illFormedBuild := rfl

/-! ## Decoding (L2.12, R103 to R116) -/

theorem test_decode_nop : decode [0x00000000] = .command .nop [] := by decide
theorem test_decode_init : decode [0x01000000] = .command .init [] := by decide
theorem test_decode_setRotation : decode [0x02000002] = .command (.setRotation 2) [] := by decide
theorem test_decode_setPixel : decode [0x1000FFFF, 0x00010003, 0x20000000] = .command (.setPixel 3 1 0xFFFF) [0x20000000] := by
  decide
theorem test_decode_fill : decode [0x11007BEF] = .command (.fill 0x7BEF) [] := by decide
theorem test_decode_drawBitmap : decode [0x12000000, 0x0006FFFF, 0x00030003, 0x00E040A0] =
    .command (.drawBitmap (-1) 6 3 3 0x0000 [0xA0, 0x40, 0xE0]) [] := by decide
theorem test_decode_readPixel : decode [0x13000000, 0x00010005] = .command (.readPixel .active 5 1) [] ∧
    decode [0x13000001, 0x00000002] = .command (.readPixel .reference 2 0) [] := by decide
theorem test_decode_update : decode [0x20000000] = .command .update [] := by decide
theorem test_decode_eraseDisplay : decode [0x21000000] = .command .eraseDisplay [] := by decide
theorem test_decode_readStatus : decode [0x30000000] = .command .readStatus [] := by decide
theorem test_decode_readInfo : decode [0x31000002] = .command (.readInfo 2) [] := by decide
theorem test_decode_readLut : decode [0x3200FF00, 0x00000001] = .command (.readLut .erase 0xFF 1) [] ∧
    decode [0x32013600, 0x00000001] = .command (.readLut .draw 0x36 1) [] := by decide

/-- L2.11 row 3: an undefined opcode takes one word. -/
theorem test_decode_undefined : decode [0x7F000000, 0x30000000] = .illegal .undefinedOpcode [0x30000000] := by decide
/-- L2.6, L2.8.3, L2.11: reserved bits of the command word and of READ_LUT's argument. -/
theorem test_decode_reserved : decode [0x13000002, 0x00000000] = .illegal (.reservedBits .readPixel) [] ∧
    decode [0x32013601, 0x00000000] = .illegal (.reservedBits .readLut) [] ∧
    decode [0x32003600, 0x00010000] = .illegal (.reservedBits .readLut) [] ∧
    decode [0x02000004] = .illegal (.reservedBits .setRotation) [] ∧
    decode [0x30000001] = .illegal (.reservedBits .readStatus) [] := by decide
theorem test_decode_incomplete : decode [] = .incomplete ∧ decode [0x10000000] = .incomplete ∧
    decode [0x12000000, 0x00000000, 0x00010001] = .incomplete := by decide
/-- L2.12: `BW = 9`, `BH = 3` is five words in all. -/
theorem test_packet_length : packetLength [0x12000000, 0x00000000, 0x00030009] = 5 := by decide

/-- L2.12: a one-word row, and READ_PIXEL whose second word is the number's high half. -/
theorem test_table_word : decodeTableWord 32 0x02000002 = some (.setRotation 2) ∧
    decodeTableWord 64 0x0001000513000000 = some (.readPixel .active 5 1) ∧ decodeTableWord 32 0x7F000000 = none := by decide
theorem test_fetch_word : after (step (State.reset.withFetchWord 32 0x02000002)) State.rotation = some 2 := by decide

/-! ## Operand forms -/

/-- L2.1, at and around the thresholds. -/
theorem test_classify : classify Build.tc1 0xF800 = 0 ∧ classify Build.tc1 0x0400 = 1 ∧ classify Build.tc1 0xF81F = 1 ∧
    classify Build.tc1 0x07E0 = 2 ∧ classify Build.tc1 0xFFE2 = 2 ∧ classify Build.tc1 0xFFE3 = 3 := by decide
/-- L2.2, a corner of each rotation. -/
theorem test_address : addrByte Build.tc1 1 1 1 = 3 ∧ addrField Build.tc1 1 1 1 = 2 ∧ addrByte Build.tc1 2 1 1 = 1 ∧
    addrField Build.tc1 2 1 1 = 2 ∧ addrByte Build.tc1 3 1 7 = 1 ∧ addrField Build.tc1 3 1 7 = 3 := by decide
/-- L2.8.1, the rows 0x36 and 0x1B. -/
theorem test_expand : expand Build.tc1 .erase 0x36 0 = 0xC6 ∧ expand Build.tc1 .erase 0x36 1 = 0x99 ∧
    expand Build.tc1 .draw 0x36 0 = 0x66 ∧ expand Build.tc1 .draw 0x36 2 = 0xFF ∧ expand Build.tc1 .erase 0x1B 0 = 0xD8 := by
  decide

/-! ## One step of each command -/

/-- L2.7 row 7. -/
theorem test_nop : after (exec .nop State.reset) State.rotation = some 0 := by decide

set_option maxRecDepth 20000 in
/-- L2.8.1, 0x00: `LUT_E[0][0]`, `LUT_E[0][1]`, `LUT_D[0][1]`. -/
theorem test_init : after (exec .init State.reset) (fun t => (t.lutValid, readTable .erase 0 0 t, readTable .erase 0 1 t,
    readTable .draw 0 1 t)) = some (true, 0xFF, 0xAA, 0x00) := by decide

/-- L2.7 row 9. -/
theorem test_setRotation : after (exec (.setRotation 3) State.reset) statusWord = some 0x0000000C := by decide

/-- L2.3 row 2, and row 7 at rotation 1. -/
theorem test_setPixel : after (exec (.setPixel 3 1 0xFFFF) (buffers [0, 0, 0, 0] [0x99, 0x99, 0x99, 0x99])) (four .fb0) =
    some [0x00, 0x00, 0x03, 0x00] := by decide
theorem test_setPixel_rotated : after (exec (.setPixel 1 0 0xC618)
    { buffers [0xFF, 0xFF, 0xFF, 0xFF] [] with rotation := 1 }) (four .fb0) = some [0xFF, 0xFF, 0xFF, 0xFE] := by decide

/-- L2.4, metric 63, with `FB1` active. -/
theorem test_fill : after (exec (.fill 0x07E0)
    { buffers [0x12, 0x34, 0x56, 0x78] [0x9A, 0x9A, 0x9A, 0x9A] with activeSel := true })
    (fun t => (four .fb0 t, four .fb1 t)) = some ([0x12, 0x34, 0x56, 0x78], [0xAA, 0xAA, 0xAA, 0xAA]) := by decide

/-- L2.5 row 2, clipped on the left, and row 4, at rotation 1. -/
theorem test_drawBitmap : after (exec (.drawBitmap (-2) 0 4 1 0x0000 [0xA0]) (buffers [0xFF, 0xFF, 0xFF, 0xFF] []))
    (four .fb0) = some [0xCF, 0xFF, 0xFF, 0xFF] := by decide
theorem test_drawBitmap_rotated : after (exec (.drawBitmap 0 6 2 3 0x0000 [0x80, 0x40, 0xC0])
    { buffers [0x55, 0x55, 0x55, 0x55] [] with rotation := 1 }) (four .fb0) = some [0x35, 0x55, 0xC5, 0x55] := by decide

/-- L2.6: READ_PIXEL.REF 5, 1, and READ_PIXEL -1, 0. -/
theorem test_readPixel : after (exec (.readPixel .reference 5 1) (buffers [0x1B, 0xE4, 0x36, 0xC9] [0x00, 0xFF, 0x55, 0xAA]))
    State.results = some [0x00000002] := by decide
theorem test_readPixel_outside : after (exec (.readPixel .active (-1) 0) (buffers [0x1B, 0xE4, 0x36, 0xC9] []))
    State.results = some [0x80000000] := by decide

/-- R250's example: its trace, and the swap. -/
theorem test_update : after (exec .update (tables (buffers [0, 0, 0, 0] [0xFF, 0xFF, 0xFF, 0xFF])))
    (fun t => (t.trace, t.activeSel)) = some
    ([.event .pwrOn, .settle .on,
      .event .scanStart, .event (.row [0x00, 0x00] 8), .event (.row [0x00, 0x00] 8), .event (.row [0x00, 0x00] 8),
      .event .scanStart, .event (.row [0x55, 0x55] 8), .event (.row [0x55, 0x55] 8), .event (.row [0x55, 0x55] 8),
      .event .scanStart, .event (.row [0x55, 0x55] 8), .event (.row [0x55, 0x55] 8), .event (.row [0x55, 0x55] 8),
      .event .scanStart, .event (.row [0x00, 0x00] 8), .event (.row [0x00, 0x00] 8), .event (.row [0x00, 0x00] 8),
      .settle .off, .event .pwrOff], true) := by decide

/-- R231, R250: a transport that stops after three events leaves the command part-way, with no swap. -/
theorem test_update_waits : after (exec .update
    { tables (buffers [0, 0, 0, 0] [0xFF, 0xFF, 0xFF, 0xFF]) with transport := .acksLeft 3 })
    (fun t => (t.trace.length, t.presented, t.busy, t.activeSel)) =
    some (5, some (.row [0x00, 0x00] 8), true, false) := by decide

/-- L3.3 step 4: the trace, and the fill of the active buffer alone. -/
theorem test_eraseDisplay : after (exec .eraseDisplay (tables (buffers [0x1B, 0xE4, 0x36, 0xC9] [0x00, 0xFF, 0x55, 0xAA])))
    (fun t => (t.trace, four .fb0 t, four .fb1 t)) = some
    ([.event .pwrOn, .settle .on,
      .event .scanStart, .event (.row [0x00, 0x00] 8), .event (.row [0x00, 0x00] 8), .event (.row [0x00, 0x00] 8),
      .event .scanStart, .event (.row [0x55, 0x55] 8), .event (.row [0x55, 0x55] 8), .event (.row [0x55, 0x55] 8),
      .settle .off, .event .pwrOff], [0xFF, 0xFF, 0xFF, 0xFF], [0x00, 0xFF, 0x55, 0xAA]) := by decide

/-- R16, R255: a BARE build emits the erase pass alone. -/
theorem test_eraseDisplay_bare : after (exec .eraseDisplay
    { tables (buffers [0, 0, 0, 0] []) with build := { Build.tc1 with erasePower := .bare } })
    (fun t => t.trace.length) = some 8 := by decide

/-- L2.7 row 12. -/
theorem test_readStatus : after (exec .readStatus { State.reset with rotation := 3, err := 1 }) State.results =
    some [0x0000001C] := by decide

/-- L2.7 rows 2 and 6. -/
theorem test_readInfo : after (exec (.readInfo 0) State.reset) State.results = some [0x00020008] := by decide
theorem test_readInfo_visible : after (exec (.readInfo 2) { State.reset with rotation := 1 }) State.results =
    some [0x00080002] := by decide

/-- L2.8.3: the padding entry, and `FRAME = E`. -/
theorem test_readLut : after (exec (.readLut .erase 0xFF 1) (tables State.reset)) State.results = some [0x00000055] := by decide
theorem test_readLut_frame : after (exec (.readLut .erase 0x36 2) (tables State.reset)) (fun t => (t.results, t.err)) =
    some ([0x00000000], 3) := by decide

/-- R44: `BUSY` is 1 on the state on which a command executes, and 0 once it has completed. -/
theorem test_step_busy : (packetTaken [] State.reset).busy = true ∧
    after (step (offered [0x02000002] State.reset)) (fun t => (t.rotation, t.busy)) = some (2, false) := by decide

/-- R340: a reset inside READ_STATUS (its word taken) and inside READ_PIXEL (one word of its two) leaves no result word. -/
theorem test_step_reset_in_read : after (step resetInReadStatus) (fun t => (t.results, t.cmdChan, t.busy)) =
      some ([], [0x00000000], false) ∧
    after (step { offered [0x13000000, 0x00010005] State.reset with resetAfter := some 1 })
      (fun t => (t.results, t.asm, t.busy)) = some ([], [], false) := by decide

/-- L2.11 row 3, its first command: one word taken, no result word, `ERR = 1`. -/
theorem test_step_undefined : after (step (offered [0x7F000000, 0x31000003] State.reset))
    (fun t => (t.err, t.results, t.cmdChan)) = some (1, [], [0x31000003]) := by decide

/-! ## Witnesses: states and operands that meet the hypotheses of each statement -/

theorem idle_reset : Idle State.reset := ⟨rfl, rfl, rfl⟩

theorem witness_DecodeOfEncode : (Instr.drawBitmap (-1) 6 3 3 0 [0xA0, 0x40, 0xE0]).wf = true ∧
    (Instr.drawBitmap 0 0 0 5 0 []).wf = true ∧ (Instr.readLut .draw 0xFF 0xFFFF).wf = true := by decide

/-- A command without payload, and a DRAW_BITMAP of six bytes whose last word has padding that is not 0. -/
theorem witness_EncodeOfDecode : (∃ i rest, decode [0x32013600, 0x00000001, 0x30000000] = .command i rest) ∧
    decode [0x12000000, 0x00000000, 0x00030009, 0x44332211, 0xABCD6655] =
      .command (.drawBitmap 0 0 9 3 0 [0x11, 0x22, 0x33, 0x44, 0x55, 0x66]) [] ∧ 5 < bitmapByteCount 9 3 :=
  ⟨⟨.readLut .draw 0x36 1, [0x30000000], by decide⟩, by decide, by decide⟩

theorem witness_PacketLengthFormula : (Instr.drawBitmap 0 0 9 3 0 [0, 0, 0, 0, 0, 0]).wf = true ∧
    (Instr.setRotation 3).opcode ≠ .drawBitmap ∧ opcodeOf (opField 0x7F000000) = none := by decide

theorem witness_PayloadIsLittleEndian : 6 < 7 ∧ 7 ≤ 4 * [0x00E040A0#32, 0x00030201#32].length ∧
    (payloadBytes 7 [0x00E040A0, 0x00030201])[6]? = some 0x03 := by decide

theorem witness_UndefinedOpcode : ∃ s : State, buildOk s.build = true ∧ Idle s ∧ s.resetAfter = none ∧
    offeredWords s = [0xFF000000, 0x31000003] ∧ opcodeOf (opField 0xFF000000) = none :=
  ⟨offered [0xFF000000, 0x31000003] State.reset, by decide, idle_reset, rfl, rfl, by decide⟩

/-- Both clauses: a reserved bit of the command word, and the lowest one of READ_LUT's argument. -/
theorem witness_ReservedBit : ∃ s s' : State,
    (buildOk s.build = true ∧ Idle s ∧ s.resetAfter = none ∧ offeredWords s = [0x31000004] ∧
      opcodeOf (opField 0x31000004) = some .readInfo ∧ packetLength [0x31000004] ≤ 1 ∧
      0x31000004#32 &&& (opRow .readInfo).mask ≠ (opRow .readInfo).pattern) ∧
    (buildOk s'.build = true ∧ Idle s' ∧ s'.resetAfter = none ∧ offeredWords s' = [0x32003600, 0x00010000] ∧
      opcodeOf (opField 0x32003600) = some .readLut ∧ packetLength [0x32003600, 0x00010000] ≤ 2 ∧
      highHalf 0x00010000 ≠ 0) :=
  ⟨offered [0x31000004] State.reset, offered [0x32003600, 0x00010000] State.reset,
    ⟨by decide, idle_reset, rfl, rfl, by decide, by decide, by decide⟩,
    ⟨by decide, idle_reset, rfl, rfl, by decide, by decide, by decide⟩⟩

/-- Both clauses: no reset awaited, and one awaited after the packet's last word. -/
theorem witness_StepRuns : ∃ s s' : State,
    (buildOk s.build = true ∧ Idle s ∧ decode (offeredWords s) = .command (.setRotation 2) [] ∧ s.resetAfter = none) ∧
    (buildOk s'.build = true ∧ Idle s' ∧ decode (offeredWords s') = .command (.setRotation 2) [] ∧
      s'.resetAfter = some 2 ∧ s'.cmdChan.length - ([] : List Word).length < 2) :=
  ⟨offered [0x02000002] State.reset, { offered [0x02000002] State.reset with resetAfter := some 2 },
    ⟨by decide, idle_reset, by decide, rfl⟩, ⟨by decide, idle_reset, by decide, rfl, by decide⟩⟩

theorem witness_OfferedCommandRuns : ∃ s : State, buildOk s.build = true ∧ Idle s ∧ s.resetAfter = none ∧ s.asm = [] ∧
    s.cmdChan = encode (.setPixel 3 1 0xFFFF) ++ [0] ∧ (Instr.setPixel 3 1 0xFFFF).wf = true :=
  ⟨offered [0x1000FFFF, 0x00010003, 0] State.reset, by decide, idle_reset, rfl, rfl, by decide, rfl⟩

theorem witness_SplitPacket : buildOk State.reset.build = true ∧ Idle State.reset ∧ State.reset.resetAfter = none ∧
    State.reset.asm = [] ∧ decode [0x10000000] = .incomplete ∧ decode ([0x10000000] ++ [0]) = .command (.setPixel 0 0 0) [] :=
  ⟨by decide, idle_reset, rfl, rfl, by decide, by decide⟩

theorem witness_IdleBlockWaits : buildOk State.reset.build = true ∧ Idle State.reset ∧ State.reset.resetAfter = none ∧
    State.reset.asm = [] ∧ State.reset.cmdChan = [] ∧ State.reset.busy = false :=
  ⟨by decide, idle_reset, rfl, rfl, rfl, rfl⟩

/-- One build beyond each of the seven ranges, at its boundary. -/
theorem witness_IllFormedBuild :
    ¬ (6 % 4 = 0 ∧ 4 ≤ 6 ∧ 6 ≤ 32764) ∧ ¬ (1 ≤ 32768 ∧ 32768 ≤ 32767) ∧ ¬ (1 ≤ 0 ∧ 0 ≤ 65535) ∧ ¬ (2 ≤ 1 ∧ 1 ≤ 65535) ∧
    ¬ [0x0000#16, 0x0000, 0xC618, 0xFFFF].Nodup ∧ ¬ (0 < 32 ∧ 32 < 63 ∧ 63 < 97 ∧ 126 ≤ 125) ∧
    band { Build.tc1 with t3 := 94 } (metric Build.tc1.sLightGrey) ≠ 2 := by decide

theorem waiting_waitingUpdate : Waiting waitingUpdate := ⟨.row [0, 0] 8, _, rfl, rfl⟩

theorem witness_HungTransport : buildOk waitingUpdate.build = true ∧ Waiting waitingUpdate ∧
    waitingUpdate.resetAfter = none ∧ waitingUpdate.transport = .acksLeft 0 :=
  ⟨by decide, waiting_waitingUpdate, rfl, rfl⟩

theorem witness_RunningCommand : ¬ Idle waitingUpdate ∧ ∃ t, step waitingUpdate = .next t :=
  ⟨fun h => (nomatch h.1), _, rfl⟩

theorem witness_ResetInput : ∃ s : State, buildOk s.build = true ∧ s.resetAfter = some 0 ∧ s.presented ≠ none :=
  ⟨{ waitingUpdate with resetAfter := some 0 }, by decide, rfl, by decide⟩

/-- Both refreshes: the first action before which a reset can abandon one of TC1, and the last of UPDATE's 54 and of
ERASE_DISPLAY's 33. -/
theorem witness_ResetAbandonsRefresh (x : Refresh) (k : Nat)
    (h : (x = updateRefresh (tables State.reset) ∧ (k = 0 ∨ k = 53)) ∨
      (x = displayRefresh (tables State.reset) ∧ (k = 0 ∨ k = 32))) :
    let s : State := { tables State.reset with resetAfter := some k }
    x ∈ refreshes s ∧ buildOk s.build = true ∧ s.lutValid = true ∧ s.presented = none ∧ s.resetAfter = some k ∧
      k < x.actions.length ∧ (doAll (x.actions.take k) (x.start s)).presented = none := by
  rcases h with ⟨rfl, rfl | rfl⟩ | ⟨rfl, rfl | rfl⟩ <;>
    exact ⟨by simp [refreshes]; first | exact .inl rfl | exact .inr rfl, by decide, rfl, rfl, rfl, by decide, rfl⟩

/-- The clause about a refresh that goes on: the waiting UPDATE, with a reset right after its acknowledgement and one before its
last action. -/
theorem witness_ResetAbandonsResumed (k : Nat) (h : k = 0 ∨ k = 43) :
    let s : State := { waitingUpdate with transport := .ready, resetAfter := some (k + 1) }
    buildOk s.build = true ∧ ∃ e rest, s.presented = some e ∧ restActions s e = some rest ∧
      s.resetAfter = some (k + 1) ∧ k < rest.length ∧ (doAll (rest.take k) (acknowledge s)).presented = none := by
  rcases h with rfl | rfl <;> exact ⟨by decide, .row [0, 0] 8, _, rfl, rfl, rfl, by decide, rfl⟩

/-- A command, an illegal packet and part of a packet, each with a reset after the last word taken. -/
theorem witness_ResetAbandonsTakenPacket :
    (decode (offeredWords resetInReadStatus) = .command .readStatus [0] ∧ resetInReadStatus.resetAfter = some 1 ∧
      1 ≤ resetInReadStatus.cmdChan.length - [(0 : Word)].length ∧ Idle resetInReadStatus ∧
      buildOk resetInReadStatus.build = true) ∧
    (∃ s : State, buildOk s.build = true ∧ Idle s ∧ s.resetAfter = some 2 ∧
      decode (offeredWords s) = .illegal (.reservedBits .readLut) [] ∧ 2 ≤ s.cmdChan.length - ([] : List Word).length) ∧
    ∃ s : State, buildOk s.build = true ∧ Idle s ∧ s.resetAfter = some 2 ∧ decode (offeredWords s) = .incomplete ∧
      2 ≤ s.cmdChan.length :=
  ⟨⟨by decide, rfl, by decide, idle_reset, by decide⟩,
    ⟨{ offered [0x32003600, 0x00010000] State.reset with resetAfter := some 2 },
      by decide, idle_reset, rfl, by decide, by decide⟩,
    ⟨{ offered [0x12000000, 0x00000000] State.reset with resetAfter := some 2 },
      by decide, idle_reset, rfl, by decide, by decide⟩⟩

theorem witness_ReadInfo : buildOk State.reset.build = true ∧ (0 : BitVec 2) ≠ 3 ∧ (2 : BitVec 2) ≠ 3 ∧
    State.reset.rotation = 0 ∧ { State.reset with rotation := 3 }.rotation = 3 := by decide

/-- The last visible pixel, at rotations 0 and 1. -/
theorem witness_SetPixel : inVis Build.tc1 0 7 1 = true ∧ inVis Build.tc1 1 1 7 = true := by decide

/-- The first invisible coordinates on each side. -/
theorem witness_SetPixelOutside : inVis Build.tc1 0 8 0 = false ∧ inVis Build.tc1 0 0 2 = false ∧
    inVis Build.tc1 0 (-1) 0 = false ∧ inVis Build.tc1 1 2 0 = false ∧
    inVis Build.tc1 0 (0x8000 : BitVec 16).toInt 0 = false := by decide

theorem witness_FillThenRead : ∃ t, buildOk State.reset.build = true ∧ exec (.fill 0x07E0) State.reset = .next t ∧
    inVis State.reset.build 3 (1 : BitVec 16).toInt (7 : BitVec 16).toInt = true :=
  ⟨_, by decide, rfl, by decide⟩

/-- A covered pixel, an uncovered one, a byte of the active buffer that no covered pixel names, and another space. -/
theorem witness_DrawBitmap : buildOk State.reset.build = true ∧ (Instr.drawBitmap (-2) 0 4 1 0 [0xA0]).wf = true ∧
    inVis Build.tc1 0 1 0 = true ∧ Covers (-2) 0 4 1 1 0 ∧ inVis Build.tc1 0 2 0 = true ∧ ¬ Covers (-2) 0 4 1 2 0 ∧
    (∀ x y : Int, inVis Build.tc1 0 x y = true → Covers (-2) 0 4 1 x y → 1 ≠ addrByte Build.tc1 0 x y) ∧
    Space.fb1 ≠ bufferOf .active State.reset := by
  refine ⟨by decide, by decide, by decide, by simp [Covers], by decide, by simp [Covers], fun x y hv hc => ?_, by decide⟩
  have hx : x = 0 ∨ x = 1 := by
    simp [inVis, visW, visH, Build.tc1] at hv
    simp [Covers] at hc
    omega
  obtain rfl : y = 0 := by
    simp [Covers] at hc
    omega
  rcases hx with rfl | rfl <;> decide

theorem witness_ReadPixel : inVis State.reset.build State.reset.rotation (7 : BitVec 16).toInt (1 : BitVec 16).toInt = true ∧
    inVis State.reset.build State.reset.rotation (8 : BitVec 16).toInt (1 : BitVec 16).toInt = false := by decide

theorem witness_SetPixelThenRead : ∃ t, buildOk State.reset.build = true ∧
    inVis State.reset.build State.reset.rotation (7 : BitVec 16).toInt (1 : BitVec 16).toInt = true ∧
    inVis State.reset.build State.reset.rotation (6 : BitVec 16).toInt (1 : BitVec 16).toInt = true ∧
    exec (.setPixel 7 1 0x7BEF) State.reset = .next t :=
  ⟨_, by decide, by decide, by decide, rfl⟩

theorem witness_Classifier : buildOk Build.tc1 = true ∧ metric 0x07E0 ≤ metric 0xFFE3 := by decide

/-- A corner at each rotation; the address hypotheses of the last clause are met by a pixel and itself. -/
theorem witness_Rotation : buildOk Build.tc1 = true ∧ inVis Build.tc1 0 7 1 = true ∧ inVis Build.tc1 1 1 7 = true ∧
    inVis Build.tc1 2 7 1 = true ∧ inVis Build.tc1 3 1 7 = true ∧ 7 < Build.tc1.w ∧ 1 < Build.tc1.h ∧
    addrByte Build.tc1 1 1 7 = addrByte Build.tc1 1 1 7 ∧ addrField Build.tc1 1 1 7 = addrField Build.tc1 1 1 7 := by decide

theorem witness_InitGenerates : 1 < frameCount Build.tc1 .erase ∧ 2 < frameCount Build.tc1 .draw := by decide

theorem witness_InitTwice : ∃ t, exec .init State.reset = .next t := ⟨_, rfl⟩

/-- The last frame of each table. -/
theorem witness_ReadLut : (tables State.reset).lutValid = true ∧
    (1 : BitVec 16).toNat < frameCount (tables State.reset).build .erase ∧
    (2 : BitVec 16).toNat < frameCount (tables State.reset).build .draw := by decide

theorem witness_InitThenReadLut : (∃ t, exec .init State.reset = .next t) ∧
    (2 : BitVec 16).toNat < frameCount State.reset.build .draw := ⟨⟨_, rfl⟩, by decide⟩

/-- Both clauses: before INIT, and the first frame out of range. -/
theorem witness_ReadLutFaults : State.reset.lutValid = false ∧ (tables State.reset).lutValid = true ∧
    frameCount (tables State.reset).build .draw ≤ (3 : BitVec 16).toNat := by decide

theorem witness_Expansion : (3 : Nat) < 4 ∧ (0 : Nat) < 4 ∧ (0 : Nat) ≠ 3 := by decide

theorem witness_NotInit : State.reset.lutValid = false := rfl

/-- A ready transport, and one with just enough acknowledgements: 18 for UPDATE, 10 for ERASE_DISPLAY. -/
theorem witness_Served : ∃ s : State, buildOk s.build = true ∧ s.lutValid = true ∧ Unhindered s ∧ s.presented = none ∧
    Served (eventsOf (updateOut s)).length s ∧
    Served (eventsOf (updateOut s)).length { s with transport := .acksLeft 18 } ∧
    Served (eventsOf (displayOut s)).length { s with transport := .acksLeft 10 } :=
  ⟨tables State.reset, by decide, rfl, ⟨rfl, rfl⟩, rfl, ⟨rfl, .inl rfl⟩,
    ⟨rfl, .inr ⟨18, by decide, rfl⟩⟩, ⟨rfl, .inr ⟨10, by decide, rfl⟩⟩⟩

/-- Both fill scopes, and the last byte of a buffer. -/
theorem witness_EraseFillScopes : ∃ s s' : State,
    (buildOk s.build = true ∧ s.lutValid = true ∧ Unhindered s ∧ s.presented = none ∧ s.build.eraseFillScope = .active ∧
      3 < bufSize s.build) ∧
    (buildOk s'.build = true ∧ s'.lutValid = true ∧ Unhindered s' ∧ s'.presented = none ∧
      s'.build.eraseFillScope = .both ∧ 3 < bufSize s'.build) :=
  ⟨tables (State.resetOf Build.tc1 0), tables (State.resetOf { Build.tc1 with eraseFillScope := .both } 0),
    ⟨by decide, rfl, ⟨rfl, rfl⟩, rfl, rfl, by decide⟩, ⟨by decide, rfl, ⟨rfl, rfl⟩, rfl, rfl, by decide⟩⟩

theorem witness_EraseThenRead : ∃ t, buildOk (tables State.reset).build = true ∧ (tables State.reset).lutValid = true ∧
    Unhindered (tables State.reset) ∧ (tables State.reset).presented = none ∧
    exec .eraseDisplay (tables State.reset) = .next t ∧
    inVis (tables State.reset).build 1 (1 : BitVec 16).toInt (7 : BitVec 16).toInt = true :=
  ⟨_, by decide, rfl, ⟨rfl, rfl⟩, rfl, rfl, by decide⟩

theorem witness_UpdateSwaps : ∃ t u, buildOk (tables State.reset).build = true ∧ (tables State.reset).lutValid = true ∧
    Unhindered (tables State.reset) ∧ (tables State.reset).presented = none ∧ exec .update (tables State.reset) = .next t ∧
    exec (.readPixel .active 7 1) (tables State.reset) = .next u :=
  ⟨_, _, by decide, rfl, ⟨rfl, rfl⟩, rfl, rfl, rfl⟩

/-- Both power choices. -/
theorem witness_EventCounts : ∃ s s' : State,
    (buildOk s.build = true ∧ s.lutValid = true ∧ Unhindered s ∧ s.presented = none ∧ s.build.erasePower = .wrapped) ∧
    (buildOk s'.build = true ∧ s'.lutValid = true ∧ Unhindered s' ∧ s'.presented = none ∧ s'.build.erasePower = .bare) :=
  ⟨tables (State.resetOf Build.tc1 0), tables (State.resetOf { Build.tc1 with erasePower := .bare } 0),
    ⟨by decide, rfl, ⟨rfl, rfl⟩, rfl, rfl⟩, ⟨by decide, rfl, ⟨rfl, rfl⟩, rfl, rfl⟩⟩

/-- Both refreshes at their last event: UPDATE of TC1 has 18, ERASE_DISPLAY 10. -/
theorem witness_RefreshWaits (x : Refresh) (n : Nat)
    (h : (x = updateRefresh (tables State.reset) ∧ n = 17) ∨ (x = displayRefresh (tables State.reset) ∧ n = 9)) :
    let s : State := { tables State.reset with transport := .acksLeft n }
    x ∈ refreshes s ∧ buildOk s.build = true ∧ s.lutValid = true ∧ s.transport = .acksLeft n ∧ s.resetAfter = none ∧
      s.presented = none ∧ n < (eventsOf x.out).length := by
  rcases h with ⟨rfl, rfl⟩ | ⟨rfl, rfl⟩
  · exact ⟨List.mem_cons_self, by decide, rfl, rfl, rfl, rfl, by decide⟩
  · exact ⟨List.mem_cons_of_mem _ List.mem_cons_self, by decide, rfl, rfl, rfl, rfl, by decide⟩

/-- Both refreshes, stopped at their first event. -/
theorem witness_WaitingResumes (x : Refresh) (h : x ∈ refreshes (tables State.reset)) :
    buildOk (tables State.reset).build = true ∧ (tables State.reset).lutValid = true ∧ (tables State.reset).resetAfter = none ∧
    (tables State.reset).presented = none ∧
    ∃ t, exec x.command { tables State.reset with transport := .acksLeft 0 } = .next t ∧ t.presented ≠ none := by
  refine ⟨by decide, rfl, rfl, rfl, ?_⟩
  simp only [refreshes, List.mem_cons, List.not_mem_nil, or_false] at h
  rcases h with rfl | rfl <;> exact ⟨_, rfl, by decide⟩

theorem witness_FaultsArePrecise : ∃ t, step (offered [0x20000000] State.reset) = .next t ∧
    t.faultLog ≠ (offered [0x20000000] State.reset).faultLog := ⟨_, rfl, by decide⟩

theorem witness_ErrIsSticky : ∃ s t : State, s.resetAfter = none ∧ s.err ≠ 0 ∧ step s = .next t :=
  ⟨offered [0x20000000] { State.reset with err := 3 }, _, rfl, by decide, rfl⟩

/-- Each clause: INIT sets `LUT_VALID`, SET_ROTATION changes `ROTATION`, UPDATE changes `ACTIVE_SEL`, a fault changes `ERR`. -/
theorem witness_StatusFields :
    (∃ t, step (offered [0x01000000] State.reset) = .next t ∧ t.lutValid ≠ State.reset.lutValid) ∧
    (∃ t, step (offered [0x02000003] State.reset) = .next t ∧ t.rotation ≠ State.reset.rotation) ∧
    (∃ t, step (offered [0x20000000] (tables State.reset)) = .next t ∧ t.activeSel ≠ State.reset.activeSel) ∧
    (∃ t, step (offered [0x31000003] State.reset) = .next t ∧ t.err ≠ State.reset.err) :=
  ⟨⟨_, rfl, by decide⟩, ⟨_, rfl, by decide⟩, ⟨_, rfl, by decide⟩, ⟨_, rfl, by decide⟩⟩

/-- Both clauses: a command, and a step in which a waiting ERASE_DISPLAY goes on. -/
theorem witness_ReferenceBuffer : (∃ t, (tables State.reset).resetAfter = none ∧
      (tables State.reset).build.eraseFillScope = .active ∧ exec .eraseDisplay (tables State.reset) = .next t) ∧
    ∃ s t : State, s.resetAfter = none ∧ ErasesDisplay s ∧ s.build.eraseFillScope = .active ∧ step s = .next t ∧
      t.presented = none ∧
      s = { waitingUpdate with job := .eraseDisplay, srcSize := 0, transport := .ready } :=
  ⟨⟨_, rfl, rfl, rfl⟩, _, _, rfl, .inl rfl, rfl, rfl, by decide, rfl⟩

theorem witness_OnlyRefreshesEmit : ∃ t, (Instr.fill 0) ≠ .update ∧ (Instr.fill 0) ≠ .eraseDisplay ∧
    exec (.fill 0) State.reset = .next t := ⟨_, by decide, by decide, rfl⟩

/-- The invariants' hypotheses, at a state with a command on offer. -/
theorem witness_StepKeeps : ∃ s t : State, MemoryOk s ∧ TablesOk s ∧ PortOk s ∧ ErrOk s ∧ PowerOk s ∧ s.resetAfter = none ∧
    step s = .next t := by
  refine ⟨offered [0x01000000] State.reset, _, ?_, ?_, .inl ⟨idle_reset, by decide, by decide⟩, .inl rfl, rfl, rfl, rfl⟩
  · intro sp
    cases sp <;> exact ⟨List.Pairwise.nil, fun c hc => nomatch hc⟩
  · intro h
    exact absurd h (by decide)

/-- The other clause of PortOk, in mid-refresh, with the supply on. -/
theorem witness_PortOk_waiting : PortOk waitingUpdate ∧ PowerOk waitingUpdate ∧ ∃ t, step waitingUpdate = .next t :=
  ⟨.inr ⟨waiting_waitingUpdate, by decide, rfl, rfl⟩, rfl, _, rfl⟩

end Sys2Proof.Tests
end

