-- ==== Sys2Proof/Proofs/Status.lean ====
section
/-! What each field of the status word holds (R38), and what READ_STATUS places (R281). -/

namespace Sys2Proof.Machine

/-! ## The fields of the status word, from bit 0 up (R38) -/

@[simp] theorem getLsbD_zero_statusWord (s : State) : (statusWord s).getLsbD 0 = s.lutValid := by
  rw [statusWord, BitVec.getLsbD_append]
  simp

@[simp] theorem getLsbD_one_statusWord (s : State) : (statusWord s).getLsbD 1 = s.activeSel := by
  rw [statusWord, BitVec.getLsbD_append, BitVec.getLsbD_append]
  simp

/-- From bit 2 up the two flags are dropped, so a slice there is a slice of the fields above them. -/
theorem extractLsb'_statusWord_of_two_le (s : State) {start : Nat} (len : Nat) (h : 2 ≤ start) :
    (statusWord s).extractLsb' start len = (0#24 ++ s.err ++ s.rotation).extractLsb' (start - 1 - 1) len := by
  rw [statusWord, BitVec.extractLsb'_append_eq_of_le (by omega), BitVec.extractLsb'_append_eq_of_le (by omega)]

@[simp] theorem extractLsb'_statusWord_rotation (s : State) : (statusWord s).extractLsb' 2 2 = s.rotation := by
  rw [extractLsb'_statusWord_of_two_le s 2 le_rfl]
  exact BitVec.extractLsb'_append_eq_right

@[simp] theorem extractLsb'_statusWord_err (s : State) : (statusWord s).extractLsb' 4 4 = s.err := by
  rw [extractLsb'_statusWord_of_two_le s 4 (by decide), BitVec.extractLsb'_append_eq_of_le (by decide)]
  exact BitVec.extractLsb'_append_eq_right

@[simp] theorem extractLsb'_statusWord_high (s : State) : (statusWord s).extractLsb' 8 24 = 0 := by
  rw [extractLsb'_statusWord_of_two_le s 24 (by decide), BitVec.extractLsb'_append_eq_of_le (by decide)]
  exact BitVec.extractLsb'_append_eq_left

/-- The four status fields are 0 after reset (R48), and so is the word composed of them. -/
@[simp] theorem statusWord_resetOf (b : Build) (n : Nat) : statusWord (State.resetOf b n) = 0 := by
  change 0#24 ++ 0#4 ++ 0#2 ++ BitVec.ofBool false ++ BitVec.ofBool false = 0#32
  decide

/-! ## READ_STATUS (R281) -/

theorem exec_readStatus (s : State) : exec .readStatus s = .next (putResult (statusWord s) s) := rfl

/-- Settles O20: the word placed is `statusWord`, and each field of it is read off by a lemma above. -/
theorem readStatusComposesStatus : Obligations.ReadStatusComposesStatus := by
  unfold Obligations.ReadStatusComposesStatus
  constructor
  · intro s
    exact ⟨statusWord s, exec_readStatus s, getLsbD_zero_statusWord s, getLsbD_one_statusWord s,
      extractLsb'_statusWord_rotation s, extractLsb'_statusWord_err s, extractLsb'_statusWord_high s⟩
  · intro b n
    rw [exec_readStatus, statusWord_resetOf]
    rfl

end Sys2Proof.Machine
end

