-- ==== Sys2Proof/Proofs/Pixel.lean ====
section
/-! What SET_PIXEL writes and leaves (R76, R153), and what READ_PIXEL places (R77, R156). -/

namespace Sys2Proof.Machine

/-! ## SET_PIXEL (R76, R153) -/

theorem exec_setPixel (x y : BitVec 16) (c : Color) (s : State) :
    exec (.setPixel x y c) s = .next (plot (classify s.build c) x.toInt y.toInt s) := rfl

/-- The fields of a visible pixel's byte after the pixel is plotted (R76). -/
theorem getField_readByte_plot_same {s : State} {x y : Int} (hv : inVis s.build s.rotation x y = true) (c : Code) {q : Nat}
    (hq : q < 4) :
    getField (readByte (bufferOf .active s) (addrByte s.build s.rotation x y) (plot c x y s)) q =
      if q = addrField s.build s.rotation x y then c
      else getField (readByte (bufferOf .active s) (addrByte s.build s.rotation x y) s) q := by
  rw [readByte_plot, if_pos ⟨hv, rfl, rfl⟩, getField_setField _ (addrField_lt _ _ _ _) hq]
  simp only [eq_comm]

/-- Plotting leaves every byte other than the pixel's own in the active buffer (R76). -/
theorem readByte_plot_of_ne (c : Code) {x y : Int} {s : State} {sp : Space} {a : Nat}
    (h : sp ≠ bufferOf .active s ∨ a ≠ addrByte s.build s.rotation x y) :
    readByte sp a (plot c x y s) = readByte sp a s := by
  rw [readByte_plot, if_neg]
  rintro ⟨-, hsp, ha⟩
  exact h.elim (· hsp) (· ha)

/-- Settles O24: the next state is `plot`'s, whose written byte, other bytes and other items have a lemma each. -/
theorem setPixelWritesOneField : Obligations.SetPixelWritesOneField := by
  unfold Obligations.SetPixelWritesOneField
  intro s x y c hv
  exact ⟨_, exec_setPixel x y c s, plot_frame _ _ _ s, fun _ hq => getField_readByte_plot_same hv _ hq,
    fun _ _ h => readByte_plot_of_ne _ h⟩

/-! ## READ_PIXEL (R77, R156) -/

theorem exec_readPixel_visible {s : State} {x y : BitVec 16} (hv : inVis s.build s.rotation x.toInt y.toInt = true)
    (role : Role) :
    exec (.readPixel role x y) s = .next (putResult ((readPixelCode role x.toInt y.toInt s).setWidth 32) s) := by
  simp only [exec, execReadPixel, if_pos hv]

theorem exec_readPixel_outside {s : State} {x y : BitVec 16} (hv : inVis s.build s.rotation x.toInt y.toInt = false)
    (role : Role) : exec (.readPixel role x y) s = .next (putResult 0x80000000 s) := by
  simp [exec, execReadPixel, hv]

/-- A code widened to a word stands in bits 1:0. -/
theorem extractLsb'_setWidth_code_low (c : Code) : (c.setWidth 32).extractLsb' 0 2 = c := by
  revert c; decide

/-- A code widened to a word leaves bits 31:2 clear. -/
theorem extractLsb'_setWidth_code_high (c : Code) : (c.setWidth 32).extractLsb' 2 30 = 0 := by
  revert c; decide

/-- Settles O29: a visible pixel's word is its code widened, any other pixel's is bit 31 alone. -/
theorem readPixelReturnsCode : Obligations.ReadPixelReturnsCode := by
  unfold Obligations.ReadPixelReturnsCode
  intro s role x y
  cases hv : inVis s.build s.rotation x.toInt y.toInt with
  | true =>
    exact ⟨_, exec_readPixel_visible hv role,
      fun _ => ⟨extractLsb'_setWidth_code_high _, extractLsb'_setWidth_code_low _⟩, nofun⟩
  | false => exact ⟨_, exec_readPixel_outside hv role, nofun, fun _ => rfl⟩

end Sys2Proof.Machine
end

