-- ==== Sys2Proof/Proofs/Encoding.lean ====
section
/-! Packets that are no command: what the decoder answers (R115, R116), and the step that takes one (R101, R302). -/

namespace Sys2Proof

/-! ## What the decoder answers -/

theorem decode_undefinedOpcode {cw : Word} (h : opcodeOf (opField cw) = none) (args : List Word) :
    decode (cw :: args) = .illegal .undefinedOpcode args := by
  rw [decode_cons, h]

theorem decode_reservedBits {cw : Word} {args : List Word} {o : Opcode} (ho : opcodeOf (opField cw) = some o)
    (hl : packetLength (cw :: args) ≤ (cw :: args).length) (hc : cleanPacket o cw (args.getD 0 0) = false) :
    decode (cw :: args) = .illegal (.reservedBits o) ((cw :: args).drop (packetLength (cw :: args))) := by
  simp only [decode_cons, ho, if_neg hl.not_gt, hc, Bool.false_eq_true, if_false]

/-- Where a reserved bit can be: in the command word, or in the high half of READ_LUT's argument (R116). -/
theorem cleanPacket_eq_false_iff (o : Opcode) (cw a0 : Word) :
    cleanPacket o cw a0 = false ↔
      cw &&& (opRow o).mask ≠ (opRow o).pattern ∨ (o = .readLut ∧ highHalf a0 ≠ 0) := by
  simp [cleanPacket, cleanWord, imp_iff_not_or]

/-- The opcode map names 12 of the 256 opcodes, so 244 are undefined (R115). -/
theorem length_undefinedOpcodes :
    ((List.range 256).filter fun n => (opcodeOf (BitVec.ofNat 8 n)).isNone).length = 244 := by
  decide +kernel

end Sys2Proof

namespace Sys2Proof.Machine

/-! ## The step that takes an illegal packet -/

/-- An idle block with a good build and no reset awaited takes words. -/
theorem nextMove_of_idle {s : State} (hb : buildOk s.build = true) (hi : Idle s) (hr : s.resetAfter = none) :
    nextMove s = takeWords s := by
  simp [nextMove, hb, hr, (portFree_iff s).2 hi, resetWithin_none hr]

/-- `s` after an illegal packet: `rest` is left on the channel, the fault is recorded, and the result word 0 is placed if one is
due (R115, R116, R302). -/
def afterIllegal (why : Illegal) (rest : List Word) (s : State) : State :=
  { s with
    asm := [], cmdChan := rest, busy := false, err := if s.err = 0 then 1 else s.err
    faultLog := s.faultLog ++ [.illegalCommand]
    results := s.results ++ if why.resultDue then [0] else [] }

/-- An illegal packet raises ILLEGAL_COMMAND and places the result word 0 if one is due (R115, R116). -/
theorem illegalPacket_eq (why : Illegal) (s : State) :
    illegalPacket why s =
      { raiseFault .illegalCommand s with results := s.results ++ if why.resultDue then [0] else [] } := by
  cases hd : why.resultDue with
  | false => simp [illegalPacket, hd, raiseFault]
  | true => simp only [illegalPacket, hd, if_true]; rfl

/-- What the port does with an illegal packet, to the end of its command, leaves `afterIllegal`. -/
theorem endCommand_illegalPacket {s : State} (hp : s.presented = none) (hr : s.resetAfter = none) (why : Illegal)
    (rest : List Word) : endCommand (illegalPacket why (packetTaken rest s)) = afterIllegal why rest s := by
  rw [illegalPacket_eq, endCommand_done, tickReset_none]
  · rfl
  · exact hr
  · exact hp

/-- The step of an idle block whose offered words begin with an illegal packet (R115, R116). -/
theorem step_illegal {s : State} {why : Illegal} {rest : List Word} (hb : buildOk s.build = true) (hi : Idle s)
    (hr : s.resetAfter = none) (hd : decode (offeredWords s) = .illegal why rest) :
    step s = .next (afterIllegal why rest s) := by
  have hp : s.presented = none := hi.2.2
  rw [← endCommand_illegalPacket hp hr]
  simp only [step, nextMove_of_idle hb hi hr, takeWords, hd, elapse_none hr]

/-- Settles O6: the decoder answers `undefinedOpcode`, which owes no result word. -/
theorem undefinedOpcodeTakesOneWord : Obligations.UndefinedOpcodeTakesOneWord := by
  unfold Obligations.UndefinedOpcodeTakesOneWord
  refine ⟨length_undefinedOpcodes, fun s cw rest hb hi hr hw hop => ?_⟩
  have hd : decode (offeredWords s) = .illegal .undefinedOpcode rest :=
    (congrArg decode hw).trans (decode_undefinedOpcode hop rest)
  refine ⟨_, step_illegal hb hi hr hd, ?_, rfl, rfl⟩
  simp [afterIllegal, Illegal.resultDue]

/-- Settles O7: the decoder answers `reservedBits o`, which owes the result word that the row of `o` has. -/
theorem reservedBitTakesWholePacket : Obligations.ReservedBitTakesWholePacket := by
  unfold Obligations.ReservedBitTakesWholePacket
  intro s cw args o hb hi hr hw ho hl hres
  have hc : cleanPacket o cw (args.getD 0 0) = false := (cleanPacket_eq_false_iff o cw _).2 hres
  have hd : decode (offeredWords s) = _ := (congrArg decode hw).trans (decode_reservedBits ho hl hc)
  exact ⟨_, step_illegal hb hi hr hd, rfl, rfl, rfl, rfl⟩

end Sys2Proof.Machine
end

/-! What SET_PIXEL does outside the visible rectangle (R147, R153). -/

namespace Sys2Proof.Machine

/-- A pixel outside the visible rectangle is absorbed (R147, R308). -/
theorem plot_of_not_inVis (c : Code) {x y : Int} {s : State} (h : inVis s.build s.rotation x y = false) :
    plot c x y s = s :=
  if_neg (Bool.eq_false_iff.mp h)

/-- Settles O25: the bounds check is `inVis_iff`, and the next state is `plot`'s, which outside the bounds is `s` itself. -/
theorem setPixelOutsideIsAbsorbed : Obligations.SetPixelOutsideIsAbsorbed := by
  unfold Obligations.SetPixelOutsideIsAbsorbed
  refine ⟨inVis_iff, fun s x y c hout => ?_⟩
  rw [exec_setPixel, plot_of_not_inVis _ hout]

end Sys2Proof.Machine

/-! Expansion acts on each field of a byte alone (R201, R202). -/

namespace Sys2Proof.Machine

/-- Writing field `p` keeps every other field (R75). -/
theorem getField_setField_of_ne (v : Byte) {p q : Nat} (hp : p < 4) (hq : q < 4) (hqp : q ≠ p) (c : Code) :
    getField (setField v p c) q = getField v q := by
  rw [getField_setField v hp hq, if_neg hqp.symm]

/-- Settles O38: both clauses are `getField_expand`; in the second, field `q` of the written byte is still that of `v`. -/
theorem expansionIsFieldwise : Obligations.ExpansionIsFieldwise := by
  unfold Obligations.ExpansionIsFieldwise
  refine fun b ph f => ⟨fun v p hp => getField_expand b ph v f hp, fun v p q c hp hq hqp => ?_⟩
  calc getField (expand b ph (setField v p c) f) q
      = seedAt b ph f (getField (setField v p c) q) := getField_expand b ph _ f hq
    _ = seedAt b ph f (getField v q) := by rw [getField_setField_of_ne v hp hq hqp]
    _ = getField (expand b ph v f) q := (getField_expand b ph v f hq).symm

end Sys2Proof.Machine

/-! UPDATE exchanges the two roles and moves no byte (R247, R248, R251). -/

namespace Sys2Proof.Machine

/-! ## What READ_PIXEL sees of a state -/

/-- `t` holds both framebuffers of `s` byte for byte, under the same build and rotation, and no other result word. The roles may
differ. -/
structure SameBuffers (s t : State) : Prop where
  build : t.build = s.build
  rotation : t.rotation = s.rotation
  draw : t.draw = s.draw
  results : t.results = s.results
  fb0 : t.fb0 = s.fb0
  fb1 : t.fb1 = s.fb1

theorem SameBuffers.trans {s t u : State} (h : SameBuffers s t) (h' : SameBuffers t u) : SameBuffers s u :=
  ⟨h'.build.trans h.build, h'.rotation.trans h.rotation, h'.draw.trans h.draw, h'.results.trans h.results,
    h'.fb0.trans h.fb0, h'.fb1.trans h.fb1⟩

theorem SameBuffers.readByte_eq {s t : State} (h : SameBuffers s t) {role role' : Role}
    (hb : bufferOf role' t = bufferOf role s) (a : Nat) :
    readByte (bufferOf role' t) a t = readByte (bufferOf role s) a s := by
  rw [hb]
  obtain hsp | hsp := bufferOf_cases role s <;> rw [hsp]
  · exact readByte_congr h.fb0 h.draw
  · exact readByte_congr h.fb1 h.draw

/-- READ_PIXEL places the same word through any role that names the same buffer (R156). -/
theorem SameBuffers.exec_readPixel_results {s t u : State} (h : SameBuffers s t) {role role' : Role}
    (hb : bufferOf role' t = bufferOf role s) {x y : BitVec 16} (hu : exec (.readPixel role x y) s = .next u) :
    ∃ v, exec (.readPixel role' x y) t = .next v ∧ v.results = u.results := by
  have hvis : inVis t.build t.rotation x.toInt y.toInt = inVis s.build s.rotation x.toInt y.toInt := by
    rw [h.build, h.rotation]
  cases hv : inVis s.build s.rotation x.toInt y.toInt with
  | true =>
    have hcode : readPixelCode role' x.toInt y.toInt t = readPixelCode role x.toInt y.toInt s := by
      simp only [readPixelCode, h.readByte_eq hb, h.build, h.rotation]
    rw [exec_readPixel_visible hv] at hu
    cases hu
    exact ⟨_, exec_readPixel_visible (hvis.trans hv) role', by simp [hcode, h.results]⟩
  | false =>
    rw [exec_readPixel_outside hv] at hu
    cases hu
    exact ⟨_, exec_readPixel_outside (hvis.trans hv) role', by simp [h.results]⟩

/-! ## The roles (R33, R34) -/

/-- With `ACTIVE_SEL` inverted each role names the other's buffer. -/
theorem bufferOf_of_activeSel_not {s t : State} (h : t.activeSel = !s.activeSel) :
    bufferOf .reference t = bufferOf .active s ∧ bufferOf .active t = bufferOf .reference s := by
  cases hs : s.activeSel <;> simp [bufferOf, h, hs]

/-! ## What the actions of UPDATE do to the buffers and the roles -/

/-- Only the closing fill writes a framebuffer (R15). -/
theorem sameBuffers_act {a : Action} (h : ∀ role, a ≠ .white role) (s : State) : SameBuffers s (act a s) := by
  cases a with
  | white role => exact absurd rfl (h role)
  | _ => constructor <;> simp [act, buildRow, writeAll, setSpace]

/-- Only the swap writes `ACTIVE_SEL` (R247). -/
theorem activeSel_act (a : Action) (s : State) : (act a s).activeSel = (s.activeSel ^^ decide (a = .swap)) := by
  cases a <;> simp [act]

/-- Every swap of a list inverts `ACTIVE_SEL`. -/
theorem activeSel_foldl_act :
    ∀ (as : List Action) (s : State),
      (as.foldl (fun t a => act a t) s).activeSel = (s.activeSel ^^ (as.count .swap).bodd)
  | [], s => by simp
  | a :: as, s => by
    rw [List.foldl_cons, activeSel_foldl_act as, activeSel_act, List.count_cons]
    by_cases h : a = .swap <;> simp [h]

theorem white_notMem_passActions (b : Build) (p : Phase) (role : Role) : Action.white role ∉ passActions b p := by
  simp [passActions, framesFrom, frameActions, rowsFrom, rowActions]

theorem swap_notMem_passActions (b : Build) (p : Phase) : Action.swap ∉ passActions b p := by
  simp [passActions, framesFrom, frameActions, rowsFrom, rowActions]

/-- UPDATE has no closing fill (R250). -/
theorem white_notMem_updateActions (b : Build) (role : Role) : Action.white role ∉ updateActions b := by
  simp [updateActions, updateErase, updateDraw, updatePowerOff, updateSwap, white_notMem_passActions]

/-- UPDATE swaps the roles once (R250). -/
theorem count_swap_updateActions (b : Build) : (updateActions b).count .swap = 1 := by
  simp [updateActions, updateErase, updateDraw, updatePowerOff, updateSwap,
    List.count_eq_zero_of_not_mem (swap_notMem_passActions b _)]

/-! ## The whole UPDATE -/

/-- UPDATE with its tables performs the actions of R250. -/
theorem exec_update_of_lutValid {s : State} (h : s.lutValid = true) :
    exec .update s = .next (perform (updateActions s.build) (startJob .update (bufSize s.build) s)) := by
  simp [exec, execUpdate, h]

/-- No UPDATE moves a byte of a framebuffer while no reset arrives, whether it completes or waits (R248, R251). -/
theorem sameBuffers_update {s t : State} (hl : s.lutValid = true) (hr : s.resetAfter = none)
    (h : exec .update s = .next t) : SameBuffers s t := by
  rw [exec_update_of_lutValid hl] at h
  cases h
  refine perform_keeps_noReset (P := SameBuffers s) _ (fun a ha u hu => hu.trans (sameBuffers_act ?_ u)) _ hr
    ⟨rfl, rfl, rfl, rfl, rfl, rfl⟩
  rintro role rfl
  exact white_notMem_updateActions s.build role ha

/-- An UPDATE that nothing hinders inverts `ACTIVE_SEL` (R247). -/
theorem activeSel_update {s t : State} (hl : s.lutValid = true) (hu : Unhindered s) (hp : s.presented = none)
    (h : exec .update s = .next t) : t.activeSel = !s.activeSel := by
  rw [exec_update_of_lutValid hl, perform_unhindered _ (startJob _ _ s) hu hp] at h
  cases h
  simp [activeSel_foldl_act, count_swap_updateActions]

/-- Settles O44: UPDATE inverts `ACTIVE_SEL` and keeps both buffers, so each buffer's bytes and pixels are read through its new
role. -/
theorem updateSwapsRoles : Obligations.UpdateSwapsRoles := by
  unfold Obligations.UpdateSwapsRoles
  intro s t _ hl hu hp h
  have hsame := sameBuffers_update hl hu.2 h
  obtain ⟨href, hact⟩ := bufferOf_of_activeSel_not (activeSel_update hl hu hp h)
  exact ⟨href, hact, fun a => ⟨hsame.readByte_eq href a, hsame.readByte_eq hact a⟩,
    fun x y u hread => hsame.exec_readPixel_results href hread⟩

end Sys2Proof.Machine

/-! What UPDATE, ERASE_DISPLAY and READ_LUT do before the first INIT (R303, R305). -/

namespace Sys2Proof.Machine

/-! ## The fault's records (R301) -/

/-- NOT_INIT goes into `ERR`, as the code 2 of R300, and into the fault history. -/
theorem raiseFault_notInit (s : State) :
    raiseFault .notInit s =
      { s with err := if s.err = 0 then 2 else s.err, faultLog := s.faultLog ++ [.notInit] } := rfl

/-- A command that owes a result word also places the word 0 (R102). -/
theorem raiseWithResult_notInit (s : State) :
    raiseWithResult .notInit s =
      { s with
        results := s.results ++ [0], err := if s.err = 0 then 2 else s.err
        faultLog := s.faultLog ++ [.notInit] } := rfl

/-! ## The three commands while `LUT_VALID = 0` (R303) -/

theorem exec_update_of_not_lutValid {s : State} (h : s.lutValid = false) :
    exec .update s = .next (raiseFault .notInit s) := if_pos h

theorem exec_eraseDisplay_of_not_lutValid {s : State} (h : s.lutValid = false) :
    exec .eraseDisplay s = .next (raiseFault .notInit s) := if_pos h

/-- NOT_INIT comes before the check of `FRAME` (R305), so every `FRAME` raises it. -/
theorem exec_readLut_of_not_lutValid {s : State} (h : s.lutValid = false) (p : Phase) (v : Byte) (f : BitVec 16) :
    exec (.readLut p v f) s = .next (raiseWithResult .notInit s) := if_pos h

/-- Settles O40: each command takes its NOT_INIT branch, which changes the fault's records and READ_LUT's result word alone. -/
theorem notInitBeforeTables : Obligations.NotInitBeforeTables := by
  unfold Obligations.NotInitBeforeTables
  intro s h
  constructor
  · rintro i (rfl | rfl)
    · rw [exec_update_of_not_lutValid h, raiseFault_notInit]
    · rw [exec_eraseDisplay_of_not_lutValid h, raiseFault_notInit]
  · intro p v f
    rw [exec_readLut_of_not_lutValid h, raiseWithResult_notInit]

end Sys2Proof.Machine

/-! The encoding of well-formed commands: packet lengths, the two round trips, and the bytes of a payload (R100 to R121). -/

namespace Sys2Proof

/-! ## The payload -/

/-- Byte `k` of the unpacked words is byte `k mod 4` of word `k div 4` (R113). -/
theorem getElem?_flatMap_wordBytes (ws : List Word) {k : Nat} (h : k < 4 * ws.length) :
    (ws.flatMap wordBytes)[k]? = some ((ws.getD (k / 4) 0).extractLsb' (8 * (k % 4)) 8) := by
  induction ws generalizing k with
  | nil => simp at h
  | cons w ws ih =>
    rw [List.flatMap_cons]
    by_cases hk : k < 4
    · rw [List.getElem?_append_left hk, Nat.div_eq_of_lt hk, Nat.mod_eq_of_lt hk]
      interval_cases k <;> rfl
    · obtain ⟨j, rfl⟩ : ∃ j, k = j + 4 := ⟨k - 4, by omega⟩
      have hj : j < 4 * ws.length := by simp only [List.length_cons] at h; omega
      rw [List.getElem?_append_right (by simp [length_wordBytes]), length_wordBytes, Nat.add_sub_cancel, ih hj,
        Nat.add_div_right j (by decide), Nat.add_mod_right, List.getD_cons_succ]

/-- Settles O5: the bitmap is the first `n` bytes of the unpacked words. -/
theorem payloadIsLittleEndian : Obligations.PayloadIsLittleEndian := by
  unfold Obligations.PayloadIsLittleEndian
  intro n k payload hk hn
  rw [payloadBytes, List.getElem?_take_of_lt hk, getElem?_flatMap_wordBytes payload (by omega)]

theorem length_payloadBytes {n : Nat} {payload : List Word} (h : n ≤ 4 * payload.length) :
    (payloadBytes n payload).length = n := by
  rw [payloadBytes, List.length_take, length_flatMap_wordBytes, Nat.min_eq_left h]

/-! ## The words of a command -/

/-- Every command's first word names its row and is clean (R103 to R110, R114). -/
theorem head_encode (i : Instr) : Laws.Head.Statement i := by
  cases i with
  | nop => exact Laws.Head.nop
  | init => exact Laws.Head.init
  | setRotation rot => exact Laws.Head.setRotation rot
  | setPixel x y color => exact Laws.Head.setPixel x y color
  | fill color => exact Laws.Head.fill color
  | drawBitmap x y bw bh fg bytes => exact Laws.Head.drawBitmap x y bw bh fg bytes
  | readPixel role x y => exact Laws.Head.readPixel role x y
  | update => exact Laws.Head.update
  | eraseDisplay => exact Laws.Head.eraseDisplay
  | readStatus => exact Laws.Head.readStatus
  | readInfo sel => exact Laws.Head.readInfo sel
  | readLut phase bval frame => exact Laws.Head.readLut phase bval frame

/-- A command without a payload is its command word and its argument words (R118). -/
theorem length_encode_of_ne_drawBitmap {i : Instr} (h : i.opcode ≠ .drawBitmap) :
    (encode i).length = 1 + (opRow i.opcode).narg := by
  cases i with
  | drawBitmap => exact absurd rfl h
  | _ => rfl

/-- A DRAW_BITMAP is three words and its payload (R113, R118). -/
theorem length_encode_drawBitmap {x y bw bh : BitVec 16} {fg : Color} {bytes : List Byte}
    (h : (Instr.drawBitmap x y bw bh fg bytes).wf = true) :
    (encode (.drawBitmap x y bw bh fg bytes)).length = 3 + bitmapWordCount bw.toNat bh.toNat := by
  have hlen : bytes.length = bitmapByteCount bw.toNat bh.toNat := by simpa [Instr.wf] using h
  simp [encode, length_packBytes, hlen, bitmapWordCount]
  omega

/-- The packet that a well-formed command's words begin is those words (R118). -/
theorem packetLength_encode {i : Instr} (hw : i.wf = true) (rest : List Word) :
    packetLength (encode i ++ rest) = (encode i).length := by
  obtain ⟨cw, args, he, ho, -, -⟩ := head_encode i
  by_cases hd : i.opcode = .drawBitmap
  · cases i with
    | drawBitmap x y bw bh fg bytes =>
      rw [length_encode_drawBitmap hw, he, List.cons_append, packetLength_cons ho]
      obtain rfl : [y ++ x, bh ++ bw] ++ packBytes bytes = args := (List.cons.inj he).2
      simp only [Instr.opcode, if_true, List.cons_append, List.nil_append, List.getD_cons_succ, List.getD_cons_zero,
        lowHalf_append, highHalf_append]
      rfl
    | _ => cases hd
  · rw [length_encode_of_ne_drawBitmap hd, he, List.cons_append, packetLength_cons ho, if_neg hd]
    rfl

/-- Settles O4: the packet of a command is its own words, an undefined opcode takes one, and the largest packet has
`BW = BH = 65535`. -/
theorem packetLengthFormula : Obligations.PacketLengthFormula := by
  unfold Obligations.PacketLengthFormula
  refine ⟨fun i rest hw => packetLength_encode hw rest, fun x y bw bh fg bytes hw => length_encode_drawBitmap hw,
    fun i h => length_encode_of_ne_drawBitmap h, fun cw ws h => ?_, by decide +kernel⟩
  simp [packetLength, h]

/-! ## Decoding what was encoded -/

theorem lowHalf_cat3 (op z : BitVec 8) (color : Color) : lowHalf (op ++ z ++ color) = color :=
  BitVec.extractLsb'_append_eq_right

theorem roleOfBit_cat3 (op : BitVec 8) (role : Role) : roleOfBit ((op ++ 0#23 ++ role.bit : Word).getLsbD 0) = role := by
  rw [BitVec.getLsbD_append]
  cases role <;> rfl

theorem phaseOfBit_cat5 (op : BitVec 8) (phase : Phase) (bval : Byte) :
    phaseOfBit ((op ++ 0#7 ++ phase.bit ++ bval ++ 0#8 : Word).getLsbD 16) = phase := by
  rw [BitVec.getLsbD_append, BitVec.getLsbD_append, BitVec.getLsbD_append]
  cases phase <;> rfl

theorem extractLsb'_cat5 (op : BitVec 8) (ph : BitVec 1) (bval : Byte) :
    (op ++ 0#7 ++ ph ++ bval ++ 0#8 : Word).extractLsb' 8 8 = bval := by
  rw [BitVec.extractLsb'_append_eq_of_le (by decide)]
  exact BitVec.extractLsb'_append_eq_right

/-- The operand fields of a command's words are its operands (R103 to R113). -/
theorem commandOf_encode {i : Instr} (hw : i.wf = true) (rest : List Word) :
    commandOf i.opcode ((encode i ++ rest).getD 0 0) ((encode i ++ rest).getD 1 0) ((encode i ++ rest).getD 2 0)
      ((encode i).drop 3) = i := by
  cases i with
  | nop => rfl
  | init => rfl
  | setRotation rot => exact congrArg Instr.setRotation BitVec.extractLsb'_append_eq_right
  | setPixel x y color =>
    change Instr.setPixel (lowHalf (y ++ x)) (highHalf (y ++ x)) (lowHalf (_ ++ 0#8 ++ color)) = _
    rw [lowHalf_append, highHalf_append, lowHalf_cat3]
  | fill color => exact congrArg Instr.fill (lowHalf_cat3 _ _ color)
  | drawBitmap x y bw bh fg bytes =>
    have hlen : bytes.length = bitmapByteCount bw.toNat bh.toNat := by simpa [Instr.wf] using hw
    change Instr.drawBitmap (lowHalf (y ++ x)) (highHalf (y ++ x)) (lowHalf (bh ++ bw)) (highHalf (bh ++ bw))
      (lowHalf (_ ++ 0#8 ++ fg)) (payloadBytes (bitmapByteCount (lowHalf (bh ++ bw)).toNat (highHalf (bh ++ bw)).toNat)
        (packBytes bytes)) = _
    rw [lowHalf_append, highHalf_append, lowHalf_append, highHalf_append, lowHalf_cat3, ← hlen, payloadBytes_packBytes]
  | readPixel role x y =>
    change Instr.readPixel (roleOfBit ((_ ++ 0#23 ++ role.bit : Word).getLsbD 0)) (lowHalf (y ++ x)) (highHalf (y ++ x)) = _
    rw [lowHalf_append, highHalf_append, roleOfBit_cat3]
  | update => rfl
  | eraseDisplay => rfl
  | readStatus => rfl
  | readInfo sel => exact congrArg Instr.readInfo BitVec.extractLsb'_append_eq_right
  | readLut phase bval frame =>
    change Instr.readLut (phaseOfBit ((_ ++ 0#7 ++ phase.bit ++ bval ++ 0#8 : Word).getLsbD 16))
      ((_ ++ 0#7 ++ phase.bit ++ bval ++ 0#8 : Word).extractLsb' 8 8) (lowHalf (0#16 ++ frame)) = _
    rw [lowHalf_append, phaseOfBit_cat5, extractLsb'_cat5]

/-- A command's words have no reserved bit set (R116). -/
theorem cleanPacket_encode {i : Instr} {cw : Word} {args : List Word} (he : encode i = cw :: args) (rest : List Word) :
    cleanPacket i.opcode cw ((args ++ rest).getD 0 0) = true := by
  obtain ⟨cw', args', he', -, hc, -⟩ := head_encode i
  obtain ⟨rfl, rfl⟩ := List.cons.inj (he'.symm.trans he)
  rw [cleanPacket, hc, Bool.true_and]
  cases i with
  | readLut phase bval frame =>
    obtain rfl : [0#16 ++ frame] = args' := (List.cons.inj he).2
    simp [highHalf_append]
  | _ => simp [Instr.opcode]

/-- Settles O2: the packet length takes exactly the command's words, and each operand field is read back. -/
theorem decodeOfEncode : Obligations.DecodeOfEncode := by
  unfold Obligations.DecodeOfEncode
  intro i rest hw
  obtain ⟨cw, args, he, ho, -, -⟩ := head_encode i
  have hlen := packetLength_encode hw rest
  have hcmd := commandOf_encode hw rest
  have hclean := cleanPacket_encode he rest
  rw [he] at hlen hcmd ⊢
  rw [List.cons_append] at hlen hcmd ⊢
  rw [decode_cons, ho]
  simp only [hlen]
  rw [if_neg (by simp), if_pos hclean, ← List.cons_append, List.take_left, List.drop_left]
  exact congrArg (Decoded.command · rest) hcmd

/-! ## Encoding what was decoded -/

/-- Two clean words of a row that agree where the row's mask is 0 are equal (R116). -/
theorem eq_of_cleanWord {o : Opcode} {w cw : Word} (hw : cleanWord o w = true) (hc : cleanWord o cw = true)
    (h : ∀ i < 32, (opRow o).mask.getLsbD i = false → w.getLsbD i = cw.getLsbD i) : w = cw := by
  simp only [cleanWord, beq_iff_eq] at hw hc
  apply BitVec.eq_of_getLsbD_eq
  intro i hi
  cases hm : (opRow o).mask.getLsbD i with
  | false => exact h i hi hm
  | true =>
    have := congrArg (BitVec.getLsbD · i) (hw.trans hc.symm)
    simpa [BitVec.getLsbD_and, hm] using this

theorem opcode_commandOf (o : Opcode) (cw a0 a1 : Word) (payload : List Word) :
    (commandOf o cw a0 a1 payload).opcode = o := by
  cases o <;> rfl

/-- Bit `i` below 16 of a word `op, 0, lowHalf cw`. -/
theorem getLsbD_cat3_lowHalf (op z : BitVec 8) (cw : Word) {i : Nat} (h : i < 16) :
    (op ++ z ++ lowHalf cw : Word).getLsbD i = cw.getLsbD i := by
  rw [BitVec.getLsbD_append, if_pos h, lowHalf, BitVec.getLsbD_extractLsb']
  simp [h]

/-- Bit `i` below 2 of a word `op, 0, cw[1:0]`. -/
theorem getLsbD_cat3_lowTwo (op : BitVec 8) (cw : Word) {i : Nat} (h : i < 2) :
    (op ++ 0#22 ++ cw.extractLsb' 0 2 : Word).getLsbD i = cw.getLsbD i := by
  rw [BitVec.getLsbD_append, if_pos h, BitVec.getLsbD_extractLsb']
  simp [h]

theorem bit_roleOfBit (b : Bool) : (roleOfBit b).bit = BitVec.ofBool b := by cases b <;> rfl

theorem bit_phaseOfBit (b : Bool) : (phaseOfBit b).bit = BitVec.ofBool b := by cases b <;> rfl

/-- The command word of a decoded command carries the packet's own operand bits (R103 to R109). -/
theorem getLsbD_head_encode_commandOf (o : Opcode) (cw a0 a1 : Word) (payload : List Word) {i : Nat} (hi : i < 32)
    (hm : (opRow o).mask.getLsbD i = false) :
    ((encode (commandOf o cw a0 a1 payload)).getD 0 0).getLsbD i = cw.getLsbD i := by
  have color : ∀ i < 32, (0xFFFF0000#32).getLsbD i = false → i < 16 := by decide
  have two : ∀ i < 32, (0xFFFFFFFC#32).getLsbD i = false → i < 2 := by decide
  have one : ∀ i < 32, (0xFFFFFFFE#32).getLsbD i = false → i = 0 := by decide
  have full : ∀ i < 32, (0xFFFFFFFF#32).getLsbD i ≠ false := by decide
  have lut : ∀ i < 32, (0xFFFE00FF#32).getLsbD i = false → 8 ≤ i ∧ i < 17 := by decide
  cases o with
  | setRotation => exact getLsbD_cat3_lowTwo _ cw (two i hi hm)
  | setPixel => exact getLsbD_cat3_lowHalf _ _ cw (color i hi hm)
  | fill => exact getLsbD_cat3_lowHalf _ _ cw (color i hi hm)
  | drawBitmap => exact getLsbD_cat3_lowHalf _ _ cw (color i hi hm)
  | readPixel =>
    obtain rfl := one i hi hm
    change (_ ++ 0#23 ++ (roleOfBit (cw.getLsbD 0)).bit : Word).getLsbD 0 = _
    rw [bit_roleOfBit, BitVec.getLsbD_append]
    simp
  | readInfo => exact getLsbD_cat3_lowTwo _ cw (two i hi hm)
  | readLut =>
    obtain ⟨h8, h17⟩ := lut i hi hm
    change (_ ++ 0#7 ++ (phaseOfBit (cw.getLsbD 16)).bit ++ cw.extractLsb' 8 8 ++ 0#8 : Word).getLsbD i = _
    rw [bit_phaseOfBit, BitVec.getLsbD_append, if_neg (by omega), BitVec.getLsbD_append, BitVec.getLsbD_append]
    by_cases h : i - 8 < 8
    · rw [if_pos h, BitVec.getLsbD_extractLsb', show 8 + (i - 8) = i by omega]
      simp [h]
    · obtain rfl : i = 16 := by omega
      simp
  | nop => exact absurd hm (full i hi)
  | init => exact absurd hm (full i hi)
  | update => exact absurd hm (full i hi)
  | eraseDisplay => exact absurd hm (full i hi)
  | readStatus => exact absurd hm (full i hi)

/-- The command word of a decoded clean packet is the packet's own (R116). -/
theorem head_encode_commandOf {o : Opcode} {cw a0 : Word} (hc : cleanPacket o cw a0 = true) (a1 : Word)
    (payload : List Word) : (encode (commandOf o cw a0 a1 payload)).getD 0 0 = cw := by
  have hcw : cleanWord o cw = true := (Bool.and_eq_true _ _ ▸ hc : _ ∧ _).1
  refine eq_of_cleanWord (o := o) ?_ hcw fun i hi hm => getLsbD_head_encode_commandOf o cw a0 a1 payload hi hm
  obtain ⟨w, args, he, -, hclean, -⟩ := head_encode (commandOf o cw a0 a1 payload)
  rwa [opcode_commandOf, show w = (encode (commandOf o cw a0 a1 payload)).getD 0 0 by rw [he]; rfl] at hclean

/-- The argument words of a decoded clean packet without payload are the packet's own (R111, R116). -/
theorem tail_encode_commandOf {o : Opcode} {cw a0 : Word} (hd : o ≠ .drawBitmap) (hc : cleanPacket o cw a0 = true)
    (a1 : Word) (payload : List Word) :
    (encode (commandOf o cw a0 a1 payload)).tail = [a0].take (opRow o).narg := by
  cases o with
  | drawBitmap => exact absurd rfl hd
  | setPixel => exact congrArg ([·]) (halves_append a0)
  | readPixel => exact congrArg ([·]) (halves_append a0)
  | readLut =>
    have hz : highHalf a0 = 0#16 := by
      simp only [cleanPacket, Bool.and_eq_true] at hc
      simpa using hc.2
    change [(0#16 ++ lowHalf a0 : Word)] = [a0]
    rw [← hz, halves_append]
  | _ => rfl

/-- The argument words of a decoded DRAW_BITMAP are the packet's own (R111, R112). -/
theorem take_two_tail_encode_drawBitmap (cw a0 a1 : Word) (payload : List Word) :
    (encode (commandOf .drawBitmap cw a0 a1 payload)).tail.take 2 = [a0, a1] := by
  change [highHalf a0 ++ lowHalf a0, highHalf a1 ++ lowHalf a1] = _
  rw [halves_append, halves_append]

theorem encode_eq_cons (i : Instr) : encode i = (encode i).getD 0 0 :: (encode i).tail := by
  obtain ⟨w, args, he, -⟩ := head_encode i
  rw [he]
  rfl

/-- The decoder's payload words hold every byte of the bitmap (R113). -/
theorem byteCount_le_payload {ws : List Word} {n bytes : Nat} (hl : n ≤ ws.length) (hn : n = 3 + (bytes + 3) / 4) :
    bytes ≤ 4 * ((ws.take n).drop 3).length := by
  rw [List.length_drop, List.length_take]
  omega

/-- A clean packet of a row without payload is its command's words (R103 to R110). -/
theorem take_eq_encode {o : Opcode} {cw : Word} {args : List Word} (ho : opcodeOf (opField cw) = some o)
    (hd : o ≠ .drawBitmap) (hl : packetLength (cw :: args) ≤ (cw :: args).length)
    (hc : cleanPacket o cw (args.getD 0 0) = true) (a1 : Word) (payload : List Word) :
    (cw :: args).take (packetLength (cw :: args)) = encode (commandOf o cw (args.getD 0 0) a1 payload) := by
  rw [encode_eq_cons, head_encode_commandOf hc, tail_encode_commandOf hd hc]
  rw [packetLength_cons ho, if_neg hd] at hl ⊢
  rw [Nat.add_zero, Nat.add_comm, List.take_succ_cons]
  congr 1
  have hnarg : (opRow o).narg ≤ 1 := by
    cases o with
    | drawBitmap => exact absurd rfl hd
    | _ => decide
  cases args with
  | nil =>
    obtain h0 : (opRow o).narg = 0 := by simp at hl; omega
    simp [h0]
  | cons a0 args =>
    obtain h | h : (opRow o).narg = 0 ∨ (opRow o).narg = 1 := by omega
    all_goals simp [h]

/-- The first three words of a clean DRAW_BITMAP packet are its command's (R111, R112). -/
theorem take_three_eq_encode {cw : Word} {args : List Word} (hl : 2 ≤ args.length)
    (hc : cleanPacket .drawBitmap cw (args.getD 0 0) = true) (payload : List Word) :
    (cw :: args).take 3 =
      (encode (commandOf .drawBitmap cw (args.getD 0 0) (args.getD 1 0) payload)).take 3 := by
  rw [encode_eq_cons, head_encode_commandOf hc, List.take_succ_cons, List.take_succ_cons,
    take_two_tail_encode_drawBitmap]
  match args, hl with
  | a0 :: a1 :: args, _ => rfl

/-- Settles O3: without a payload the packet is the command's words; with one, the first three words are, and the bytes are
`payloadIsLittleEndian`'s. -/
theorem encodeOfDecode : Obligations.EncodeOfDecode := by
  unfold Obligations.EncodeOfDecode
  intro ws i rest h
  obtain ⟨cw, args, o, rfl, ho, hl, hc, rfl, rfl⟩ := decode_command h
  by_cases hd : o = .drawBitmap
  · subst hd
    have hlen := packetLength_cons ho args
    simp only [opRow, if_true] at hlen
    have hn := byteCount_le_payload hl hlen
    refine ⟨by simpa [commandOf, Instr.wf] using length_payloadBytes hn, _, (List.take_append_drop _ _).symm,
      List.length_take_of_le hl, ?_, fun hne => absurd rfl hne, ?_⟩
    · rw [List.take_take, Nat.min_eq_left (by omega)]
      refine take_three_eq_encode ?_ hc _
      simp only [List.length_cons] at hl
      omega
    · rintro x y bw bh fg bytes hi k hk
      obtain ⟨-, -, rfl, rfl, -, rfl⟩ := Instr.drawBitmap.inj hi
      rw [payloadIsLittleEndian _ k _ hk hn]
      simp [List.getD_eq_getElem?_getD]
  · have henc := take_eq_encode ho hd hl hc (args.getD 1 0) (((cw :: args).take (packetLength (cw :: args))).drop 3)
    refine ⟨?_, _, (List.take_append_drop _ _).symm, List.length_take_of_le hl, congrArg (List.take 3) henc, fun _ => henc, ?_⟩
    · cases o with
      | drawBitmap => exact absurd rfl hd
      | _ => rfl
    · rintro x y bw bh fg bytes hi
      exact absurd (by rw [← opcode_commandOf o, hi]; rfl) hd

/-- Settles O1: each worked encoding is decoded. -/
theorem workedEncodingsDecode : Obligations.WorkedEncodingsDecode := by
  unfold Obligations.WorkedEncodingsDecode
  decide +kernel

end Sys2Proof

/-! INIT and READ_LUT: the tables they write and read (R200 to R208). -/

namespace Sys2Proof.Machine

/-! ## The expanded tables -/

theorem lutIndex_lt_spaceSize {b : Build} {p : Phase} {f : Nat} (hf : f < frameCount b p) (v : Byte) :
    lutIndex b p v f < spaceSize b (lutSpace p) := by
  have hv : v.toNat + 1 ≤ 256 := v.isLt
  have hsize : spaceSize b (lutSpace p) = 256 * frameCount b p := by cases p <;> rfl
  calc lutIndex b p v f < v.toNat * frameCount b p + frameCount b p := Nat.add_lt_add_left hf _
    _ = (v.toNat + 1) * frameCount b p := (Nat.succ_mul _ _).symm
    _ ≤ 256 * frameCount b p := Nat.mul_le_mul_right _ hv
    _ = spaceSize b (lutSpace p) := hsize.symm

/-- A table holds the expansion once it has been written (R201, R206). -/
theorem readTable_expandTable (s : State) {p : Phase} {f : Nat} (hf : f < frameCount s.build p) (v : Byte) :
    readTable p v f (expandTable p s) = expand s.build p v f := by
  have hdiv : lutIndex s.build p v f / frameCount s.build p = v.toNat := by
    rw [lutIndex, Nat.mul_comm, Nat.mul_add_div (by omega), Nat.div_eq_of_lt hf, Nat.add_zero]
  have hmod : lutIndex s.build p v f % frameCount s.build p = f := by
    rw [lutIndex, Nat.mul_comm, Nat.mul_add_mod, Nat.mod_eq_of_lt hf]
  rw [readTable, expandTable_build, expandTable, readByte_writeAll, if_pos rfl, if_pos (lutIndex_lt_spaceSize hf v),
    hdiv, hmod, BitVec.ofNat_toNat, BitVec.setWidth_eq]

theorem readByte_expandTable_of_ne {p : Phase} {sp : Space} (h : sp ≠ lutSpace p) (a : Nat) (s : State) :
    readByte sp a (expandTable p s) = readByte sp a s := by
  rw [expandTable, readByte_writeAll, if_neg h.symm]

/-! ## INIT -/

/-- `s` after INIT (R206). -/
def afterInit (s : State) : State := { expandTable .draw (expandTable .erase s) with lutValid := true }

theorem exec_init (s : State) : exec .init s = .next (afterInit s) := rfl

theorem afterInit_frame (s : State) :
    afterInit s = { s with lutE := (afterInit s).lutE, lutD := (afterInit s).lutD, lutValid := true } := rfl

@[simp] theorem afterInit_build (s : State) : (afterInit s).build = s.build := rfl
@[simp] theorem afterInit_results (s : State) : (afterInit s).results = s.results := rfl
@[simp] theorem afterInit_lutValid (s : State) : (afterInit s).lutValid = true := rfl

theorem readByte_afterInit (s : State) (sp : Space) (a : Nat) :
    readByte sp a (afterInit s) = readByte sp a (expandTable .draw (expandTable .erase s)) :=
  readByte_congr (by cases sp <;> rfl) rfl

/-- After INIT both tables hold the expansion of their seeds (R206). -/
theorem readTable_afterInit (s : State) {p : Phase} {f : Nat} (hf : f < frameCount s.build p) (v : Byte) :
    readTable p v f (afterInit s) = expand s.build p v f := by
  rw [readTable, readByte_afterInit]
  cases p with
  | draw => exact readTable_expandTable (expandTable .erase s) hf v
  | erase =>
    rw [readByte_expandTable_of_ne (by decide)]
    exact readTable_expandTable s hf v

/-- Settles O33: INIT's next state is `afterInit`, which writes the two tables and `LUT_VALID`. -/
theorem initGeneratesTables : Obligations.InitGeneratesTables := by
  unfold Obligations.InitGeneratesTables
  refine fun s => ⟨_, exec_init s, afterInit_frame s, fun p v f hf => readTable_afterInit s hf v, fun sp a hE hD => ?_⟩
  rw [readByte_afterInit, readByte_expandTable_of_ne hD, readByte_expandTable_of_ne hE]

/-- INIT writes both tables from the build alone, so a second one writes the same (R206). -/
theorem afterInit_afterInit (s : State) : afterInit (afterInit s) = afterInit s := rfl

/-- Settles O34: INIT's next state is a fixed point of INIT. -/
theorem initTwiceIsInitOnce : Obligations.InitTwiceIsInitOnce := by
  unfold Obligations.InitTwiceIsInitOnce
  intro s t h
  rw [exec_init] at h
  obtain rfl := Host.Outcome.next.inj h
  exact exec_init (afterInit s)

/-! ## READ_LUT (R207) -/

theorem exec_readLut_of_lt {s : State} {p : Phase} {f : BitVec 16} (hl : s.lutValid = true)
    (hf : f.toNat < frameCount s.build p) (v : Byte) :
    exec (.readLut p v f) s = .next (putResult ((readTable p v f.toNat s).setWidth 32) s) := by
  simp [exec, execReadLut, hl, hf]

theorem exec_readLut_of_le {s : State} {p : Phase} {f : BitVec 16} (hl : s.lutValid = true)
    (hf : frameCount s.build p ≤ f.toNat) (v : Byte) :
    exec (.readLut p v f) s = .next (raiseWithResult .badArgument s) := by
  simp [exec, execReadLut, hl, hf]

/-- A byte widened to a word leaves bits 31:8 clear. -/
theorem extractLsb'_setWidth_byte_high (v : Byte) : (v.setWidth 32).extractLsb' 8 24 = 0 := by
  revert v; decide

/-- A byte widened to a word stands in bits 7:0. -/
theorem extractLsb'_setWidth_byte_low (v : Byte) : (v.setWidth 32).extractLsb' 0 8 = v := by
  revert v; decide

/-- Settles O35: the word placed is the table's entry widened. -/
theorem readLutReturnsEntry : Obligations.ReadLutReturnsEntry := by
  unfold Obligations.ReadLutReturnsEntry
  exact fun s p v f hl hf => ⟨_, exec_readLut_of_lt hl hf v, extractLsb'_setWidth_byte_high _,
    extractLsb'_setWidth_byte_low _⟩

/-- Settles O36: the entry read is the one INIT wrote. -/
theorem initThenReadLut : Obligations.InitThenReadLut := by
  unfold Obligations.InitThenReadLut
  intro s t p v f h hf
  rw [exec_init] at h
  obtain rfl := Host.Outcome.next.inj h
  rw [exec_readLut_of_lt (s := afterInit s) rfl hf, readTable_afterInit s hf]
  rfl

/-- BAD_ARGUMENT goes into `ERR`, as the code 3 of R300, and into the fault history; the result word is 0 (R102). -/
theorem raiseWithResult_badArgument (s : State) :
    raiseWithResult .badArgument s =
      { s with
        results := s.results ++ [0], err := if s.err = 0 then 3 else s.err
        faultLog := s.faultLog ++ [.badArgument] } := rfl

/-- Settles O37: `LUT_VALID` is checked before the frame. -/
theorem readLutFaults : Obligations.ReadLutFaults := by
  unfold Obligations.ReadLutFaults
  refine fun s p v f => ⟨fun hl => ?_, fun hl hf => ?_⟩
  · rw [exec_readLut_of_not_lutValid hl, raiseWithResult_notInit]
  · rw [exec_readLut_of_le hl hf, raiseWithResult_badArgument]

/-- Settles O39: each field of the expanded byte is the seed's code of the one code. -/
theorem expansionOfUniformByte : Obligations.ExpansionOfUniformByte := by
  unfold Obligations.ExpansionOfUniformByte
  refine fun b ph f c => byte_ext fun p hp => ?_
  rw [getField_expand b ph _ f hp, getField_rep _ hp, getField_rep _ hp]

end Sys2Proof.Machine

/-! READ_INFO, NOP, SET_ROTATION and the state after reset (R48, R152, R280, R282, R304). -/

namespace Sys2Proof.Machine

/-- Settles O19: NOP's next state is the state. -/
theorem nopChangesNothing : Obligations.NopChangesNothing := by
  unfold Obligations.NopChangesNothing
  exact fun _ => rfl

/-! ## READ_INFO (R282) -/

theorem exec_readInfo_zero (s : State) : exec (.readInfo 0) s = .next (putResult (pairWord s.build.h s.build.w) s) := rfl

theorem exec_readInfo_one (s : State) : exec (.readInfo 1) s = .next (putResult (pairWord s.build.d s.build.e) s) := rfl

theorem exec_readInfo_two (s : State) :
    exec (.readInfo 2) s = .next (putResult (pairWord (visH s.build s.rotation) (visW s.build s.rotation)) s) := rfl

theorem exec_readInfo_three (s : State) : exec (.readInfo 3) s = .next (raiseWithResult .badArgument s) := rfl

/-- A pair of 16-bit numbers loses no bit in a result word. -/
theorem halves_pairWord {hi lo : Nat} (hh : hi < 65536) (hl : lo < 65536) :
    (highHalf (pairWord hi lo)).toNat = hi ∧ (lowHalf (pairWord hi lo)).toNat = lo := by
  rw [pairWord, highHalf_append, lowHalf_append]
  exact ⟨toNat_ofNat16 hh, toNat_ofNat16 hl⟩

/-- At rotations 0 and 2 the visible size is the native size (R146). -/
theorem vis_of_even (b : Build) {r : BitVec 2} (h : r = 0 ∨ r = 2) : visW b r = b.w ∧ visH b r = b.h :=
  ⟨if_pos h, if_pos h⟩

/-- At rotations 1 and 3 width and height are exchanged (R146). -/
theorem vis_of_odd (b : Build) {r : BitVec 2} (h : r = 1 ∨ r = 3) : visW b r = b.h ∧ visH b r = b.w := by
  obtain rfl | rfl := h <;> exact ⟨rfl, rfl⟩

/-- Settles O21: every number fits its half of the word, since the build is well-formed. -/
theorem readInfoReturnsSizes : Obligations.ReadInfoReturnsSizes := by
  unfold Obligations.ReadInfoReturnsSizes
  intro s sel hb hsel
  obtain ⟨-, -, hw, -, hh⟩ := buildOk_sizes hb
  obtain ⟨-, he, -, hd, -, -⟩ := buildOk_frames hb
  obtain rfl | rfl | rfl | rfl := rot_cases sel
  · exact ⟨_, exec_readInfo_zero s, fun _ => halves_pairWord (by omega) (by omega), by simp, by simp, by simp⟩
  · exact ⟨_, exec_readInfo_one s, by simp, fun _ => halves_pairWord (by omega) (by omega), by simp, by simp⟩
  · refine ⟨_, exec_readInfo_two s, by simp, by simp, fun _ h => ?_, fun _ h => ?_⟩
    · rw [(vis_of_even s.build h).1, (vis_of_even s.build h).2]
      exact halves_pairWord (by omega) (by omega)
    · rw [(vis_of_odd s.build h).1, (vis_of_odd s.build h).2]
      exact halves_pairWord (by omega) (by omega)
  · exact absurd rfl hsel

/-- Settles O22: selector 3 takes the faulting branch. -/
theorem readInfoBadSelectorFaults : Obligations.ReadInfoBadSelectorFaults := by
  unfold Obligations.ReadInfoBadSelectorFaults
  intro s
  rw [exec_readInfo_three, raiseWithResult_badArgument]

/-! ## SET_ROTATION (R152) -/

theorem exec_setRotation (r : BitVec 2) (s : State) : exec (.setRotation r) s = .next { s with rotation := r } := rfl

/-- No byte depends on `ROTATION` (R151). -/
theorem readByte_rotation (r : BitVec 2) (sp : Space) (a : Nat) (s : State) :
    readByte sp a { s with rotation := r } = readByte sp a s :=
  readByte_congr (by cases sp <;> rfl) rfl

/-- Settles O23: SET_ROTATION's next state has `ROTATION` written, which no byte depends on. -/
theorem setRotationWritesRotation : Obligations.SetRotationWritesRotation := by
  unfold Obligations.SetRotationWritesRotation
  exact fun s r => ⟨exec_setRotation r s, fun sp a => readByte_rotation r sp a s⟩

/-! ## Reset (R48, R340) -/

/-- After a reset every byte is a free draw (R48). -/
theorem readByte_resetOf (b : Build) (n : Nat) (sp : Space) (a : Nat) :
    readByte sp a (State.resetOf b n) = Config.freeByte n sp a := by
  cases sp <;> rfl

/-- Settles O16: the given values are `resetOf`'s, and every byte is a free draw. -/
theorem resetStateValues : Obligations.ResetStateValues := by
  unfold Obligations.ResetStateValues
  exact fun b n => ⟨rfl, rfl, rfl, rfl, rfl, rfl, rfl, rfl, rfl, rfl, readByte_resetOf b n⟩

/-- What a reset makes of a state is the reset of every state with the same build, records and draw (R340). -/
theorem afterReset_resetEvent {s u : State} (hb : u.build = s.build) (hr : u.results = s.results)
    (hf : u.faultLog = s.faultLog) (hd : u.draw = s.draw) : AfterReset s (resetEvent u) := by
  refine ⟨hb, ⟨rfl, rfl, rfl⟩, rfl, rfl, rfl, rfl, rfl, rfl, rfl, hr, hf, fun sp a => ?_⟩
  rw [← hd]
  exact (readByte_congr (by cases sp <;> rfl) rfl).trans (readByte_resetOf u.build (u.draw + 1) sp a)

end Sys2Proof.Machine

/-! The classifier (R140 to R144), and the rotation addressing unit (R146 to R150). -/

namespace Sys2Proof.Machine

/-! ## The classifier -/

/-- In a well-formed build every sentinel lies in its own band, so the classifier is the band of the metric (R143). -/
theorem classify_eq_band {b : Build} (hb : buildOk b = true) (c : Color) : classify b c = band b (metric c) := by
  obtain ⟨hblack, hdark, hlight, hwhite⟩ := buildOk_bands hb
  unfold classify
  split_ifs with h1 h2 h3 h4
  · rw [h1, hblack]
  · rw [h2, hwhite]
  · rw [h3, hdark]
  · rw [h4, hlight]
  · rfl

/-- A brighter metric has no darker band (R142). -/
theorem band_mono {b : Build} (hb : buildOk b = true) {m n : Nat} (h : m ≤ n) : (band b m).toNat ≤ (band b n).toNat := by
  obtain ⟨-, h12, h23, -⟩ := buildOk_thresholds hb
  unfold band
  split_ifs <;> simp <;> omega

/-- Settles O31: the classifier is the band of the metric, which is monotone. -/
theorem classifierIsMonotone : Obligations.ClassifierIsMonotone := by
  unfold Obligations.ClassifierIsMonotone
  intro b hb
  refine ⟨classify_eq_band hb, ?_, fun c d h => ?_⟩
  · simp only [classify_eq_band hb]
    exact buildOk_bands hb
  · rw [classify_eq_band hb, classify_eq_band hb]
    exact band_mono hb h

/-! ## The rotation addressing unit -/

/-- Settles O32: R148's table is `native_eq`, and the bijection is `native_lt`, `native_surj` and `addr_inj`. -/
theorem rotationIsBijection : Obligations.RotationIsBijection := by
  unfold Obligations.RotationIsBijection
  intro b r hb
  refine ⟨fun h => vis_of_even b (.inl h), fun h => vis_of_odd b (.inl h), fun h => vis_of_even b (.inr h),
    fun h => vis_of_odd b (.inr h), fun x y hv => ?_, fun x y hv => ⟨(native_lt hv).1, (native_lt hv).2, addrByte_lt hb hv⟩,
    fun xn yn hx hy => native_surj r hx hy, fun x y x' y' hv hv' => addr_inj hb hv hv'⟩
  obtain ⟨hx, hy⟩ := native_eq hv
  rw [hx, hy]
  refine ⟨?_, ?_, ?_, ?_, rfl, rfl⟩ <;> (rintro rfl; exact ⟨rfl, rfl⟩)

end Sys2Proof.Machine

/-! FILL, DRAW_BITMAP, and what a pixel reads after a write (R153 to R156). -/

namespace Sys2Proof.Machine

/-! ## FILL (R154) -/

theorem exec_fill (c : Color) (s : State) :
    exec (.fill c) s = .next (writeAll (bufferOf .active s) (fun _ => rep (classify s.build c)) s) := rfl

@[simp] theorem spaceSize_bufferOf (b : Build) (role : Role) (s : State) : spaceSize b (bufferOf role s) = bufSize b := by
  obtain h | h := bufferOf_cases role s <;> rw [h] <;> rfl

/-- Writing all of a framebuffer changes no item but the framebuffers. -/
theorem writeAll_buffer (role : Role) (s t : State) (g : Nat → Byte) :
    writeAll (bufferOf role s) g t =
      { t with fb0 := (writeAll (bufferOf role s) g t).fb0, fb1 := (writeAll (bufferOf role s) g t).fb1 } := by
  obtain h | h := bufferOf_cases role s <;> rw [h] <;> rfl

theorem readByte_writeAll_buffer {role : Role} {s t : State} {a : Nat} (ha : a < bufSize t.build) (g : Nat → Byte) :
    readByte (bufferOf role s) a (writeAll (bufferOf role s) g t) = g a := by
  rw [readByte_writeAll, if_pos rfl, spaceSize_bufferOf, if_pos ha]

theorem readByte_writeAll_of_ne {sp sp' : Space} (h : sp' ≠ sp) (a : Nat) (g : Nat → Byte) (s : State) :
    readByte sp' a (writeAll sp g s) = readByte sp' a s := by
  rw [readByte_writeAll, if_neg h.symm]

/-- Settles O26: the next state is `writeAll`'s on the active buffer. -/
theorem fillWritesActiveBuffer : Obligations.FillWritesActiveBuffer := by
  unfold Obligations.FillWritesActiveBuffer
  exact fun s c => ⟨_, exec_fill c s, writeAll_buffer .active s s _, fun a ha => readByte_writeAll_buffer ha _,
    fun sp a h => readByte_writeAll_of_ne h a _ s⟩

theorem bufferOf_congr {s t : State} (h : t.activeSel = s.activeSel) (role : Role) : bufferOf role t = bufferOf role s := by
  cases role <;> simp only [bufferOf, h]

/-- A visible pixel of a buffer whose bytes are all `v` reads a field of `v` (R77). -/
theorem exec_readPixel_uniform {t : State} (hb : buildOk t.build = true) {role : Role} {v : Byte} {c : Code}
    (hv : ∀ a < bufSize t.build, readByte (bufferOf role t) a t = v) (hc : ∀ p < 4, getField v p = c)
    {r : BitVec 2} {x y : BitVec 16} (hvis : inVis t.build r x.toInt y.toInt = true) :
    exec (.readPixel role x y) { t with rotation := r } =
      .next { t with rotation := r, results := t.results ++ [c.setWidth 32] } := by
  have hcode : readPixelCode role x.toInt y.toInt { t with rotation := r } = c := by
    rw [readPixelCode, readByte_rotation]
    exact (congrArg (getField · _) (hv _ (addrByte_lt hb hvis))).trans (hc _ (addrField_lt _ _ _ _))
  rw [exec_readPixel_visible (s := { t with rotation := r }) hvis, hcode]
  rfl

/-- Settles O27: every byte of the active buffer is the replicated code. -/
theorem fillThenReadPixel : Obligations.FillThenReadPixel := by
  unfold Obligations.FillThenReadPixel
  intro s t c r x y hb h hvis
  rw [exec_fill] at h
  have ht := (Host.Outcome.next.inj h).symm
  have hbuild : t.build = s.build := by rw [ht, writeAll_build]
  have hbuf : bufferOf .active t = bufferOf .active s := bufferOf_congr (by rw [ht, writeAll_activeSel]) _
  refine exec_readPixel_uniform (hbuild ▸ hb) (v := rep (classify s.build c)) (fun a ha => ?_)
    (fun p hp => getField_rep _ hp) (by rw [hbuild]; exact hvis)
  rw [hbuf, ht]
  exact readByte_writeAll_buffer (hbuild ▸ ha) _

/-! ## SET_PIXEL, then READ_PIXEL -/

@[simp] theorem plot_build (c : Code) (x y : Int) (s : State) : (plot c x y s).build = s.build := by rw [plot_frame]
@[simp] theorem plot_rotation (c : Code) (x y : Int) (s : State) : (plot c x y s).rotation = s.rotation := by
  rw [plot_frame]
@[simp] theorem plot_activeSel (c : Code) (x y : Int) (s : State) : (plot c x y s).activeSel = s.activeSel := by
  rw [plot_frame]
@[simp] theorem plot_results (c : Code) (x y : Int) (s : State) : (plot c x y s).results = s.results := by
  rw [plot_frame]

/-- Settles O30: the pixel read is `readPixelCode_plot`'s. -/
theorem setPixelThenReadPixel : Obligations.SetPixelThenReadPixel := by
  unfold Obligations.SetPixelThenReadPixel
  intro s t x y x' y' c role hb hvis hvis' h
  rw [exec_setPixel] at h
  obtain rfl := Host.Outcome.next.inj h
  rw [exec_readPixel_visible (by simpa using hvis'), readPixelCode_plot hb _ hvis', putResult, plot_results]
  simp only [BitVec.toInt_inj]
  rfl

/-! ## DRAW_BITMAP (R155) -/

/-- Plot a list of pixels, each with the code that `F` gives its coordinates. -/
def plotAll (F : Int → Int → Code) (ps : List (Int × Int)) (s : State) : State :=
  ps.foldl (fun t p => plot (F p.1 p.2) p.1 p.2 t) s

theorem plotAll_append (F : Int → Int → Code) (ps qs : List (Int × Int)) (s : State) :
    plotAll F (ps ++ qs) s = plotAll F qs (plotAll F ps s) := List.foldl_append

/-- Plotted pixels have their codes, every other visible pixel keeps its own (R76, R149). -/
theorem readPixelCode_plotAll (F : Int → Int → Code) (ps : List (Int × Int)) {s : State} (hb : buildOk s.build = true)
    {x y : Int} (hv : inVis s.build s.rotation x y = true) :
    readPixelCode .active x y (plotAll F ps s) = if (x, y) ∈ ps then F x y else readPixelCode .active x y s := by
  induction ps generalizing s with
  | nil => simp [plotAll]
  | cons p ps ih =>
    obtain ⟨px, py⟩ := p
    change readPixelCode .active x y (plotAll F ps (plot (F px py) px py s)) = _
    rw [ih (by simpa using hb) (by simpa using hv), readPixelCode_plot hb _ hv]
    by_cases h : x = px ∧ y = py
    · obtain ⟨rfl, rfl⟩ := h
      simp
    · simp [h]

/-- A byte that holds no plotted visible pixel stays (R76). -/
theorem readByte_plotAll (F : Int → Int → Code) (ps : List (Int × Int)) {s : State} {sp : Space} {a : Nat}
    (h : sp ≠ bufferOf .active s ∨ ∀ p ∈ ps, inVis s.build s.rotation p.1 p.2 = true →
      a ≠ addrByte s.build s.rotation p.1 p.2) :
    readByte sp a (plotAll F ps s) = readByte sp a s := by
  induction ps generalizing s with
  | nil => rfl
  | cons p ps ih =>
    change readByte sp a (plotAll F ps (plot (F p.1 p.2) p.1 p.2 s)) = _
    rw [ih, readByte_plot, if_neg]
    · rintro ⟨hv, hsp, ha⟩
      exact h.elim (· hsp) (fun h => h p List.mem_cons_self hv ha)
    · rw [plot_build, plot_rotation, bufferOf_congr (plot_activeSel _ _ _ s)]
      exact h.imp_right fun h q hq => h q (List.mem_cons_of_mem _ hq)

/-- The pixels of a bitmap's row `j` (R155). -/
def rowPixels (x0 y0 : Int) (bw j : Nat) : List (Int × Int) :=
  (List.range bw).map fun i => (x0 + (i : Nat), y0 + (j : Nat))

/-- The pixels of a bitmap, row by row (R155). -/
def bitmapPixels (x0 y0 : Int) (bw bh : Nat) : List (Int × Int) := (List.range bh).flatMap (rowPixels x0 y0 bw)

theorem mem_bitmapPixels {x0 y0 : Int} {bw bh : Nat} {x y : Int} :
    (x, y) ∈ bitmapPixels x0 y0 bw bh ↔ Covers x0 y0 bw bh x y := by
  simp only [bitmapPixels, rowPixels, List.mem_flatMap, List.mem_map, List.mem_range, Prod.mk.injEq, Covers]
  constructor
  · rintro ⟨j, hj, i, hi, rfl, rfl⟩
    omega
  · rintro ⟨h1, h2, h3, h4⟩
    exact ⟨(y - y0).toNat, by omega, (x - x0).toNat, by omega, by omega, by omega⟩

/-- The code that a bitmap at `(x0, y0)` gives the pixel `(x, y)` (R113, R155). -/
def bitmapPixelCode (x0 y0 : Int) (bw : Nat) (fg : Code) (bytes : List Byte) (x y : Int) : Code :=
  bitmapCode fg (bitmapBit bytes bw (x - x0).toNat (y - y0).toNat)

theorem plotRow_eq_plotAll (x0 y0 : Int) (bw : Nat) (fg : Code) (bytes : List Byte) (j : Nat) (s : State) :
    plotRow x0 y0 bw fg bytes j s = plotAll (bitmapPixelCode x0 y0 bw fg bytes) (rowPixels x0 y0 bw j) s := by
  simp [plotRow, plotAll, rowPixels, List.foldl_map, bitmapPixelCode]

theorem plotBitmap_eq_plotAll (x0 y0 : Int) (bw bh : Nat) (fg : Code) (bytes : List Byte) (s : State) :
    plotBitmap x0 y0 bw bh fg bytes s =
      plotAll (bitmapPixelCode x0 y0 bw fg bytes) (bitmapPixels x0 y0 bw bh) s := by
  simp only [plotBitmap, bitmapPixels]
  induction List.range bh generalizing s with
  | nil => rfl
  | cons j js ih => rw [List.foldl_cons, ih, List.flatMap_cons, plotAll_append, plotRow_eq_plotAll]

theorem exec_drawBitmap (x y bw bh : BitVec 16) (fg : Color) (bytes : List Byte) (s : State) :
    exec (.drawBitmap x y bw bh fg bytes) s =
      .next (plotBitmap x.toInt y.toInt bw.toNat bh.toNat (classify s.build fg) bytes s) := rfl

/-- Settles O28: a bitmap is a list of plots whose pixels are the covered ones, each with its bit's code. -/
theorem drawBitmapPlotsVisiblePixels : Obligations.DrawBitmapPlotsVisiblePixels := by
  unfold Obligations.DrawBitmapPlotsVisiblePixels
  intro s x0 y0 bw bh fg bytes hb _
  refine ⟨_, exec_drawBitmap x0 y0 bw bh fg bytes s, ?_⟩
  obtain ⟨m0, m1, hframe⟩ := plotBitmap_frame x0.toInt y0.toInt bw.toNat bh.toNat (classify s.build fg) bytes s
  have hread : ∀ x y, readPixelCode .active x y (plotBitmap x0.toInt y0.toInt bw.toNat bh.toNat (classify s.build fg) bytes s) =
      getField (readByte (bufferOf .active s) (addrByte s.build s.rotation x y)
        (plotBitmap x0.toInt y0.toInt bw.toNat bh.toNat (classify s.build fg) bytes s)) (addrField s.build s.rotation x y) := by
    intro x y
    rw [hframe]
    rfl
  refine ⟨by rw [hframe], fun x y hv hc => ?_, fun x y hv hc => ?_, fun sp a h => ?_⟩
  · rw [← hread, plotBitmap_eq_plotAll, readPixelCode_plotAll _ _ hb hv, if_pos (mem_bitmapPixels.2 hc)]
    rfl
  · rw [← hread, plotBitmap_eq_plotAll, readPixelCode_plotAll _ _ hb hv, if_neg (mt mem_bitmapPixels.1 hc)]
    rfl
  · rw [plotBitmap_eq_plotAll, readByte_plotAll]
    exact h.imp_right fun h p hp hv => h p.1 p.2 hv (mem_bitmapPixels.1 hp)

end Sys2Proof.Machine

/-! Everything a command can do, said once, and the invariants that follow (R22, R42, R208, R300). -/

namespace Sys2Proof.Machine

/-! ## What a command can do -/

/-- `t` is `s` with some plots and fills of the active buffer. -/
inductive Painted (s : State) : State → Prop where
  | refl : Painted s s
  | plot {t : State} (c : Code) (x y : Int) (h : Painted s t) : Painted s (plot c x y t)
  | fill {t : State} (g : Nat → Byte) (h : Painted s t) : Painted s (writeAll (bufferOf .active t) g t)

/-- Painting changes no item but the framebuffers (R153 to R155). -/
theorem Painted.frame {s t : State} (h : Painted s t) : t = { s with fb0 := t.fb0, fb1 := t.fb1 } := by
  induction h with
  | refl => rfl
  | plot c x y _ ih =>
    rw [plot_frame, ih]
  | fill g _ ih =>
    rw [writeAll_buffer .active, ih]

/-- Painting writes no byte outside the active buffer. -/
theorem Painted.readByte_of_ne {s t : State} (h : Painted s t) {sp : Space} (hsp : sp ≠ bufferOf .active s) (a : Nat) :
    readByte sp a t = readByte sp a s := by
  have hsame : ∀ {u : State}, Painted s u → bufferOf .active u = bufferOf .active s :=
    fun hu => bufferOf_congr (by rw [hu.frame]) _
  induction h with
  | refl => rfl
  | plot c x y hu ih =>
    rw [← hsame hu] at hsp
    rw [readByte_plot_of_ne c (.inl hsp), ih]
  | fill g hu ih =>
    rw [← hsame hu] at hsp
    rw [readByte_writeAll_of_ne hsp, ih]

/-- Everything that command `i` can have made of `s` (R152 to R156, R206, R250, R255, R301). -/
inductive CommandEffect (i : Instr) (s : State) : State → Prop where
  | paint {t : State} (h : Painted s t) : CommandEffect i s t
  | init (hi : i = .init) : CommandEffect i s (afterInit s)
  | rotate (r : BitVec 2) (hi : i = .setRotation r) : CommandEffect i s { s with rotation := r }
  | result (w : Word) : CommandEffect i s (putResult w s)
  | fault (f : FaultCode) : CommandEffect i s (raiseFault f s)
  | faultWithResult (f : FaultCode) : CommandEffect i s (raiseWithResult f s)
  | refresh (x : Refresh) (hx : x ∈ refreshes s) (hl : s.lutValid = true) (hi : i = x.command) :
    CommandEffect i s (perform x.actions (x.start s))

/-- ERASE_DISPLAY with its tables performs the actions of R255. -/
theorem exec_eraseDisplay_of_lutValid {s : State} (h : s.lutValid = true) :
    exec .eraseDisplay s = .next (perform (displayActions s.build) (startJob .eraseDisplay 0 s)) := by
  simp [exec, execEraseDisplay, h]

/-- A refresh command with its tables performs its actions (R250, R255). -/
theorem exec_refresh {s : State} (hl : s.lutValid = true) {x : Refresh} (hx : x ∈ refreshes s) :
    exec x.command s = .next (perform x.actions (x.start s)) := by
  simp only [refreshes, List.mem_cons, List.not_mem_nil, or_false] at hx
  obtain rfl | rfl := hx
  · exact exec_update_of_lutValid hl
  · exact exec_eraseDisplay_of_lutValid hl

/-- UPDATE and ERASE_DISPLAY: a fault, or the refresh. -/
theorem refresh_effect {s t : State} {x : Refresh} (hx : x ∈ refreshes s) (h : exec x.command s = .next t) :
    CommandEffect x.command s t := by
  cases hl : s.lutValid with
  | true =>
    rw [exec_refresh hl hx] at h
    obtain rfl := Host.Outcome.next.inj h
    exact .refresh x hx hl rfl
  | false =>
    have hfault : exec x.command s = .next (raiseFault .notInit s) := by
      simp only [refreshes, List.mem_cons, List.not_mem_nil, or_false] at hx
      obtain rfl | rfl := hx
      · exact exec_update_of_not_lutValid hl
      · exact exec_eraseDisplay_of_not_lutValid hl
    rw [hfault] at h
    obtain rfl := Host.Outcome.next.inj h
    exact .fault .notInit

theorem exec_effect {i : Instr} {s t : State} (h : exec i s = .next t) : CommandEffect i s t := by
  cases i with
  | nop =>
    obtain rfl := Host.Outcome.next.inj h
    exact .paint .refl
  | init =>
    obtain rfl := Host.Outcome.next.inj h
    exact .init rfl
  | setRotation r =>
    obtain rfl := Host.Outcome.next.inj h
    exact .rotate r rfl
  | setPixel x y c =>
    obtain rfl := Host.Outcome.next.inj h
    exact .paint (.plot _ _ _ .refl)
  | fill c =>
    obtain rfl := Host.Outcome.next.inj h
    exact .paint (.fill _ .refl)
  | drawBitmap x y bw bh fg bytes =>
    obtain rfl := Host.Outcome.next.inj h
    exact .paint (plotBitmap_keeps (fun c x y t ht => .plot c x y ht) _ _ _ _ _ _ .refl)
  | readPixel role x y =>
    obtain rfl := Host.Outcome.next.inj h
    exact .result _
  | readStatus =>
    obtain rfl := Host.Outcome.next.inj h
    exact .result _
  | readInfo sel =>
    obtain rfl | rfl | rfl | rfl := rot_cases sel <;> obtain rfl := Host.Outcome.next.inj h
    · exact .result _
    · exact .result _
    · exact .result _
    · exact .faultWithResult .badArgument
  | readLut p v f =>
    cases hl : s.lutValid with
    | false =>
      rw [exec_readLut_of_not_lutValid hl] at h
      obtain rfl := Host.Outcome.next.inj h
      exact .faultWithResult .notInit
    | true =>
      by_cases hf : f.toNat < frameCount s.build p
      · rw [exec_readLut_of_lt hl hf] at h
        obtain rfl := Host.Outcome.next.inj h
        exact .result _
      · rw [exec_readLut_of_le hl (Nat.le_of_not_lt hf)] at h
        obtain rfl := Host.Outcome.next.inj h
        exact .faultWithResult .badArgument
  | update => exact refresh_effect (x := updateRefresh s) (by simp [refreshes]) h
  | eraseDisplay => exact refresh_effect (x := displayRefresh s) (by simp [refreshes]) h

/-! ## What a step can do -/

/-- Everything that a step can have made of `s` (R27, R101, R231, R340; log 9). -/
inductive StepEffect (s : State) : State → Prop where
  | reset (k : Nat) (hr : s.resetAfter = some k) (hk : k ≠ 0 → Idle s) : StepEffect s (resetAfterWords k s)
  | hold (n : Nat) (hi : Idle s) (hd : decode (offeredWords s) = .incomplete) : StepEffect s (holdWords (elapse n s))
  | illegal (n : Nat) (why : Illegal) (rest : List Word) (hi : Idle s)
    (hd : decode (offeredWords s) = .illegal why rest) :
    StepEffect s (endCommand (illegalPacket why (packetTaken rest (elapse n s))))
  | command (n : Nat) (i : Instr) (rest : List Word) (u : State) (hi : Idle s)
    (hd : decode (offeredWords s) = .command i rest) (he : exec i (packetTaken rest (elapse n s)) = .next u) :
    StepEffect s (endCommand u)
  | wait (e : Event) (as : List Action) (hp : s.presented = some e) (hrest : restActions s e = some as)
    (hack : (acknowledge (tickReset s)).presented.isSome = true) : StepEffect s (acknowledge (tickReset s))
  | goOn (e : Event) (as : List Action) (hp : s.presented = some e) (hrest : restActions s e = some as)
    (hack : (acknowledge (tickReset s)).presented = none) : StepEffect s (perform as (acknowledge (tickReset s)))

theorem step_effect {s t : State} (h : step s = .next t) : buildOk s.build = true ∧ StepEffect s t := by
  obtain ⟨hb, ⟨hr, rfl⟩ | ⟨-, hi, ⟨k, hr, -, rfl⟩ | ⟨-, ⟨hd, rfl⟩ | ⟨why, rest, hd, rfl⟩ | ⟨i, rest, u, hd, he, rfl⟩⟩⟩ |
    ⟨-, -, hres⟩⟩ := step_next h
  · exact ⟨hb, .reset 0 hr (absurd rfl)⟩
  · exact ⟨hb, .reset k hr fun _ => hi⟩
  · exact ⟨hb, .hold _ hi hd⟩
  · exact ⟨hb, .illegal _ why rest hi hd⟩
  · exact ⟨hb, .command _ i rest u hi hd he⟩
  · obtain ⟨e, as, hp, hrest, ⟨hack, rfl⟩ | ⟨hack, rfl⟩⟩ := resume_some hres
    · exact ⟨hb, .wait e as hp hrest hack⟩
    · exact ⟨hb, .goOn e as hp hrest (by simpa using hack)⟩

/-! ## Invariants of the stored items -/

/-- `t` stores what `s` does: the build, every byte, `LUT_VALID`, `ERR` and the fault history. -/
structure SameStore (s t : State) : Prop where
  build : t.build = s.build
  draw : t.draw = s.draw
  lutValid : t.lutValid = s.lutValid
  err : t.err = s.err
  faultLog : t.faultLog = s.faultLog
  spaces : ∀ sp, spaceOf sp t = spaceOf sp s

/-- `P` speaks of the stored items alone, and every write of one keeps it. -/
structure Kept (P : State → Prop) : Prop where
  store : ∀ {u v : State}, SameStore u v → P u → P v
  fault : ∀ f u, P u → P (raiseFault f u)
  init : ∀ u, P u → P (afterInit u)
  plot : ∀ c x y u, buildOk u.build = true → P u → P (plot c x y u)
  fill : ∀ role g u, P u → P (writeAll (bufferOf role u) g u)
  row : ∀ g u, P u → P (writeAll .rowbuf g u)

theorem sameStore_endCommand (s : State) : SameStore s (endCommand s) :=
  ⟨endCommand_build s, endCommand_draw s, endCommand_lutValid s, endCommand_err s, endCommand_faultLog s,
    fun sp => by cases sp <;> simp [spaceOf]⟩

theorem sameStore_acknowledge (s : State) : SameStore s (acknowledge s) :=
  ⟨acknowledge_build s, acknowledge_draw s, acknowledge_lutValid s, acknowledge_err s, acknowledge_faultLog s,
    fun sp => by cases sp <;> simp [spaceOf]⟩

theorem sameStore_emit (e : Event) (s : State) : SameStore s (emit e s) :=
  ⟨emit_build s e, emit_draw s e, emit_lutValid s e, emit_err s e, emit_faultLog s e,
    fun sp => by cases sp <;> simp [spaceOf]⟩

theorem sameStore_packetTaken (rest : List Word) (n : Nat) (s : State) : SameStore s (packetTaken rest (elapse n s)) :=
  ⟨rfl, rfl, rfl, rfl, rfl, fun sp => by cases sp <;> rfl⟩

section
variable {P : State → Prop} (hP : Kept P)
include hP

/-- `P` holds of every state with the same stored items. -/
theorem Kept.same {u : State} (v : State) (hu : P u) (spaces : ∀ sp, spaceOf sp v = spaceOf sp u)
    (build : v.build = u.build := by rfl) (draw : v.draw = u.draw := by rfl)
    (lutValid : v.lutValid = u.lutValid := by rfl) (err : v.err = u.err := by rfl)
    (faultLog : v.faultLog = u.faultLog := by rfl) : P v :=
  hP.store ⟨build, draw, lutValid, err, faultLog, spaces⟩ hu

theorem Kept.act (a : Action) {s : State} (hs : P s) : P (act a s) := by
  cases a with
  | emitPwrOn => exact hP.store (sameStore_emit _ s) hs
  | emitPwrOff => exact hP.store (sameStore_emit _ s) hs
  | emitScan => exact hP.store (sameStore_emit _ s) hs
  | emitRow => exact hP.store (sameStore_emit _ s) hs
  | build p f r => exact hP.row _ s hs
  | white role => exact hP.fill role _ s hs
  | _ => exact hP.same _ hs fun sp => by cases sp <;> rfl

/-- A list of actions keeps `P`, if a reset does or none is awaited. -/
theorem Kept.perform (as : List Action) {s : State} (hr : s.resetAfter = none ∨ ∀ u, P u → P (resetEvent u))
    (hs : P s) : P (perform as s) := by
  obtain hr | hr := hr
  · exact perform_keeps_noReset as (fun a _ u hu => hP.act a hu) s hr hs
  · exact perform_keeps hr as (fun a _ u hu => hP.act a (hP.same _ hu fun sp => by cases sp <;> rfl)) s hs

theorem Kept.painted {s t : State} (h : Painted s t) (hb : buildOk s.build = true) (hs : P s) : P t := by
  induction h with
  | refl => exact hs
  | plot c x y hu ih =>
    refine hP.plot c x y _ ?_ ih
    rw [hu.frame]
    exact hb
  | fill g _ ih => exact hP.fill .active g _ ih

theorem Kept.exec {i : Instr} {s t : State} (hb : buildOk s.build = true)
    (hr : s.resetAfter = none ∨ ∀ u, P u → P (resetEvent u)) (h : exec i s = .next t) (hs : P s) : P t := by
  cases exec_effect h with
  | paint hp => exact hP.painted hp hb hs
  | init _ => exact hP.init s hs
  | rotate r _ => exact hP.same _ hs fun sp => by cases sp <;> rfl
  | result w => exact hP.same _ hs fun sp => by cases sp <;> rfl
  | fault f => exact hP.fault f s hs
  | faultWithResult f => exact hP.fault f _ (hP.same _ hs fun sp => by cases sp <;> rfl)
  | refresh x _ _ _ => exact hP.perform _ hr (hP.same _ hs fun sp => by cases sp <;> rfl)

/-- Every step keeps `P`, if a reset does or none is awaited. -/
theorem Kept.step {s t : State} (hr : s.resetAfter = none ∨ ∀ u, P u → P (resetEvent u)) (h : step s = .next t)
    (hs : P s) : P t := by
  obtain ⟨hb, he⟩ := step_effect h
  have hnone : ∀ {u : State}, (s.resetAfter = none → u.resetAfter = none) →
      u.resetAfter = none ∨ ∀ u, P u → P (resetEvent u) := fun hu => hr.imp_left hu
  have taken : ∀ n rest, P (packetTaken rest (elapse n s)) := fun n rest => hP.store (sameStore_packetTaken rest n s) hs
  have acked : P (acknowledge (tickReset s)) :=
    hP.store (sameStore_acknowledge _) (hP.same _ hs fun sp => by cases sp <;> rfl)
  cases he with
  | reset k hk _ =>
    exact hr.elim (fun hn => absurd (hn.symm.trans hk) (by simp)) fun hr =>
      hr { s with cmdChan := s.cmdChan.drop k } (hP.same _ hs fun sp => by cases sp <;> rfl)
  | hold n _ _ => exact hP.same _ hs fun sp => by cases sp <;> rfl
  | illegal n why rest _ _ =>
    rw [illegalPacket_eq]
    exact hP.store (sameStore_endCommand _)
      (hP.same _ (hP.fault .illegalCommand _ (taken n rest)) fun sp => by cases sp <;> rfl)
  | command n i rest u _ _ he =>
    exact hP.store (sameStore_endCommand u) (hP.exec (s := packetTaken rest (elapse n s)) hb (hnone fun hn => by simp [hn]) he (taken n rest))
  | wait _ _ _ _ _ => exact acked
  | goOn _ as _ _ _ => exact hP.perform as (hnone fun hn => by simp [hn]) acked

end

/-! ## The build (R42) -/

theorem kept_build (b : Build) : Kept fun u => u.build = b where
  store h := h.build.trans
  fault _ _ h := h
  init _ h := h
  plot c x y u _ h := (plot_build c x y u).trans h
  fill _ _ u h := (writeAll_build u _ _).trans h
  row _ u h := (writeAll_build u _ _).trans h

/-- Settles O51: no write of an item writes the build. -/
theorem buildNeverChanges : Obligations.BuildNeverChanges := by
  unfold Obligations.BuildNeverChanges
  exact fun s t h => (kept_build s.build).step (.inr fun _ hu => hu) h rfl

/-! ## Memory (R22, R70) -/

theorem kept_memoryOk : Kept MemoryOk where
  store h hu sp := by
    have := hu sp
    rwa [spaceOk, ← h.spaces, ← h.build] at this
  fault _ _ hu sp := by
    have := hu sp
    cases sp <;> exact this
  init u hu sp := by
    have : spaceOk sp (expandTable .draw (expandTable .erase u)) := spaceOk_writeAll (spaceOk_writeAll (hu sp) _) _
    cases sp <;> exact this
  plot c x y u hb hu sp := by
    unfold plot
    split
    · next hv => exact spaceOk_writeByte (hu sp) (by rw [spaceSize_bufferOf]; exact addrByte_lt hb hv) _
    · exact hu sp
  fill _ _ _ hu sp := spaceOk_writeAll (hu sp) _
  row _ _ hu sp := spaceOk_writeAll (hu sp) _

/-- After a reset no byte of any space is listed (R48). -/
theorem memoryOk_of_empty {s : State} (h : ∀ sp, spaceOf sp s = []) : MemoryOk s := by
  intro sp
  rw [spaceOk, h sp]
  exact ⟨List.Pairwise.nil, by simp [Memory.within]⟩

/-- Settles O54: every write of a byte keeps its space canonical and stays inside it; a reset empties every space. -/
theorem stepKeepsMemory : Obligations.StepKeepsMemory := by
  unfold Obligations.StepKeepsMemory
  exact fun s t hs h => kept_memoryOk.step
    (.inr fun _ _ => memoryOk_of_empty fun sp => by cases sp <;> rfl) h hs

/-! ## The tables (R208) -/

theorem lutSpace_ne_bufferOf (p : Phase) (role : Role) (s : State) : lutSpace p ≠ bufferOf role s := by
  obtain h | h := bufferOf_cases role s <;> rw [h] <;> cases p <;> decide

theorem lutSpace_ne_rowbuf (p : Phase) : lutSpace p ≠ .rowbuf := by cases p <;> decide

/-- The tables keep what they hold when neither they nor `LUT_VALID` nor the build is written. -/
theorem TablesOk.congr {u v : State} (hu : TablesOk u) (hb : v.build = u.build) (hl : v.lutValid = u.lutValid)
    (hread : ∀ p a, readByte (lutSpace p) a v = readByte (lutSpace p) a u) : TablesOk v := by
  intro hv p b f hf
  rw [readTable, hread, hb]
  exact hu (hl ▸ hv) p b f (hb ▸ hf)

theorem kept_tablesOk : Kept TablesOk where
  store h hu := hu.congr h.build h.lutValid fun _ _ => readByte_congr (h.spaces _) h.draw
  fault _ _ hu := hu.congr rfl rfl fun p _ => readByte_congr (by cases p <;> rfl) rfl
  init u _ _ p v _ hf := readTable_afterInit u hf v
  plot c x y u _ hu := hu.congr (plot_build c x y u) (by rw [plot_frame])
    fun p _ => readByte_plot_of_ne c (.inl (lutSpace_ne_bufferOf p .active u))
  fill role _ u hu := hu.congr (writeAll_build u _ _) (writeAll_lutValid u _ _)
    fun p a => readByte_writeAll_of_ne (lutSpace_ne_bufferOf p role u) a _ u
  row _ u hu := hu.congr (writeAll_build u _ _) (writeAll_lutValid u _ _)
    fun p a => readByte_writeAll_of_ne (lutSpace_ne_rowbuf p) a _ u

theorem tablesOk_of_not_lutValid {s : State} (h : s.lutValid = false) : TablesOk s :=
  fun ht => absurd (h.symm.trans ht) (by decide)

/-- Settles O55: INIT writes the expansion, nothing else writes a table, and a reset clears `LUT_VALID`. -/
theorem stepKeepsTables : Obligations.StepKeepsTables := by
  unfold Obligations.StepKeepsTables
  exact fun s t hs h => kept_tablesOk.step (.inr fun _ _ => tablesOk_of_not_lutValid rfl) h hs

/-! ## `ERR` (R37, R300, R301) -/

theorem kept_errOk : Kept ErrOk where
  store h hu := by rwa [ErrOk, h.err, h.faultLog]
  fault f u hu := by
    right
    by_cases h0 : u.err = 0
    · exact ⟨f, by simp, by simp [h0]⟩
    · obtain ⟨g, hg, he⟩ := hu.resolve_left h0
      exact ⟨g, by simp [hg], (if_neg h0).trans he⟩
  init _ hu := hu
  plot _ _ _ _ _ hu := by rw [plot_frame]; exact hu
  fill _ _ _ hu := by simpa [ErrOk] using hu
  row _ _ hu := by simpa [ErrOk] using hu

/-- Settles O58: only a fault writes `ERR`, with its code; a reset clears it. -/
theorem stepKeepsErr : Obligations.StepKeepsErr := by
  unfold Obligations.StepKeepsErr
  exact fun s t hs h => kept_errOk.step (.inr fun _ _ => .inl rfl) h hs

theorem kept_err {e : BitVec 4} (he : e ≠ 0) : Kept fun u => u.err = e where
  store h := h.err.trans
  fault _ u h := (if_neg (h ▸ he)).trans h
  init _ h := h
  plot _ _ _ _ _ h := by rw [plot_frame]; exact h
  fill _ _ u h := (writeAll_err u _ _).trans h
  row _ u h := (writeAll_err u _ _).trans h

/-- Settles O49: a fault keeps an `ERR` that is not 0, and nothing else writes it. -/
theorem errIsSticky : Obligations.ErrIsSticky := by
  unfold Obligations.ErrIsSticky
  exact fun s t hr he h => (kept_err he).step (.inl hr) h rfl

end Sys2Proof.Machine

/-! The command port: what one step takes, runs, holds and abandons (R44, R45, R101, R340, R341, R352). -/

namespace Sys2Proof.Machine

/-! ## The step that runs a command -/

/-- With no reset due among the words it takes, the idle block takes them. -/
theorem nextMove_of_later {s : State} (hb : buildOk s.build = true) (hi : Idle s)
    (hr : resetWithin (wordsTaken s) s = none) : nextMove s = takeWords s := by
  have h0 : s.resetAfter ≠ some 0 := fun h0 => by simp [resetWithin, h0] at hr
  simp [nextMove, hb, h0, (portFree_iff s).2 hi, hr]

theorem endCommand_eq (u : State) : endCommand u = if u.presented = none then { tickReset u with busy := false } else u := by
  cases hp : u.presented with
  | none => exact endCommand_done hp
  | some e => simp [endCommand_waits hp]

theorem wordsTaken_command {s : State} {i : Instr} {rest : List Word} (hd : decode (offeredWords s) = .command i rest) :
    wordsTaken s = s.cmdChan.length - rest.length := by
  rw [wordsTaken, hd]

/-- The step of an idle block whose offered words begin with a command's packet (R27, R101). -/
theorem step_command {s : State} {i : Instr} {rest : List Word} (hb : buildOk s.build = true) (hi : Idle s)
    (hd : decode (offeredWords s) = .command i rest) (hr : resetWithin (wordsTaken s) s = none) :
    ∃ u, exec i (packetTaken rest (elapse (s.cmdChan.length - rest.length) s)) = .next u ∧
      step s = .next (if u.presented = none then { tickReset u with busy := false } else u) := by
  obtain ⟨u, hu⟩ := exec_next i (packetTaken rest (elapse (s.cmdChan.length - rest.length) s))
  refine ⟨u, hu, ?_⟩
  simp only [step, nextMove_of_later hb hi hr, takeWords, hd, wordsTaken_command hd, hu, endCommand_eq]

theorem packetTaken_elapse_of_none {s : State} (hr : s.resetAfter = none) (rest : List Word) (n : Nat) :
    packetTaken rest (elapse n s) = { s with asm := [], cmdChan := rest, busy := true } := by
  rw [elapse_none hr]
  rfl

theorem packetTaken_elapse_of_some {s : State} {k : Nat} (hr : s.resetAfter = some k) (rest : List Word) (n : Nat) :
    packetTaken rest (elapse n s) = { s with asm := [], cmdChan := rest, busy := true, resetAfter := some (k - n) } := by
  simp [packetTaken, elapse, hr]

/-- Settles O8: both clauses are `step_command`, with the reset's count lowered by the words taken in the second. -/
theorem stepRunsDecodedCommand : Obligations.StepRunsDecodedCommand := by
  unfold Obligations.StepRunsDecodedCommand
  refine fun s i rest hb hi hd => ⟨fun hr => ?_, fun k hr hk => ?_⟩
  · have := step_command hb hi hd (resetWithin_none hr _)
    rwa [packetTaken_elapse_of_none hr] at this
  · have := step_command hb hi hd (by simp [resetWithin, hr, wordsTaken_command hd, hk])
    rwa [packetTaken_elapse_of_some hr] at this

/-- Settles O9: the words offered decode to the command, and what follows them is left. -/
theorem offeredCommandRuns : Obligations.OfferedCommandRuns := by
  unfold Obligations.OfferedCommandRuns
  intro s i rest hb hi hr hasm hchan hw
  have hd : decode (offeredWords s) = .command i rest := by
    rw [offeredWords, hasm, hchan, List.nil_append]
    exact decodeOfEncode i rest hw
  have hs : { s with asm := [], cmdChan := rest, busy := true } = { s with cmdChan := rest, busy := true } := by
    rw [← hasm]
  rw [← hs]
  exact (stepRunsDecodedCommand s i rest hb hi hd).1 hr

/-! ## The step that takes part of a packet -/

/-- The step of an idle block whose offered words are no whole packet (R45, R101). -/
theorem step_incomplete {s : State} (hb : buildOk s.build = true) (hi : Idle s) (hr : s.resetAfter = none)
    (hd : decode (offeredWords s) = .incomplete) : step s = .next (holdWords s) := by
  simp only [step, nextMove_of_idle hb hi hr, takeWords, hd, elapse_none hr]

/-- What the port makes of its words depends on the words offered alone: not on how many of them the assembler holds, nor on
`BUSY` (R45). -/
theorem step_congr_offered {s t : State} (hb : buildOk s.build = true) (hi : Idle s) (hr : s.resetAfter = none)
    (ht : ∃ a c b, t = { s with asm := a, cmdChan := c, busy := b }) (ho : offeredWords t = offeredWords s) :
    step t = step s := by
  obtain ⟨a, c, b, rfl⟩ := ht
  have moves : takeWords { s with asm := a, cmdChan := c, busy := b } = takeWords s := by
    simp only [takeWords, ho, elapse_none hr, elapse_none (s := { s with asm := a, cmdChan := c, busy := b }) hr]
    cases decode (offeredWords s) with
    | command i rest => rfl
    | illegal why rest => rfl
    | incomplete => simp only [holdWords, ho]
  simp only [step, nextMove_of_idle hb hi hr,
    nextMove_of_idle (s := { s with asm := a, cmdChan := c, busy := b }) hb hi hr, moves]

/-- Settles O10: the first step holds the words, and the second sees the same words offered as if they had come together. -/
theorem splitPacketRunsTheSame : Obligations.SplitPacketRunsTheSame := by
  unfold Obligations.SplitPacketRunsTheSame
  intro s ws vs hb hi hr hasm hd
  have ho : offeredWords { s with cmdChan := ws } = ws := by simp [offeredWords, hasm]
  refine ⟨_, step_incomplete (s := { s with cmdChan := ws }) hb hi hr (by rwa [ho]), ?_, ?_, ?_⟩
  · simp [holdWords, ho]
  · simp [ho]
  · refine step_congr_offered (s := { s with cmdChan := ws ++ vs }) hb hi hr
      ⟨ws, vs, !(offeredWords { s with cmdChan := ws }).isEmpty, ?_⟩ ?_
    · simp [holdWords, ho]
    · simp [offeredWords, hasm]

/-- Settles O11: there is no word to hold. -/
theorem idleBlockWaits : Obligations.IdleBlockWaits := by
  unfold Obligations.IdleBlockWaits
  intro s hb hi hr hasm hchan hbusy
  have ho : offeredWords s = [] := by simp [offeredWords, hasm, hchan]
  rw [step_incomplete hb hi hr (by rw [ho]; rfl)]
  congr 1
  cases s
  simp_all [holdWords]

/-! ## Refused builds -/

theorem step_of_not_buildOk {s : State} (h : buildOk s.build ≠ true) : step s = .refused .illFormedBuild := by
  simp [step, nextMove, h]

/-- Settles O12: each range is one that a well-formed build keeps. -/
theorem illFormedBuildRefused : Obligations.IllFormedBuildRefused := by
  unfold Obligations.IllFormedBuildRefused
  refine fun s h => step_of_not_buildOk fun hb => ?_
  obtain ⟨hw4, hw, hw', hh, hh'⟩ := buildOk_sizes hb
  obtain ⟨he, he', hd, hd', -, -⟩ := buildOk_frames hb
  obtain h | h | h | h | h | h | h := h
  · exact h ⟨hw4, hw, hw'⟩
  · exact h ⟨hh, hh'⟩
  · exact h ⟨he, he'⟩
  · exact h ⟨hd, hd'⟩
  · exact h (buildOk_distinct hb)
  · exact h (buildOk_thresholds hb)
  · exact h (buildOk_bands hb)

/-! ## A waiting refresh -/

theorem Waiting.not_idle {s : State} (h : Waiting s) : ¬ Idle s := by
  obtain ⟨e, as, hp, -⟩ := h
  exact fun hi => by simp [hi.2.2] at hp

/-- The step of a waiting refresh, with no reset due before it: the transport answers, and the refresh goes on if its event is
acknowledged (R231). -/
theorem step_waiting {s : State} {e : Event} {as : List Action} (hb : buildOk s.build = true) (hp : s.presented = some e)
    (hrest : restActions s e = some as) (hr : s.resetAfter ≠ some 0) :
    step s = .next (if (acknowledge (tickReset s)).presented.isSome then acknowledge (tickReset s)
      else perform as (acknowledge (tickReset s))) := by
  have hfree : portFree s = false := (portFree_false s).2 fun hi => by simp [hi.2.2] at hp
  have hres : resume (tickReset s) = some (if (acknowledge (tickReset s)).presented.isSome then acknowledge (tickReset s)
      else perform as (acknowledge (tickReset s))) := by
    have hrest' : restActions (tickReset s) e = some as := ((samePos_tickReset s).rest e).trans hrest
    simp only [resume, tickReset_presented, hp, hrest']
    split <;> rfl
  simp only [step, nextMove, hb, hr, hfree, hres, if_true, if_false, Bool.false_eq_true]

theorem acknowledge_stalled {s : State} (h : s.transport = .acksLeft 0) : acknowledge s = s := by
  simp [acknowledge, h]

/-- Settles O13: the event stays presented. -/
theorem hungTransportHolds : Obligations.HungTransportHolds := by
  unfold Obligations.HungTransportHolds
  rintro s hb ⟨e, as, hp, hrest⟩ hr htr
  rw [step_waiting hb hp hrest (by simp [hr]), tickReset_none hr, acknowledge_stalled htr, if_pos (by simp [hp])]

/-- A list of actions takes no word, and fills no assembler (R352). -/
theorem perform_takes_no_word (as : List Action) (s : State) :
    (perform as s).cmdChan = s.cmdChan ∧ (s.asm = [] → (perform as s).asm = []) := by
  refine perform_keeps (P := fun u => u.cmdChan = s.cmdChan ∧ (s.asm = [] → u.asm = [])) (fun u h => ⟨h.1, fun _ => rfl⟩)
    as (fun a _ u h => ?_) s ⟨rfl, id⟩
  cases a <;> simpa [act, buildRow] using h

/-- Settles O14: a block that is not idle resets or goes on with its refresh. -/
theorem runningCommandTakesNoWord : Obligations.RunningCommandTakesNoWord := by
  unfold Obligations.RunningCommandTakesNoWord
  intro s t hi h
  cases (step_effect h).2 with
  | reset k hr hk =>
    obtain rfl : k = 0 := by
      by_contra h0
      exact hi (hk h0)
    exact ⟨rfl, fun _ => rfl⟩
  | hold n hi' hd => exact absurd hi' hi
  | illegal n why rest hi' hd => exact absurd hi' hi
  | command n i rest u hi' hd he => exact absurd hi' hi
  | wait e as hp hrest hack => simp
  | goOn e as hp hrest hack => simpa using perform_takes_no_word as (acknowledge (tickReset s))

/-! ## Resets -/

/-- Settles O15: an asserted reset is the next move, whatever was running. -/
theorem resetInputResets : Obligations.ResetInputResets := by
  unfold Obligations.ResetInputResets
  intro s hb hr
  have hstep : step s = .next (resetEvent s) := by simp [step, nextMove, hb, hr]
  exact ⟨_, hstep, rfl, rfl, rfl, afterReset_resetEvent rfl rfl rfl rfl⟩

/-- The step of an idle block with a reset due after `k` of the words it would take (R340). -/
theorem step_reset_within {s : State} {k : Nat} (hb : buildOk s.build = true) (hi : Idle s) (hr : s.resetAfter = some k)
    (h0 : 0 < k) (hk : k ≤ wordsTaken s) : step s = .next (resetAfterWords k s) := by
  have hne : s.resetAfter ≠ some 0 := by
    rw [hr]
    simp only [ne_eq, Option.some.injEq]
    omega
  simp [step, nextMove, hb, hne, (portFree_iff s).2 hi, resetWithin_some.2 ⟨hr, hk⟩]

/-- Settles O18: in each case of the decoder the reset falls among the words that the port takes. -/
theorem resetAbandonsTakenPacket : Obligations.ResetAbandonsTakenPacket := by
  unfold Obligations.ResetAbandonsTakenPacket
  intro s k hb hi hr h0 hk
  have hle : k ≤ wordsTaken s := by
    obtain ⟨i, rest, hd, hk⟩ | ⟨why, rest, hd, hk⟩ | ⟨hd, hk⟩ := hk <;> simpa [wordsTaken, hd] using hk
  exact ⟨_, step_reset_within hb hi hr h0 hle, rfl, rfl, rfl,
    afterReset_resetEvent (u := { s with cmdChan := s.cmdChan.drop k }) rfl rfl rfl rfl⟩

end Sys2Proof.Machine

/-! The shape of a refresh: a walk that emits the events, then a close that writes the roles and the buffers (R247, R250, R255). -/

namespace Sys2Proof.Machine

/-! ## The walk and the close -/

/-- The actions that a refresh does only after its last event: they write the roles or a buffer, or end the command. -/
def Action.closes : Action → Bool
  | .swap => true
  | .white _ => true
  | .finish => true
  | .enter _ => false
  | .frame _ => false
  | .row _ => false
  | .emitPwrOn => false
  | .emitPwrOff => false
  | .emitScan => false
  | .build _ _ _ => false
  | .emitRow => false
  | .settle _ => false

/-- The list is a walk, in which no action closes, and then `close`. -/
def WalkThen (close as : List Action) : Prop := ∃ walk, as = walk ++ close ∧ ∀ a ∈ walk, a.closes = false

theorem WalkThen.append {close bs : List Action} (h : WalkThen close bs) {as : List Action}
    (ha : ∀ a ∈ as, a.closes = false) : WalkThen close (as ++ bs) := by
  obtain ⟨walk, rfl, hw⟩ := h
  refine ⟨as ++ walk, by simp, fun a h => ?_⟩
  exact (List.mem_append.1 h).elim (ha a) (hw a)

theorem walkThen_self (close : List Action) : WalkThen close close := ⟨[], rfl, by simp⟩

/-- The actions of a pass (R237). -/
def Action.inPass : Action → Bool
  | .frame _ => true
  | .row _ => true
  | .emitScan => true
  | .build _ _ _ => true
  | .emitRow => true
  | .enter _ => false
  | .emitPwrOn => false
  | .emitPwrOff => false
  | .settle _ => false
  | .swap => false
  | .white _ => false
  | .finish => false

theorem closes_of_inPass {a : Action} (h : a.inPass = true) : a.closes = false := by
  cases a <;> simp_all [Action.inPass, Action.closes]

theorem inPass_of_mem_rowsFrom {b : Build} {p : Phase} {f r : Nat} : ∀ a ∈ rowsFrom b p f r, a.inPass = true := by
  intro a ha
  simp only [rowsFrom, rowActions, List.mem_append, List.mem_flatMap, List.mem_cons, List.not_mem_nil, or_false] at ha
  obtain ⟨_, _, rfl | rfl | rfl⟩ | rfl | rfl := ha <;> rfl

theorem inPass_of_mem_framesFrom {b : Build} {p : Phase} {f n : Nat} : ∀ a ∈ framesFrom b p f n, a.inPass = true := by
  intro a ha
  simp only [framesFrom, frameActions, List.mem_flatMap, List.mem_cons] at ha
  obtain ⟨_, _, rfl | rfl | h⟩ := ha
  · rfl
  · rfl
  · exact inPass_of_mem_rowsFrom a h

theorem inPass_of_mem_passRest {b : Build} {p : Phase} {f r : Nat} {e : Event} {as : List Action}
    (h : passRest b p f r e = some as) : ∀ a ∈ as, a.inPass = true := by
  intro a ha
  cases e with
  | pwrOn => simp [passRest] at h
  | pwrOff => simp [passRest] at h
  | scanStart =>
    obtain rfl := Option.some.inj h
    exact (List.mem_append.1 ha).elim (inPass_of_mem_rowsFrom a) (inPass_of_mem_framesFrom a)
  | row bytes w =>
    obtain rfl := Option.some.inj h
    obtain ha | ha := List.mem_append.1 ha
    · split at ha
      · exact inPass_of_mem_rowsFrom a ha
      · simp at ha
    · exact inPass_of_mem_framesFrom a ha

/-- A pass, or what is left of one, may stand before the rest of a walk. -/
theorem WalkThen.pass {close bs : List Action} (h : WalkThen close bs) {as : List Action}
    (ha : ∀ a ∈ as, a.inPass = true) : WalkThen close (as ++ bs) :=
  h.append fun a hmem => closes_of_inPass (ha a hmem)

theorem walkThen_updatePowerOff : WalkThen updateSwap updatePowerOff := (walkThen_self _).append (by decide)

theorem walkThen_updateDraw (b : Build) : WalkThen updateSwap (updateDraw b) :=
  (walkThen_updatePowerOff.pass (as := passActions b .draw) inPass_of_mem_framesFrom).append (as := [.enter .draw])
    (by decide)

theorem walkThen_updateErase (b : Build) : WalkThen updateSwap (updateErase b) :=
  ((walkThen_updateDraw b).pass (as := passActions b .erase) inPass_of_mem_framesFrom).append (by decide)

/-- UPDATE swaps and ends after its last event (R250). -/
theorem walkThen_update (b : Build) : WalkThen updateSwap (updateActions b) := (walkThen_updateErase b).append (by decide)

theorem walkThen_displayPowerOff (b : Build) : WalkThen (displayFill b) (displayPowerOff b) :=
  (walkThen_self _).append (by split <;> decide)

theorem walkThen_displayErase (b : Build) : WalkThen (displayFill b) (displayErase b) :=
  ((walkThen_displayPowerOff b).pass (as := passActions b .erase) inPass_of_mem_framesFrom).append
    (as := [.enter .erase]) (by decide)

theorem walkThen_displaySettleOn (b : Build) : WalkThen (displayFill b) (displaySettleOn b) :=
  (walkThen_displayErase b).append (by decide)

/-- ERASE_DISPLAY fills and ends after its last event (R255). -/
theorem walkThen_display (b : Build) : WalkThen (displayFill b) (displayActions b) := by
  rw [displayActions]
  split
  · exact (walkThen_displaySettleOn b).append (by decide)
  · exact walkThen_displayErase b

/-- What a waiting position leaves, position by position (R246). -/
inductive RestAt (s : State) (e : Event) : List Action → Prop where
  | updateErase (hj : s.job = .update) (hs : s.seq = .powerOn) : RestAt s e (updateErase s.build)
  | updateErasePass (hj : s.job = .update) (hs : s.seq = .erase) (pass : List Action)
    (hpass : passRest s.build .erase s.frameCtr.toNat s.rowCtr.toNat e = some pass) : RestAt s e (pass ++ updateDraw s.build)
  | updateDrawPass (hj : s.job = .update) (hs : s.seq = .draw) (pass : List Action)
    (hpass : passRest s.build .draw s.frameCtr.toNat s.rowCtr.toNat e = some pass) : RestAt s e (pass ++ updatePowerOff)
  | updateSwap (hj : s.job = .update) (hs : s.seq = .powerOff) : RestAt s e updateSwap
  | displaySettleOn (hj : s.job = .eraseDisplay) (hs : s.seq = .powerOn) : RestAt s e (displaySettleOn s.build)
  | displayErasePass (hj : s.job = .eraseDisplay) (hs : s.seq = .erase) (pass : List Action)
    (hpass : passRest s.build .erase s.frameCtr.toNat s.rowCtr.toNat e = some pass) :
    RestAt s e (pass ++ displayPowerOff s.build)
  | displayFill (hj : s.job = .eraseDisplay) (hs : s.seq = .powerOff) : RestAt s e (displayFill s.build)

theorem restAt {s : State} {e : Event} {as : List Action} (h : restActions s e = some as) : RestAt s e as := by
  simp only [restActions] at h
  cases hj : s.job with
  | none => simp [hj] at h
  | update =>
    cases hs : s.seq <;> simp only [hj, hs, reduceCtorEq, Option.map_eq_some_iff, Option.ite_none_right_eq_some,
      Option.some.injEq] at h
    case powerOn => exact h.2 ▸ .updateErase hj hs
    case erase =>
      obtain ⟨pass, hpass, rfl⟩ := h
      exact .updateErasePass hj hs pass hpass
    case draw =>
      obtain ⟨pass, hpass, rfl⟩ := h
      exact .updateDrawPass hj hs pass hpass
    case powerOff => exact h.2 ▸ .updateSwap hj hs
  | eraseDisplay =>
    cases hs : s.seq <;> simp only [hj, hs, reduceCtorEq, Option.map_eq_some_iff, Option.ite_none_right_eq_some,
      Option.some.injEq] at h
    case powerOn => exact h.2 ▸ .displaySettleOn hj hs
    case erase =>
      obtain ⟨pass, hpass, rfl⟩ := h
      exact .displayErasePass hj hs pass hpass
    case powerOff => exact h.2 ▸ .displayFill hj hs

/-- What a waiting position leaves has the shape of its command (R246). -/
theorem walkThen_rest {s : State} {e : Event} {as : List Action} (h : restActions s e = some as) :
    (s.job = .update ∧ WalkThen updateSwap as) ∨ (s.job = .eraseDisplay ∧ WalkThen (displayFill s.build) as) := by
  cases restAt h with
  | updateErase hj _ => exact .inl ⟨hj, walkThen_updateErase _⟩
  | updateErasePass hj _ pass hpass => exact .inl ⟨hj, (walkThen_updateDraw _).pass (inPass_of_mem_passRest hpass)⟩
  | updateDrawPass hj _ pass hpass => exact .inl ⟨hj, walkThen_updatePowerOff.pass (inPass_of_mem_passRest hpass)⟩
  | updateSwap hj _ => exact .inl ⟨hj, walkThen_self _⟩
  | displaySettleOn hj _ => exact .inr ⟨hj, walkThen_displaySettleOn _⟩
  | displayErasePass hj _ pass hpass =>
    exact .inr ⟨hj, (walkThen_displayPowerOff _).pass (inPass_of_mem_passRest hpass)⟩
  | displayFill hj _ => exact .inr ⟨hj, walkThen_self _⟩

theorem isEmit_of_mem_updateSwap : ∀ a ∈ updateSwap, a.isEmit = false := by decide

theorem isEmit_of_mem_displayFill (b : Build) : ∀ a ∈ displayFill b, a.isEmit = false := by
  unfold displayFill
  split <;> decide

theorem swap_notMem_displayFill (b : Build) : Action.swap ∉ displayFill b := by
  unfold displayFill
  split <;> decide

/-- ERASE_DISPLAY never swaps the roles (R255). -/
theorem WalkThen.swap_notMem {b : Build} {as : List Action} (h : WalkThen (displayFill b) as) : Action.swap ∉ as := by
  obtain ⟨walk, rfl, hw⟩ := h
  intro hmem
  obtain hmem | hmem := List.mem_append.1 hmem
  · exact absurd (hw _ hmem) (by decide)
  · exact swap_notMem_displayFill b hmem

/-- UPDATE never fills a buffer (R250). -/
theorem WalkThen.white_notMem {as : List Action} (h : WalkThen updateSwap as) (role : Role) : Action.white role ∉ as := by
  obtain ⟨walk, rfl, hw⟩ := h
  intro hmem
  obtain hmem | hmem := List.mem_append.1 hmem
  · exact absurd (hw _ hmem) (by simp [Action.closes])
  · exact absurd hmem (by simp [updateSwap])

/-- With fill scope ACTIVE, ERASE_DISPLAY never fills the reference buffer (R15, R255). -/
theorem WalkThen.white_reference_notMem {b : Build} (hb : b.eraseFillScope = .active) {as : List Action}
    (h : WalkThen (displayFill b) as) : Action.white .reference ∉ as := by
  obtain ⟨walk, rfl, hw⟩ := h
  intro hmem
  obtain hmem | hmem := List.mem_append.1 hmem
  · exact absurd (hw _ hmem) (by decide)
  · simp [displayFill, hb] at hmem

/-! ## What the walk keeps -/

/-- Only the closing fill writes a byte outside `ROWBUF` (R15, R236). -/
theorem readByte_act {a : Action} (h : ∀ role, a ≠ .white role) {sp : Space} (hsp : sp ≠ .rowbuf) (i : Nat) (s : State) :
    readByte sp i (act a s) = readByte sp i s := by
  cases a with
  | white role => exact absurd rfl (h role)
  | build p f r => exact readByte_writeAll_of_ne hsp i _ s
  | _ => exact readByte_congr (by cases sp <;> simp [act, spaceOf]) (by simp [act])

/-- A list without a fill writes no byte outside `ROWBUF`, while no reset arrives. -/
theorem readByte_perform {as : List Action} (h : ∀ role, Action.white role ∉ as) {sp : Space} (hsp : sp ≠ .rowbuf)
    (i : Nat) {s : State} (hr : s.resetAfter = none) : readByte sp i (perform as s) = readByte sp i s := by
  refine perform_keeps_noReset (P := fun u => readByte sp i u = readByte sp i s) as (fun a ha u hu => ?_) s hr rfl
  refine (readByte_act (fun role => ?_) hsp i u).trans hu
  rintro rfl
  exact h role ha

/-- A list without a swap keeps the roles, while no reset arrives. -/
theorem activeSel_perform {as : List Action} (h : Action.swap ∉ as) {s : State} (hr : s.resetAfter = none) :
    (perform as s).activeSel = s.activeSel := by
  refine perform_keeps_noReset (P := fun u => u.activeSel = s.activeSel) as (fun a ha u hu => ?_) s hr rfl
  have hne : a ≠ .swap := fun he => h (he ▸ ha)
  simpa [activeSel_act, hne] using hu

/-- Neither a list of actions nor a reset among them changes the records of results and faults. -/
theorem records_perform (as : List Action) (s : State) :
    (perform as s).results = s.results ∧ (perform as s).faultLog = s.faultLog := by
  refine perform_keeps (P := fun u => u.results = s.results ∧ u.faultLog = s.faultLog) (fun u h => h) as
    (fun a _ u h => ?_) s ⟨rfl, rfl⟩
  cases a <;> simpa [act, buildRow] using h

/-- A list of actions keeps the status fields that it does not own, while no reset arrives. -/
theorem status_perform (as : List Action) {s : State} (hr : s.resetAfter = none) :
    (perform as s).lutValid = s.lutValid ∧ (perform as s).rotation = s.rotation ∧ (perform as s).err = s.err := by
  refine perform_keeps_noReset (P := fun u => u.lutValid = s.lutValid ∧ u.rotation = s.rotation ∧ u.err = s.err) as
    (fun a _ u h => ?_) s hr ⟨rfl, rfl, rfl⟩
  cases a <;> simpa [act, buildRow] using h

/-! ## Where a refresh waits -/

theorem resetAfter_perform {as : List Action} {s : State} (hr : s.resetAfter = none) :
    (perform as s).resetAfter = none :=
  perform_keeps_noReset (P := fun u => u.resetAfter = none) as (fun a _ u hu => (resetAfter_act a u).trans hu) s hr hr

/-- Two lists one after the other: the second is performed unless an event of the first stays presented. -/
theorem perform_append {as : List Action} (bs : List Action) {s : State} (hr : s.resetAfter = none)
    (hp : s.presented = none) :
    perform (as ++ bs) s =
      if (perform as s).presented.isSome then perform as s else perform bs (perform as s) := by
  induction as generalizing s with
  | nil => simp [perform, hp]
  | cons a as ih =>
    rw [List.cons_append, perform_cons hr, perform_cons hr]
    cases hpre : (act a s).presented with
    | some e => simp [hpre]
    | none =>
      simp only [Option.isSome_none, Bool.false_eq_true, if_false]
      exact ih ((resetAfter_act a s).trans hr) hpre

/-- A list that emits nothing leaves nothing presented. -/
theorem presented_perform_quiet {as : List Action} (h : ∀ a ∈ as, a.isEmit = false) {s : State}
    (hr : s.resetAfter = none) (hp : s.presented = none) : (perform as s).presented = none :=
  perform_keeps_noReset (P := fun u => u.presented = none) as
    (fun a ha u hu => (act_notEmit (h a ha) .ready u).2.trans hu) s hr hp

/-- A refresh that waits is still in its walk. -/
theorem perform_waits {walk close : List Action} (hc : ∀ a ∈ close, a.isEmit = false) {s : State}
    (hr : s.resetAfter = none) (hp : s.presented = none) (h : (perform (walk ++ close) s).presented.isSome = true) :
    perform (walk ++ close) s = perform walk s := by
  rw [perform_append close hr hp] at h ⊢
  split at h
  · next hw => rw [if_pos hw]
  · next hw =>
    have : (perform close (perform walk s)).presented = none :=
      presented_perform_quiet hc (resetAfter_perform hr) (by simpa using hw)
    simp [this] at h

/-- An UPDATE that waits has not swapped the roles (R247). -/
theorem activeSel_perform_of_waits {as : List Action} (hw : WalkThen updateSwap as) {s : State} (hr : s.resetAfter = none)
    (hp : s.presented = none) (h : (perform as s).presented.isSome = true) : (perform as s).activeSel = s.activeSel := by
  obtain ⟨walk, rfl, hwalk⟩ := hw
  rw [perform_waits isEmit_of_mem_updateSwap hr hp h]
  exact activeSel_perform (fun hmem => absurd (hwalk _ hmem) (by decide)) hr

/-- An UPDATE whose actions change the roles has ended (R247). -/
theorem job_perform_of_swapped {as : List Action} (hw : WalkThen updateSwap as) (he : Ends as) {s : State}
    (hr : s.resetAfter = none) (hp : s.presented = none) (h : (perform as s).activeSel ≠ s.activeSel) :
    (perform as s).job = .none := by
  obtain ⟨hi, -, -⟩ | ⟨hpre, -⟩ := perform_ends he hp
  · exact hi.1
  · exact absurd (activeSel_perform_of_waits hw hr hp hpre) h

end Sys2Proof.Machine

/-! What no command and no step does: the safety statements (R32, R35 to R39, R246, R301, R353). -/

namespace Sys2Proof.Machine

/-! ## Only refreshes move the sequencer (R246) -/

theorem refreshes_cases {s : State} {x : Refresh} (hx : x ∈ refreshes s) : x = updateRefresh s ∨ x = displayRefresh s := by
  simpa [refreshes] using hx

/-- Settles O53: no effect but a refresh touches the sequencer, the port or the trace. -/
theorem onlyRefreshesEmit : Obligations.OnlyRefreshesEmit := by
  unfold Obligations.OnlyRefreshesEmit
  intro i s t hu hd h
  cases exec_effect h with
  | paint hp =>
    rw [hp.frame]
    exact ⟨rfl, rfl, rfl, rfl, rfl, rfl, rfl, rfl, rfl⟩
  | refresh x hx _ hi =>
    obtain rfl | rfl := refreshes_cases hx
    · exact absurd hi hu
    · exact absurd hi hd
  | init _ => simp [afterInit]
  | _ => exact ⟨rfl, rfl, rfl, rfl, rfl, rfl, rfl, rfl, rfl⟩

/-! ## Faults are precise (R301) -/

/-- `t` is `s` after one fault: `ERR` and the fault history written, at most one result word 0, the words taken. -/
def Faulted (f : FaultCode) (s t : State) : Prop :=
  t.faultLog = s.faultLog ++ [f] ∧ t.err = (if s.err = 0 then f.code else s.err) ∧ Idle t ∧
    (t.results = s.results ∨ t.results = s.results ++ [0]) ∧
    t = { s with
      err := t.err, faultLog := t.faultLog, results := t.results, cmdChan := t.cmdChan, asm := [], busy := false,
      resetAfter := t.resetAfter } ∧
    ∀ sp a, readByte sp a t = readByte sp a s

/-- A fault of the command whose packet has been taken, with the result words that it places (R102, R301). -/
theorem faulted_endCommand {s u : State} (hi : Idle s) {f : FaultCode} {rest : List Word} {n : Nat} {ws : List Word}
    (hw : ws = [] ∨ ws = [0])
    (hu : u = { raiseFault f (packetTaken rest (elapse n s)) with results := s.results ++ ws }) :
    Faulted f s (endCommand u) := by
  have ht : endCommand u = { s with
      err := if s.err = 0 then f.code else s.err, faultLog := s.faultLog ++ [f], results := s.results ++ ws
      cmdChan := rest, asm := [], busy := false, resetAfter := (tickReset u).resetAfter } := by
    rw [endCommand_done (by rw [hu]; exact hi.2.2), hu]
    rfl
  rw [ht]
  refine ⟨rfl, rfl, hi, ?_, rfl, fun sp a => readByte_congr (by cases sp <;> rfl) rfl⟩
  obtain rfl | rfl := hw
  · exact .inl (List.append_nil _)
  · exact .inr rfl

theorem faulted_raiseFault {s : State} (hi : Idle s) (f : FaultCode) (rest : List Word) (n : Nat) :
    Faulted f s (endCommand (raiseFault f (packetTaken rest (elapse n s)))) :=
  faulted_endCommand hi (.inl rfl) (by rw [List.append_nil]; rfl)

theorem faulted_raiseWithResult {s : State} (hi : Idle s) (f : FaultCode) (rest : List Word) (n : Nat) :
    Faulted f s (endCommand (raiseWithResult f (packetTaken rest (elapse n s)))) :=
  faulted_endCommand hi (.inr rfl) rfl

theorem faulted_illegalPacket {s : State} (hi : Idle s) (why : Illegal) (rest : List Word) (n : Nat) :
    Faulted .illegalCommand s (endCommand (illegalPacket why (packetTaken rest (elapse n s)))) := by
  unfold illegalPacket
  split
  · exact faulted_raiseWithResult hi _ rest n
  · exact faulted_raiseFault hi _ rest n

/-- A command either faults precisely or leaves the fault history and `ERR` (while no reset arrives) alone. -/
theorem command_faulted {s u : State} {i : Instr} {rest : List Word} {n : Nat} (hi : Idle s)
    (he : exec i (packetTaken rest (elapse n s)) = .next u) :
    (∃ f, Faulted f s (endCommand u)) ∨ (u.faultLog = s.faultLog ∧ (s.resetAfter = none → u.err = s.err)) := by
  cases exec_effect he with
  | paint hp =>
    refine .inr ?_
    rw [hp.frame]
    exact ⟨rfl, fun _ => rfl⟩
  | init _ => exact .inr ⟨by simp [afterInit], fun _ => by simp [afterInit]⟩
  | rotate r _ => exact .inr ⟨rfl, fun _ => rfl⟩
  | result w => exact .inr ⟨rfl, fun _ => rfl⟩
  | fault f => exact .inl ⟨f, faulted_raiseFault hi f rest n⟩
  | faultWithResult f => exact .inl ⟨f, faulted_raiseWithResult hi f rest n⟩
  | refresh x _ _ _ =>
    exact .inr ⟨(records_perform _ _).2, fun hr => (status_perform _ (by simp [Refresh.start, hr])).2.2⟩

/-- A step either faults precisely or leaves the fault history and `ERR` (while no reset arrives) alone. -/
theorem step_faulted {s t : State} (h : step s = .next t) :
    (∃ f, Faulted f s t) ∨ (t.faultLog = s.faultLog ∧ (s.resetAfter = none → t.err = s.err)) := by
  cases (step_effect h).2 with
  | reset k hr _ => exact .inr ⟨rfl, fun hn => absurd (hn.symm.trans hr) (by simp)⟩
  | hold n _ _ => exact .inr ⟨rfl, fun _ => rfl⟩
  | illegal n why rest hi _ => exact .inl ⟨_, faulted_illegalPacket hi why rest n⟩
  | command n i rest u hi _ he =>
    rw [endCommand_faultLog, endCommand_err]
    exact command_faulted hi he
  | wait _ _ _ _ _ => exact .inr ⟨by simp, fun _ => by simp⟩
  | goOn e as _ _ _ =>
    refine .inr ⟨by simp [records_perform], fun hr => ?_⟩
    rw [(status_perform as (by simp [hr])).2.2]
    simp

/-- Settles O48: a step that changes the fault history has faulted precisely. -/
theorem faultsArePrecise : Obligations.FaultsArePrecise := by
  unfold Obligations.FaultsArePrecise
  exact fun s t h hne => (step_faulted h).resolve_right fun hsame => hne hsame.1

/-! ## Each status field has one writer (R33, R35 to R37) -/

/-- Which commands write which status field, while no reset arrives. -/
theorem status_exec {s u : State} {i : Instr} (hr : s.resetAfter = none) (hp : s.presented = none)
    (h : exec i s = .next u) :
    (u.lutValid ≠ s.lutValid → u.lutValid = true ∧ i = .init) ∧
      (u.rotation ≠ s.rotation → ∃ r, i = .setRotation r) ∧
      (u.activeSel ≠ s.activeSel → u.job = .none ∧ i = .update) := by
  cases exec_effect h with
  | paint hpaint =>
    rw [hpaint.frame]
    exact ⟨fun h => absurd rfl h, fun h => absurd rfl h, fun h => absurd rfl h⟩
  | init hi => exact ⟨fun _ => ⟨rfl, hi⟩, fun h => absurd (by simp [afterInit]) h, fun h => absurd (by simp [afterInit]) h⟩
  | rotate r hi => exact ⟨fun h => absurd rfl h, fun _ => ⟨r, hi⟩, fun h => absurd rfl h⟩
  | refresh x hx _ hi =>
    obtain ⟨hl, hrot, -⟩ := status_perform x.actions (s := x.start s) hr
    refine ⟨fun h => absurd hl h, fun h => absurd hrot h, fun h => ?_⟩
    obtain rfl | rfl := refreshes_cases hx
    · exact ⟨job_perform_of_swapped (walkThen_update _) (ends_update _) hr hp h, hi⟩
    · exact absurd (activeSel_perform (s := startJob .eraseDisplay 0 s) (walkThen_display s.build).swap_notMem hr) h
  | _ => exact ⟨fun h => absurd rfl h, fun h => absurd rfl h, fun h => absurd rfl h⟩

/-- Settles O50: `ERR`'s writer is `step_faulted`'s; the other fields change only in a command or a refresh that goes on. -/
theorem statusFieldsHaveOneWriter : Obligations.StatusFieldsHaveOneWriter := by
  unfold Obligations.StatusFieldsHaveOneWriter
  intro s t hr h
  have herr : t.err ≠ s.err → s.err = 0 ∧ ∃ f, t.faultLog = s.faultLog ++ [f] ∧ t.err = f.code := by
    intro hne
    obtain ⟨f, hlog, he, -⟩ := (step_faulted h).resolve_right fun hsame => hne (hsame.2 hr)
    have h0 : s.err = 0 := by
      by_contra h0
      exact hne (he.trans (if_neg h0))
    exact ⟨h0, f, hlog, he.trans (if_pos h0)⟩
  suffices hothers : _ ∧ _ ∧ _ from ⟨hothers.1, hothers.2.1, hothers.2.2, herr⟩
  cases (step_effect h).2 with
  | reset k hk _ => exact absurd (hr.symm.trans hk) (by simp)
  | hold n _ _ => exact ⟨fun h => absurd rfl h, fun h => absurd rfl h, fun h => absurd rfl h⟩
  | illegal n why rest hi _ =>
    rw [illegalPacket_eq]
    exact ⟨fun h => absurd (by simp) h, fun h => absurd (by simp) h, fun h => absurd (by simp) h⟩
  | command n i rest u hi hd he =>
    obtain ⟨hl, hrot, hsel⟩ := status_exec (s := packetTaken rest (elapse n s)) (by simp [hr]) hi.2.2 he
    simp only [endCommand_lutValid, endCommand_rotation, endCommand_activeSel, endCommand_job]
    refine ⟨fun h => ?_, fun h => ?_, fun h => ?_⟩
    · obtain ⟨ht, rfl⟩ := hl h
      exact ⟨ht, rest, hd⟩
    · obtain ⟨r, rfl⟩ := hrot h
      exact ⟨r, rest, hd⟩
    · obtain ⟨hj, rfl⟩ := hsel h
      exact ⟨hj, .inr ⟨rest, hd⟩⟩
  | wait e as _ _ _ => exact ⟨fun h => absurd (by simp) h, fun h => absurd (by simp) h, fun h => absurd (by simp) h⟩
  | goOn e as hp hrest hack =>
    have hr' : (acknowledge (tickReset s)).resetAfter = none := by simp [hr]
    obtain ⟨hl, hrot, -⟩ := status_perform as hr'
    refine ⟨fun h => absurd (by simp [hl]) h, fun h => absurd (by simp [hrot]) h, fun h => ?_⟩
    have hsel : (perform as (acknowledge (tickReset s))).activeSel ≠ (acknowledge (tickReset s)).activeSel := by simpa using h
    obtain ⟨hj, hw⟩ | ⟨hj, hw⟩ := walkThen_rest hrest
    · exact ⟨job_perform_of_swapped hw (resumable_rest (step_effect ‹_›).1 hrest).2 hr' hack hsel, .inl hj⟩
    · exact absurd (activeSel_perform hw.swap_notMem hr') hsel

end Sys2Proof.Machine

/-! The reference buffer (R32, R353). -/

namespace Sys2Proof.Machine

/-- An action that neither swaps nor fills the reference buffer keeps the roles and the reference buffer's bytes. -/
theorem reference_act {a : Action} (hswap : a ≠ .swap) (hwhite : a ≠ .white .reference) {s u : State}
    (hsel : u.activeSel = s.activeSel) (i : Nat) :
    (act a u).activeSel = s.activeSel ∧
      readByte (bufferOf .reference s) i (act a u) = readByte (bufferOf .reference s) i u := by
  refine ⟨by simpa [activeSel_act, hswap] using hsel, ?_⟩
  have hrow : bufferOf .reference s ≠ .rowbuf := by
    obtain h | h := bufferOf_cases .reference s <;> rw [h] <;> decide
  by_cases hfill : ∀ role, a ≠ .white role
  · exact readByte_act hfill hrow i u
  · obtain ⟨role, rfl⟩ := not_forall_not.1 hfill
    cases role with
    | active => exact readByte_writeAll_of_ne (by rw [bufferOf_congr hsel]; exact bufferOf_ne s) i _ u
    | reference => exact absurd rfl hwhite

/-- A list that neither swaps nor fills the reference buffer keeps its bytes, while no reset arrives. -/
theorem reference_perform {as : List Action} (hswap : Action.swap ∉ as) (hwhite : Action.white .reference ∉ as)
    {s : State} (hr : s.resetAfter = none) (i : Nat) :
    readByte (bufferOf .reference s) i (perform as s) = readByte (bufferOf .reference s) i s := by
  refine (perform_keeps_noReset (P := fun u => u.activeSel = s.activeSel ∧
    readByte (bufferOf .reference s) i u = readByte (bufferOf .reference s) i s) as (fun a ha u hu => ?_) s hr
    ⟨rfl, rfl⟩).2
  obtain ⟨h1, h2⟩ := reference_act (fun he => hswap (he ▸ ha)) (fun he => hwhite (he ▸ ha)) hu.1 i
  exact ⟨h1, h2.trans hu.2⟩

/-- A refresh keeps the bytes of the reference buffer, unless it is an ERASE_DISPLAY whose fill scope is BOTH. -/
theorem reference_refresh {as : List Action} {s : State} (hr : s.resetAfter = none)
    (h : WalkThen updateSwap as ∨ (WalkThen (displayFill s.build) as ∧ s.build.eraseFillScope = .active)) (i : Nat) :
    readByte (bufferOf .reference s) i (perform as s) = readByte (bufferOf .reference s) i s := by
  obtain hw | ⟨hw, hscope⟩ := h
  · refine readByte_perform hw.white_notMem ?_ i hr
    obtain h | h := bufferOf_cases .reference s <;> rw [h] <;> decide
  · exact reference_perform hw.swap_notMem (hw.white_reference_notMem hscope) hr i

theorem reference_exec {i : Instr} {s t : State} (hr : s.resetAfter = none)
    (hi : i = .eraseDisplay → s.build.eraseFillScope = .active) (h : exec i s = .next t) (a : Nat) :
    readByte (bufferOf .reference s) a t = readByte (bufferOf .reference s) a s := by
  cases exec_effect h with
  | paint hp => exact hp.readByte_of_ne (bufferOf_ne s) a
  | init _ =>
    have hne : ∀ p, bufferOf .reference s ≠ lutSpace p := fun p => (lutSpace_ne_bufferOf p .reference s).symm
    rw [readByte_afterInit, readByte_expandTable_of_ne (hne .draw), readByte_expandTable_of_ne (hne .erase)]
  | rotate r _ => exact readByte_rotation r _ a s
  | refresh x hx _ hc =>
    obtain rfl | rfl := refreshes_cases hx
    · exact reference_refresh (s := startJob _ _ s) hr (.inl (walkThen_update _)) a
    · exact reference_refresh (s := startJob _ _ s) hr (.inr ⟨walkThen_display _, hi hc⟩) a
  | _ => exact readByte_congr (by cases bufferOf .reference s <;> rfl) rfl

theorem bufferOf_reference_endCommand_readByte (sp : Space) (a : Nat) (u : State) :
    readByte sp a (endCommand u) = readByte sp a u :=
  readByte_congr ((sameStore_endCommand u).spaces sp) (endCommand_draw u)

/-- Settles O52: a command, and a refresh that goes on, keep the reference buffer. -/
theorem referenceBufferIsProtected : Obligations.ReferenceBufferIsProtected := by
  unfold Obligations.ReferenceBufferIsProtected
  refine ⟨fun i s t hr hi h => reference_exec hr hi h, fun s t hr he h a => ?_⟩
  have acked : ∀ sp, readByte sp a (acknowledge (tickReset s)) = readByte sp a s := fun sp =>
    (readByte_congr ((sameStore_acknowledge _).spaces sp) (acknowledge_draw _)).trans
      (readByte_congr (by cases sp <;> rfl) rfl)
  cases (step_effect h).2 with
  | reset k hk _ => exact absurd (hr.symm.trans hk) (by simp)
  | hold n _ _ => exact readByte_congr (by cases bufferOf .reference s <;> rfl) rfl
  | illegal n why rest _ _ =>
    rw [bufferOf_reference_endCommand_readByte, illegalPacket_eq]
    exact readByte_congr (by cases bufferOf .reference s <;> rfl) rfl
  | command n i rest u _ hd hu =>
    rw [bufferOf_reference_endCommand_readByte]
    refine (reference_exec (s := packetTaken rest (elapse n s)) (by simp [hr]) ?_ hu a).trans ?_
    · rintro rfl
      exact he (.inr ⟨rest, hd⟩)
    · exact readByte_congr (by cases bufferOf .reference s <;> rfl) rfl
  | wait _ _ _ _ _ => exact acked _
  | goOn e as _ hrest _ =>
    have hbuf : bufferOf .reference (acknowledge (tickReset s)) = bufferOf .reference s := bufferOf_congr (by simp) _
    have hshape : WalkThen updateSwap as ∨ (WalkThen (displayFill (acknowledge (tickReset s)).build) as ∧
        (acknowledge (tickReset s)).build.eraseFillScope = .active) := by
      simp only [acknowledge_build, tickReset_build]
      obtain ⟨-, hw⟩ | ⟨hj, hw⟩ := walkThen_rest hrest
      · exact .inl hw
      · exact .inr ⟨hw, he (.inl hj)⟩
    rw [← acked, ← hbuf]
    exact reference_refresh (by simp [hr]) hshape a

end Sys2Proof.Machine

/-! The port and the sequencer agree at every step (R43 to R46, R246; log 11). -/

namespace Sys2Proof.Machine

theorem portOk_of_idle {s : State} (hi : Idle s) (hb : s.busy = false) (ha : s.asm = []) : PortOk s :=
  .inl ⟨hi, by simp [hb, ha], by rw [ha]; rfl⟩

/-- An idle command that took its packet ends with the port free. -/
theorem portOk_endCommand_of_idle {u : State} (hi : Idle u) (ha : u.asm = []) : PortOk (endCommand u) := by
  rw [endCommand_done hi.2.2]
  exact portOk_of_idle hi rfl ha

/-- A refresh's actions end with the port free, or wait where the position says what is left (R246). -/
theorem portOk_perform {as : List Action} {u : State} (he : Ends as) (hres : Resumable [] as u)
    (hp : u.presented = none) (hj : u.job ≠ .none) (hb : u.busy = true) (ha : u.asm = []) :
    (Idle (perform as u) ∧ (perform as u).busy = false ∧ (perform as u).asm = []) ∨
      (Waiting (perform as u) ∧ (perform as u).job ≠ .none ∧ (perform as u).busy = true ∧ (perform as u).asm = []) := by
  obtain ⟨hi, hbusy, hasm⟩ | ⟨hpre, hjob, hbusy, hasm⟩ := perform_ends he hp
  · exact .inl ⟨hi, hbusy, hasm ha⟩
  · obtain hnone | ⟨e, rest, h1, h2, -⟩ := perform_resumable as u hp hres
    · simp [hnone] at hpre
    · exact .inr ⟨⟨e, rest, h1, h2⟩, hjob ▸ hj, hbusy.trans hb, hasm.trans ha⟩

/-- A refresh begins with its actions resumable, and they end it (R246). -/
theorem refresh_start {s : State} {x : Refresh} (hx : x ∈ refreshes s) (hb : buildOk s.build = true) :
    Ends x.actions ∧ Resumable [] x.actions (x.start s) ∧ (x.start s).job ≠ .none := by
  obtain rfl | rfl := refreshes_cases hx
  · exact ⟨ends_update _, resumable_update (s := startJob .update _ s) rfl hb, by simp [Refresh.start, updateRefresh]⟩
  · exact ⟨ends_display _, resumable_display (s := startJob .eraseDisplay _ s) rfl hb,
      by simp [Refresh.start, displayRefresh]⟩

/-- A command that begins on a free port, with its packet taken, leaves the port free or waits (R44, R246). -/
theorem portOk_exec {i : Instr} {s u : State} (hb : buildOk s.build = true) (hi : Idle s) (ha : s.asm = [])
    (h : exec i s = .next u) : PortOk (endCommand u) := by
  cases exec_effect h with
  | paint hp =>
    rw [hp.frame]
    exact portOk_endCommand_of_idle hi ha
  | init _ => exact portOk_endCommand_of_idle (by simpa [Idle, afterInit] using hi) (by simpa [afterInit] using ha)
  | refresh x hx _ _ =>
    obtain ⟨hends, hres, hjob⟩ := refresh_start hx hb
    obtain ⟨hidle, -, hasm⟩ | hwait := portOk_perform hends hres hi.2.2 hjob rfl ha
    · exact portOk_endCommand_of_idle hidle hasm
    · obtain ⟨e, rest, hp, -⟩ := hwait.1
      rw [endCommand_waits hp]
      exact .inr hwait
  | _ => exact portOk_endCommand_of_idle hi ha

theorem portOk_waits {s : State} (hs : PortOk s) {e : Event} (hp : s.presented = some e) :
    s.job ≠ .none ∧ s.busy = true ∧ s.asm = [] := by
  obtain ⟨hi, -⟩ | ⟨-, h⟩ := hs
  · simp [hi.2.2] at hp
  · exact h

theorem presented_acknowledge {s : State} {e : Event} (hp : s.presented = some e)
    (h : (acknowledge s).presented.isSome = true) : (acknowledge s).presented = some e := by
  unfold acknowledge at h ⊢
  split at h <;> simp_all

/-- Settles O56: every effect of a step leaves the port free, holding part of a packet, or waiting in a refresh. -/
theorem stepKeepsPort : Obligations.StepKeepsPort := by
  unfold Obligations.StepKeepsPort
  intro s t hs h
  obtain ⟨hb, heff⟩ := step_effect h
  cases heff with
  | reset k _ _ => exact portOk_of_idle ⟨rfl, rfl, rfl⟩ rfl rfl
  | hold n hi hd => exact .inl ⟨hi, by simp [offeredWords], hd⟩
  | illegal n why rest hi _ =>
    rw [illegalPacket_eq]
    exact portOk_endCommand_of_idle hi rfl
  | command n i rest u hi _ he => exact portOk_exec (s := packetTaken rest (elapse n s)) hb hi rfl he
  | wait e as hp hrest hack =>
    obtain ⟨hj, hbusy, ha⟩ := portOk_waits hs hp
    refine .inr ⟨⟨e, as, presented_acknowledge hp hack, ?_⟩, by simpa using hj, by simpa using hbusy, by simpa using ha⟩
    rw [((samePos_tickReset s).trans (samePos_acknowledge _)).rest, hrest]
  | goOn e as hp hrest hack =>
    obtain ⟨hj, hbusy, ha⟩ := portOk_waits hs hp
    obtain ⟨hres, hends⟩ := resumable_rest hb hrest
    obtain ⟨hi, hbusy, ha⟩ | hwait := portOk_perform hends
      (hres.congr ((samePos_tickReset s).trans (samePos_acknowledge _))) hack (by simpa using hj) (by simpa using hbusy)
      (by simpa using ha)
    · exact portOk_of_idle hi hbusy ha
    · exact .inr hwait

/-- Taking words stops in no case: every packet is a command, illegal or incomplete (R101, R115, R116). -/
theorem step_idle_next {s : State} (hb : buildOk s.build = true) (hi : Idle s) (hr : s.resetAfter ≠ some 0) :
    ∃ t, step s = .next t := by
  cases hw : resetWithin (wordsTaken s) s with
  | some k => exact ⟨_, by simp only [step, nextMove, hb, hr, (portFree_iff s).2 hi, hw, if_true, if_false]; rfl⟩
  | none =>
    cases hd : decode (offeredWords s) with
    | command i rest =>
      obtain ⟨u, -, hstep⟩ := step_command hb hi hd hw
      exact ⟨_, hstep⟩
    | illegal why rest => exact ⟨_, by simp only [step, nextMove_of_later hb hi hw, takeWords, hd]; rfl⟩
    | incomplete => exact ⟨_, by simp only [step, nextMove_of_later hb hi hw, takeWords, hd]; rfl⟩

/-- Settles O57: an agreeing port is free, or waits in a position that leaves something. -/
theorem agreeingPortNeverStops : Obligations.AgreeingPortNeverStops := by
  unfold Obligations.AgreeingPortNeverStops
  intro s hs r hfault
  have hnext : buildOk s.build = true → ∃ t, step s = .next t := by
    intro hb
    by_cases hr : s.resetAfter = some 0
    · obtain ⟨t, ht, -⟩ := resetInputResets s hb hr
      exact ⟨t, ht⟩
    · obtain ⟨hi, -⟩ | ⟨⟨e, as, hp, hrest⟩, -⟩ := hs
      · exact step_idle_next hb hi hr
      · exact ⟨_, step_waiting hb hp hrest hr⟩
  by_cases hb : buildOk s.build = true
  · obtain ⟨t, ht⟩ := hnext hb
    simp [ht] at hfault
  · simp [step_of_not_buildOk hb] at hfault

end Sys2Proof.Machine

/-! The power events alternate, one outstanding exactly while a refresh that powers the panel waits (R16, R232). -/

namespace Sys2Proof.Machine

/-! ## The supply -/

/-- The panel's supply after an action that finds it at `p`; none where the power events would not alternate (R232). -/
def Action.supply (p : Bool) : Action → Option Bool
  | .emitPwrOn => if p then none else some true
  | .emitPwrOff => if p then some false else none
  | .enter _ => some p
  | .frame _ => some p
  | .row _ => some p
  | .emitScan => some p
  | .build _ _ _ => some p
  | .emitRow => some p
  | .settle _ => some p
  | .swap => some p
  | .white _ => some p
  | .finish => some p

/-- An action changes the supply as `supply` says. -/
theorem powerAfter_act (a : Action) {s : State} {p : Bool} (h : powerAfter s.trace = some p) :
    powerAfter (act a s).trace = a.supply p := by
  cases a <;> cases p <;> simp [act, buildRow, Action.supply, ← h] <;>
    simp only [powerAfter, List.foldl_append] at h ⊢ <;> simp [h, rowEvent]

theorem powered_congr {s t : State} (hb : t.build = s.build) (hj : t.job = s.job) (hs : t.seq = s.seq) :
    powered t = powered s := by
  simp only [powered, hb, hj, hs]

theorem PowerOk.congr {s t : State} (h : PowerOk s) (ht : t.trace = s.trace) (hb : t.build = s.build)
    (hj : t.job = s.job) (hs : t.seq = s.seq) : PowerOk t := by
  rw [PowerOk, ht, powered_congr hb hj hs]
  exact h

/-! ## Lists whose power events alternate -/

/-- From the supply `p`, the power events of the list alternate; wherever it emits an event, and where it ends, the supply is what
the position says. -/
def Paired : Bool → List Action → State → Prop
  | p, [], s => p = powered s
  | p, a :: as, s => ∃ q, a.supply p = some q ∧ (a.isEmit = true → q = powered (a.moves s)) ∧ Paired q as (a.moves s)

theorem Paired.congr {p : Bool} {as : List Action} {s t : State} (h : Paired p as s) (hb : t.build = s.build)
    (hj : t.job = s.job) (hs : t.seq = s.seq) : Paired p as t := by
  induction as generalizing p s t with
  | nil => exact h.trans (powered_congr hb hj hs).symm
  | cons a as ih =>
    obtain ⟨q, hq, he, hrest⟩ := h
    have hmoves : (a.moves t).build = (a.moves s).build ∧ (a.moves t).job = (a.moves s).job ∧
        (a.moves t).seq = (a.moves s).seq := by
      cases a <;> simp [Action.moves, hb, hj, hs]
    exact ⟨q, hq, fun h => (he h).trans (powered_congr hmoves.1 hmoves.2.1 hmoves.2.2).symm,
      ih hrest hmoves.1 hmoves.2.1 hmoves.2.2⟩

/-- A pass emits no power event and stays at its position's `SEQ` (R237). -/
theorem Paired.pass {p : Bool} {as bs : List Action} {s : State} (h : Paired p bs s) (ha : ∀ a ∈ as, a.inPass = true)
    (hp : p = powered s) : Paired p (as ++ bs) s := by
  induction as generalizing s with
  | nil => exact h
  | cons a as ih =>
    have hin := ha a List.mem_cons_self
    have hmoves : (a.moves s).build = s.build ∧ (a.moves s).job = s.job ∧ (a.moves s).seq = s.seq := by
      cases a <;> simp [Action.inPass] at hin <;> exact ⟨rfl, rfl, rfl⟩
    have hpow := hp.trans (powered_congr hmoves.1 hmoves.2.1 hmoves.2.2).symm
    refine ⟨p, ?_, fun _ => hpow, ih (h.congr hmoves.1 hmoves.2.1 hmoves.2.2)
      (fun b hb => ha b (List.mem_cons_of_mem _ hb)) hpow⟩
    cases a <;> simp [Action.inPass] at hin <;> rfl

/-- Where such a list ends or waits, the supply is what the position says, while no reset arrives. -/
theorem powerOk_perform {p : Bool} {as : List Action} {s : State} (h : Paired p as s)
    (htr : powerAfter s.trace = some p) (hr : s.resetAfter = none) (hp : s.presented = none) : PowerOk (perform as s) := by
  induction as generalizing p s with
  | nil => exact htr.trans (congrArg some h)
  | cons a as ih =>
    obtain ⟨q, hq, he, hrest⟩ := h
    obtain ⟨hb, hj, hs, -, -⟩ := samePos_act a s
    have htr' : powerAfter (act a s).trace = some q := (powerAfter_act a htr).trans hq
    rw [perform_cons hr]
    cases hpre : (act a s).presented with
    | none =>
      simp only [Option.isSome_none, Bool.false_eq_true, if_false]
      exact ih (hrest.congr hb hj hs) htr' ((resetAfter_act a s).trans hr) hpre
    | some e =>
      have hemit : a.isEmit = true := by
        by_contra hn
        have := (act_notEmit (by simpa using hn) .ready s).2
        simp [hpre, hp] at this
      simp only [Option.isSome_some, if_true]
      exact htr'.trans (congrArg some ((he hemit).trans (powered_congr hb hj hs).symm))

/-! ## The two refreshes -/

theorem paired_updateSwap (s : State) : Paired false updateSwap s := by
  simp [updateSwap, Paired, Action.supply, Action.isEmit, Action.moves, powered]

theorem paired_updatePowerOff {s : State} : Paired true updatePowerOff s := by
  refine ⟨true, rfl, nofun, true, rfl, nofun, true, rfl, nofun, false, rfl, fun _ => ?_, paired_updateSwap _⟩
  simp [Action.moves, powered]

theorem paired_updateDraw {s : State} (hj : s.job = .update) : Paired true (updateDraw s.build) s :=
  ⟨true, rfl, nofun, paired_updatePowerOff.pass inPass_of_mem_framesFrom (by simp [Action.moves, powered, hj])⟩

theorem paired_updateErase {s : State} (hj : s.job = .update) : Paired true (updateErase s.build) s :=
  ⟨true, rfl, nofun, true, rfl, nofun, true, rfl, nofun,
    Paired.pass (as := passActions s.build .erase) (paired_updateDraw (s := { s with seq := .erase }) hj)
      inPass_of_mem_framesFrom (by simp [Action.moves, powered, hj])⟩

theorem paired_update {s : State} (hj : s.job = .update) : Paired false (updateActions s.build) s :=
  ⟨false, rfl, nofun, true, rfl, fun _ => by simp [Action.moves, powered, hj],
    paired_updateErase (s := { s with seq := .powerOn }) hj⟩

theorem paired_displayFill (b : Build) (s : State) : Paired false (displayFill b) s := by
  unfold displayFill
  split <;> simp [Paired, Action.supply, Action.isEmit, Action.moves, powered]

/-- Whether a build's ERASE_DISPLAY powers the panel (R16). -/
def wrapped (b : Build) : Bool := b.erasePower == .wrapped

theorem paired_displayPowerOff (s : State) : Paired (wrapped s.build) (displayPowerOff s.build) s := by
  unfold displayPowerOff
  split
  · next hw =>
    rw [show wrapped s.build = true by simp [wrapped, hw]]
    refine ⟨true, rfl, nofun, true, rfl, nofun, true, rfl, nofun, false, rfl, fun _ => ?_, paired_displayFill _ _⟩
    simp [Action.moves, powered]
  · next hw =>
    rw [show wrapped s.build = false by simp [wrapped, hw]]
    exact paired_displayFill _ _

theorem powered_eq_wrapped {s : State} (hj : s.job = .eraseDisplay) (hs : s.seq ≠ .powerOff) :
    powered s = wrapped s.build := by
  have hseq : (s.seq != .powerOff) = true := bne_iff_ne.2 hs
  rw [powered, hseq, Bool.and_true, hj]
  rfl

theorem paired_displayErase {s : State} (hj : s.job = .eraseDisplay) :
    Paired (wrapped s.build) (displayErase s.build) s :=
  ⟨_, rfl, nofun, (paired_displayPowerOff { s with seq := .erase }).pass inPass_of_mem_framesFrom
    (powered_eq_wrapped (s := { s with seq := .erase }) hj (by simp)).symm⟩

theorem paired_displaySettleOn {s : State} (hj : s.job = .eraseDisplay) :
    Paired (wrapped s.build) (displaySettleOn s.build) s :=
  ⟨_, rfl, nofun, _, rfl, nofun, paired_displayErase (s := { s with seq := .settleOn }) hj⟩

theorem paired_display {s : State} (hj : s.job = .eraseDisplay) : Paired false (displayActions s.build) s := by
  unfold displayActions
  split
  · next hw =>
    have hpow : wrapped s.build = true := by simp [wrapped, hw]
    refine ⟨false, rfl, nofun, true, rfl, fun _ => ?_, ?_⟩
    · exact hpow.symm.trans (powered_eq_wrapped (s := { s with seq := .powerOn }) hj (by simp)).symm
    · exact hpow ▸ paired_displaySettleOn (s := { s with seq := .powerOn }) hj
  · next hw =>
    rw [show false = wrapped s.build by simp [wrapped, hw]]
    exact paired_displayErase hj

/-- What a waiting position leaves goes on from the supply that the position says (R246). -/
theorem paired_rest {s : State} {e : Event} {as : List Action} (h : restActions s e = some as) :
    Paired (powered s) as s := by
  cases restAt h with
  | updateErase hj hs =>
    rw [show powered s = true by simp [powered, hj, hs]]
    exact paired_updateErase hj
  | updateErasePass hj hs pass hpass =>
    have hpow : powered s = true := by simp [powered, hj, hs]
    exact Paired.pass (hpow ▸ paired_updateDraw hj) (inPass_of_mem_passRest hpass) rfl
  | updateDrawPass hj hs pass hpass =>
    have hpow : powered s = true := by simp [powered, hj, hs]
    exact Paired.pass (hpow ▸ paired_updatePowerOff) (inPass_of_mem_passRest hpass) rfl
  | updateSwap hj hs =>
    rw [show powered s = false by simp [powered, hs]]
    exact paired_updateSwap s
  | displaySettleOn hj hs =>
    rw [powered_eq_wrapped hj (by simp [hs])]
    exact paired_displaySettleOn hj
  | displayErasePass hj hs pass hpass =>
    exact Paired.pass ((powered_eq_wrapped hj (by simp [hs])) ▸ paired_displayPowerOff s) (inPass_of_mem_passRest hpass) rfl
  | displayFill hj hs =>
    rw [show powered s = false by simp [powered, hs]]
    exact paired_displayFill _ s

/-! ## Commands and steps -/

theorem powered_of_idle {s : State} (hi : Idle s) : powered s = false := by
  simp [powered, hi.1]

theorem powerOk_refresh {s : State} {x : Refresh} (hx : x ∈ refreshes s) (hr : s.resetAfter = none) (hi : Idle s)
    (h : PowerOk s) : PowerOk (perform x.actions (x.start s)) := by
  have htr : powerAfter s.trace = some false := h.trans (congrArg some (powered_of_idle hi))
  obtain rfl | rfl := refreshes_cases hx
  · exact powerOk_perform (paired_update (s := startJob .update _ s) rfl) htr hr hi.2.2
  · exact powerOk_perform (paired_display (s := startJob .eraseDisplay _ s) rfl) htr hr hi.2.2

theorem powerOk_exec {i : Instr} {s u : State} (hr : s.resetAfter = none) (hi : Idle s) (h : PowerOk s)
    (he : exec i s = .next u) : PowerOk u := by
  cases exec_effect he with
  | paint hp =>
    rw [hp.frame]
    exact h
  | init _ => exact h.congr (by simp [afterInit]) rfl (by simp [afterInit]) (by simp [afterInit])
  | refresh x hx _ _ => exact powerOk_refresh hx hr hi h
  | _ => exact h

/-- Settles O59: only a refresh emits power events, and its list is `Paired` from its start and from every wait. -/
theorem stepKeepsPowerPaired : Obligations.StepKeepsPowerPaired := by
  unfold Obligations.StepKeepsPowerPaired
  intro s t hr _ hs h
  cases (step_effect h).2 with
  | reset k hk _ => exact absurd (hr.symm.trans hk) (by simp)
  | hold n _ _ => exact hs
  | illegal n why rest _ _ =>
    rw [illegalPacket_eq]
    exact hs.congr (by simp) (by simp) (by simp) (by simp)
  | command n i rest u hi _ he =>
    have hu := powerOk_exec (s := packetTaken rest (elapse n s)) (by simp [hr]) hi hs he
    exact hu.congr (by simp) (by simp) (by simp) (by simp)
  | wait _ _ _ _ _ => exact hs.congr (by simp) (by simp) (by simp) (by simp)
  | goOn e as _ hrest hack =>
    have hpaired := (paired_rest hrest).congr (t := acknowledge (tickReset s)) (by simp) (by simp) (by simp)
    exact powerOk_perform hpaired (by simpa [PowerOk] using hs) (by simp [hr]) hack

/-- Settles O60: nothing is listed, valid, offered, faulted or powered after reset. -/
theorem resetMeetsInvariants : Obligations.ResetMeetsInvariants := by
  unfold Obligations.ResetMeetsInvariants
  exact fun b n => ⟨memoryOk_of_empty fun sp => by cases sp <;> rfl, tablesOk_of_not_lutValid rfl,
    portOk_of_idle ⟨rfl, rfl, rfl⟩ rfl rfl, .inl rfl, rfl⟩

end Sys2Proof.Machine

/-! Lists of actions done one after the other: what the transport and an awaited reset do not touch, and the marks they leave
(R23, R230; logs 8 and 9). -/

namespace Sys2Proof.Machine

@[simp] theorem doAll_nil (s : State) : doAll [] s = s := rfl

@[simp] theorem doAll_cons (a : Action) (as : List Action) (s : State) : doAll (a :: as) s = doAll as (act a s) := rfl

theorem doAll_append (as bs : List Action) (s : State) : doAll (as ++ bs) s = doAll bs (doAll as s) := List.foldl_append

/-- A property that every action keeps is kept by a list. -/
theorem doAll_keeps {P : State → Prop} {as : List Action} (h : ∀ a ∈ as, ∀ s, P s → P (act a s)) {s : State}
    (hs : P s) : P (doAll as s) := by
  induction as generalizing s with
  | nil => exact hs
  | cons a as ih => exact ih (fun b hb => h b (List.mem_cons_of_mem _ hb)) (h a List.mem_cons_self s hs)

/-! ## Without the transport and the reset input -/

/-- `s` with nothing presented, a ready transport and no reset awaited. -/
def freed (s : State) : State := { s with presented := none, transport := .ready, resetAfter := none }

/-- `s` with no reset awaited. -/
def untimed (s : State) : State := { s with resetAfter := none }

theorem freed_eq {s : State} (hu : Unhindered s) (hp : s.presented = none) : freed s = s := by
  obtain ⟨htr, hr⟩ := hu
  cases s
  simp_all [freed]

theorem setSpace_freed (sp : Space) (m : Memory) (s : State) : setSpace sp m (freed s) = freed (setSpace sp m s) := by
  cases sp <;> rfl

theorem setSpace_untimed (sp : Space) (m : Memory) (s : State) :
    setSpace sp m (untimed s) = untimed (setSpace sp m s) := by
  cases sp <;> rfl

theorem emit_freed (e : Event) (s : State) : emit e (freed s) = freed (emit e s) := by
  unfold emit acknowledge
  split <;> split <;> simp_all [freed, present]

theorem acknowledge_untimed (s : State) : acknowledge (untimed s) = untimed (acknowledge s) := by
  unfold acknowledge
  split <;> split <;> simp_all [untimed]

theorem emit_untimed (e : Event) (s : State) : emit e (untimed s) = untimed (emit e s) :=
  acknowledge_untimed (present e s)

theorem readByte_freed (sp : Space) (a : Nat) (s : State) : readByte sp a (freed s) = readByte sp a s :=
  readByte_congr (by cases sp <;> rfl) rfl

theorem readByte_untimed (sp : Space) (a : Nat) (s : State) : readByte sp a (untimed s) = readByte sp a s :=
  readByte_congr (by cases sp <;> rfl) rfl

/-- What an action does but for the port does not depend on the port. -/
theorem act_freed (a : Action) (s : State) : act a (freed s) = freed (act a s) := by
  cases a with
  | emitPwrOn => exact emit_freed _ s
  | emitPwrOff => exact emit_freed _ s
  | emitScan => exact emit_freed _ s
  | emitRow => exact emit_freed (rowEvent s) s
  | white role => exact setSpace_freed _ _ s
  | _ => rfl

/-- What an action does does not depend on when a reset arrives. -/
theorem act_untimed (a : Action) (s : State) : act a (untimed s) = untimed (act a s) := by
  cases a with
  | emitPwrOn => exact emit_untimed _ s
  | emitPwrOff => exact emit_untimed _ s
  | emitScan => exact emit_untimed _ s
  | emitRow => exact emit_untimed (rowEvent s) s
  | white role => exact setSpace_untimed _ _ s
  | _ => rfl

theorem doAll_freed (as : List Action) (s : State) : doAll as (freed s) = freed (doAll as s) := by
  induction as generalizing s with
  | nil => rfl
  | cons a as ih => rw [doAll_cons, act_freed, ih, doAll_cons]

theorem doAll_untimed (as : List Action) (s : State) : doAll as (untimed s) = untimed (doAll as s) := by
  induction as generalizing s with
  | nil => rfl
  | cons a as ih => rw [doAll_cons, act_untimed, ih, doAll_cons]

/-! ## The marks of a list -/

/-- Whether an action records a settle marker. -/
def Action.isSettle : Action → Bool
  | .settle _ => true
  | .enter _ => false
  | .frame _ => false
  | .row _ => false
  | .emitPwrOn => false
  | .emitPwrOff => false
  | .emitScan => false
  | .build _ _ _ => false
  | .emitRow => false
  | .swap => false
  | .white _ => false
  | .finish => false

/-- An action adds one event to the trace if it emits, one marker if it settles, and else nothing. -/
theorem trace_act (a : Action) (s : State) :
    ∃ ms, (act a s).trace = s.trace ++ ms ∧ (eventsOf ms).length = [a].countP Action.isEmit ∧
      ms.countP Mark.isSettle = [a].countP Action.isSettle := by
  cases a with
  | emitPwrOn => exact ⟨[.event .pwrOn], by simp [act], rfl, rfl⟩
  | emitPwrOff => exact ⟨[.event .pwrOff], by simp [act], rfl, rfl⟩
  | emitScan => exact ⟨[.event .scanStart], by simp [act], rfl, rfl⟩
  | emitRow => exact ⟨[.event (rowEvent s)], by simp [act], rfl, rfl⟩
  | settle k => exact ⟨[.settle k], rfl, rfl, rfl⟩
  | _ => exact ⟨[], by simp [act], rfl, rfl⟩

theorem eventsOf_append (ms ns : List Mark) : eventsOf (ms ++ ns) = eventsOf ms ++ eventsOf ns :=
  List.filterMap_append

/-- A list adds to the trace as many events and markers as it has actions of each kind. -/
theorem trace_doAll (as : List Action) (s : State) :
    ∃ ms, (doAll as s).trace = s.trace ++ ms ∧ (eventsOf ms).length = as.countP Action.isEmit ∧
      ms.countP Mark.isSettle = as.countP Action.isSettle := by
  induction as generalizing s with
  | nil => exact ⟨[], by simp, rfl, rfl⟩
  | cons a as ih =>
    obtain ⟨ms, htr, hev, hset⟩ := trace_act a s
    obtain ⟨ns, htr', hev', hset'⟩ := ih (act a s)
    refine ⟨ms ++ ns, by rw [doAll_cons, htr', htr, List.append_assoc], ?_, ?_⟩
    · rw [eventsOf_append, List.length_append, hev, hev', ← List.countP_append]
      rfl
    · rw [List.countP_append, hset, hset', ← List.countP_append]
      rfl

/-! ## A list under a transport that serves it -/

/-- With nothing in its way a list is done one action after the other. -/
theorem perform_eq_doAll {as : List Action} {s : State} (hu : Unhindered s) (hp : s.presented = none) :
    perform as s = doAll as s := perform_unhindered as s hu hp

/-- A transport that acknowledges every event of the list lets it go to its end, and has that many acknowledgements less. -/
theorem perform_of_served {as : List Action} {s : State} (h : Served (as.countP Action.isEmit) s)
    (hp : s.presented = none) :
    perform as s = onTransport (s.transport.drained (as.countP Action.isEmit)) (doAll as (freed s)) := by
  obtain ⟨hr, htr | ⟨m, hm, htr⟩⟩ := h
  · have hu : Unhindered s := ⟨htr, hr⟩
    have hu' := (foldl_act_unhindered as s hu hp).1.1
    rw [perform_eq_doAll hu hp, freed_eq hu hp, htr]
    change doAll as s = { doAll as s with transport := .ready }
    rw [← show (doAll as s).transport = .ready from hu']
  · have hs : s = onTransport (.acksLeft m) s := by rw [← htr]; rfl
    have hfree : onTransport .ready s = freed s := by rw [onTransport, freed, hr, hp]
    rw [List.countP_eq_length_filter] at hm ⊢
    rw [htr]
    conv_lhs => rw [hs]
    rw [perform_served as s m hr hp hm, hfree, perform_eq_doAll ⟨rfl, rfl⟩ rfl]
    rfl

/-! ## A list under a transport that stops in it -/

/-- A list whose transport acknowledges too few events stops at an action that emits: the actions before it have been done, and its
event stays presented (R231). -/
theorem perform_stops (as : List Action) (s : State) (n : Nat) (hr : s.resetAfter = none) (hp : s.presented = none)
    (hn : n < as.countP Action.isEmit) :
    ∃ pre a post e, as = pre ++ a :: post ∧ a.isEmit = true ∧ pre.countP Action.isEmit = n ∧
      perform as (onTransport (.acksLeft n) s) = present e (onTransport (.acksLeft 0) (doAll pre (onTransport .ready s))) ∧
      (act a (doAll pre (onTransport .ready s))).trace = (doAll pre (onTransport .ready s)).trace ++ [.event e] := by
  induction as generalizing s n with
  | nil => simp at hn
  | cons a as ih =>
    cases ha : a.isEmit with
    | false =>
      rw [List.countP_cons_of_neg (by simp [ha])] at hn
      obtain ⟨pre, b, post, e, rfl, hb, hpre, hperf, htr⟩ :=
        ih (act a s) n ((resetAfter_act a s).trans hr) ((act_notEmit ha .ready s).2.trans hp) hn
      refine ⟨a :: pre, b, post, e, rfl, hb, ?_, ?_, ?_⟩
      · rw [List.countP_cons_of_neg (by simp [ha]), hpre]
      · rw [perform_notEmit ha hr hp, hperf, doAll_cons, (act_notEmit ha .ready s).1]
      · rw [doAll_cons, (act_notEmit ha .ready s).1, htr]
    | true =>
      obtain ⟨e, -, hact⟩ := act_isEmit ha s
      have hready : act a (onTransport .ready s) = onTransport .ready (acknowledged e s) := hact .ready
      cases n with
      | zero =>
        refine ⟨[], a, as, e, rfl, ha, rfl, ?_, ?_⟩
        · rw [perform_cons (s := onTransport (.acksLeft 0) s) hr, hact]
          rfl
        · rw [doAll_nil, hready]
          rfl
      | succ n =>
        rw [List.countP_cons_of_pos ha] at hn
        obtain ⟨pre, b, post, e', rfl, hb, hpre, hperf, htr⟩ := ih (acknowledged e s) n hr rfl (by omega)
        refine ⟨a :: pre, b, post, e', rfl, hb, ?_, ?_, ?_⟩
        · rw [List.countP_cons_of_pos ha, hpre]
        · rw [doAll_cons, hready, ← hperf, perform_cons (s := onTransport (.acksLeft (n + 1)) s) hr, hact]
          rfl
        · rw [doAll_cons, hready, htr]

/-! ## A list that a reset abandons -/

/-- An event that is presented to a transport with no acknowledgement left stays presented. -/
def Stuck (s : State) : Prop := s.presented ≠ none ∧ s.transport = .acksLeft 0

theorem stuck_act (a : Action) {s : State} (h : Stuck s) : Stuck (act a s) := by
  obtain ⟨hp, htr⟩ := h
  have hemit : ∀ e, Stuck (emit e s) := by
    intro e
    rw [emit, acknowledge_stalled (s := present e s) htr]
    exact ⟨by simp, htr⟩
  cases a with
  | emitPwrOn => exact hemit _
  | emitPwrOff => exact hemit _
  | emitScan => exact hemit _
  | emitRow => exact hemit _
  | _ => exact ⟨by simpa [act] using hp, by simpa [act] using htr⟩

theorem not_stuck_of_doAll {as : List Action} {s : State} (h : (doAll as s).presented = none) : ¬ Stuck s :=
  fun hs => (doAll_keeps (fun a _ _ => stuck_act a) hs).1 h

/-- The transport acknowledges an event, or is stuck with it. -/
theorem acknowledge_or_stuck (s : State) : (acknowledge s).presented = none ∨ Stuck (acknowledge s) := by
  unfold acknowledge
  split
  · exact .inl rfl
  · next h =>
    cases hp : s.presented with
    | none => exact .inl rfl
    | some e => exact .inr ⟨by simp [hp], h⟩
  · exact .inl rfl

theorem act_or_stuck (a : Action) {s : State} (hp : s.presented = none) :
    (act a s).presented = none ∨ Stuck (act a s) := by
  cases a with
  | emitPwrOn => exact acknowledge_or_stuck _
  | emitPwrOff => exact acknowledge_or_stuck _
  | emitScan => exact acknowledge_or_stuck _
  | emitRow => exact acknowledge_or_stuck _
  | _ => exact .inl (by simpa [act] using hp)

/-- A reset awaited after `k` actions, with the events before it acknowledged, abandons the list there (R340; log 9). -/
theorem perform_abandoned (as : List Action) {s : State} {k : Nat} (hr : s.resetAfter = some k) (hk : k < as.length)
    (hp : s.presented = none) (h : (doAll (as.take k) s).presented = none) :
    perform as s = resetEvent (doAll (as.take k) s) := by
  induction as generalizing s k with
  | nil => simp at hk
  | cons a as ih =>
    cases k with
    | zero => simp [perform, hr]
    | succ k =>
      have hsame : untimed (act a (tickReset s)) = untimed (act a s) := by
        rw [← act_untimed, ← act_untimed]
        rfl
      have hdone : untimed (doAll (as.take k) (act a (tickReset s))) = untimed (doAll (as.take k) (act a s)) := by
        rw [← doAll_untimed, hsame, doAll_untimed]
      have hpre : (act a (tickReset s)).presented = none :=
        (act_or_stuck a (s := tickReset s) hp).resolve_right fun hst =>
          not_stuck_of_doAll ((congrArg State.presented hdone).trans h) hst
      have htick : (act a (tickReset s)).resetAfter = some k := by simp [resetAfter_act, hr]
      have hlen : k < as.length := by simpa using hk
      have hperf : perform (a :: as) s = perform as (act a (tickReset s)) := by simp [perform, hr, hpre]
      rw [hperf, ih htick hlen hpre ((congrArg State.presented hdone).trans h), List.take_succ_cons, doAll_cons]
      change resetEvent (untimed _) = resetEvent (untimed _)
      rw [hdone]

end Sys2Proof.Machine

/-! The closed forms of UPDATE and ERASE_DISPLAY (R233 to R243, R250, R255). -/

namespace Sys2Proof.Machine

/-! ## The rows of a pass in the terms of the state before the command -/

/-- `t` has the build, the roles and every byte outside `ROWBUF` that `s` has: all that a row is built from, but `SRC_SIZE`. -/
structure SameSource (s t : State) : Prop where
  build : t.build = s.build
  activeSel : t.activeSel = s.activeSel
  readByte_eq : ∀ sp a, sp ≠ .rowbuf → readByte sp a t = readByte sp a s

theorem SameSource.trans {s t u : State} (h : SameSource s t) (h' : SameSource t u) : SameSource s u :=
  ⟨h'.build.trans h.build, h'.activeSel.trans h.activeSel, fun sp a hsp => (h'.readByte_eq sp a hsp).trans (h.readByte_eq sp a hsp)⟩

theorem SameSource.readTable_eq {s t : State} (h : SameSource s t) (p : Phase) (v : Byte) (f : Nat) :
    readTable p v f t = readTable p v f s := by
  rw [readTable, h.build]
  exact h.readByte_eq _ _ (lutSpace_ne_rowbuf p)

theorem bufferOf_ne_rowbuf (role : Role) (s : State) : bufferOf role s ≠ .rowbuf := by
  obtain h | h := bufferOf_cases role s <;> rw [h] <;> decide

theorem SameSource.bufferByte_eq {s t : State} (h : SameSource s t) (role : Role) (i : Nat) :
    bufferByte role t i = bufferByte role s i := by
  rw [bufferByte, bufferOf_congr h.activeSel]
  exact h.readByte_eq _ _ (bufferOf_ne_rowbuf role s)

theorem SameSource.passOut_eq {s t : State} (h : SameSource s t) (p : Phase) (src : Nat → Byte) (n : Nat) :
    passOut t p src n = passOut s p src n := by
  have hrow : rowOut t p src = rowOut s p src := by
    funext f r
    simp only [rowOut, h.build, h.readTable_eq]
  have hframe : frameOut t p src = frameOut s p src := by
    funext f
    rw [frameOut, hrow, h.build, frameOut]
  rw [passOut, hframe, passOut]

/-- The source bytes of a pass over `size` bytes of the buffer that its phase reads: padding beyond them (R234). -/
def passSource (s : State) (p : Phase) (size i : Nat) : Byte := if i < size then bufferByte (passRole p) s i else 0xFF

theorem SameSource.srcByte_eq {s t : State} (h : SameSource s t) (p : Phase) (i : Nat) :
    srcByte p i t = passSource s p t.srcSize i := by
  have hb := h.bufferByte_eq (passRole p) i
  unfold srcByte passSource
  split
  · exact hb
  · rfl

theorem SameSource.rowByte_eq {s t : State} (h : SameSource s t) (p : Phase) (f r j : Nat) :
    rowByte p f r j t = readTable p (passSource s p t.srcSize (r * bytesPerRow s.build + j)) f s := by
  rw [rowByte, h.readTable_eq, h.srcByte_eq, h.build]

theorem sameSource_midPass (s : State) (f r : BitVec 16) (m : Memory) (tr : List Mark) :
    SameSource s (midPass s f r m tr) :=
  ⟨rfl, rfl, fun sp a hsp => readByte_congr (by cases sp with | rowbuf => exact absurd rfl hsp | _ => rfl) rfl⟩

/-- A pass that nothing hinders, in the terms of a state with the same source (R236, R237, R243). -/
theorem doAll_pass {s v : State} (hb : buildOk s.build = true) (h : SameSource s v) (hu : Unhindered v)
    (hp : v.presented = none) (p : Phase) {src : Nat → Byte}
    (hsrc : ∀ i < s.build.h * bytesPerRow s.build, passSource s p v.srcSize i = src i) :
    doAll (passActions s.build p) v =
      midPass v (BitVec.ofNat 16 (passFrames s.build p - 1)) (BitVec.ofNat 16 s.build.h)
        (rowMemory v p (passFrames s.build p - 1) (s.build.h - 1))
        (v.trace ++ passOut s p src (passFrames s.build p)) := by
  have hh : 1 ≤ v.build.h := by rw [h.build]; exact (buildOk_sizes hb).2.2.2.1
  have hn : 1 ≤ passFrames v.build p := by
    obtain ⟨he, -, hd, -⟩ := buildOk_frames hb
    rw [h.build]
    cases p <;> simp only [passFrames] <;> omega
  have hmarks := flatMap_frameMarks (s := v) (p := p) (src := src)
    (fun i hi => (h.srcByte_eq p i).trans (hsrc i (by rwa [h.build] at hi))) hh (passFrames v.build p)
  have := foldl_passActions hu hp hh p hn
  rw [hmarks, h.passOut_eq, h.build] at this
  exact this

/-- The row buffer that a pass leaves holds its last row (R236, R238). -/
theorem find?_rowMemory {s v : State} (h : SameSource s v) (p : Phase) (f r : Nat) {j : Nat}
    (hj : j < bytesPerRow s.build) :
    (rowMemory v p f r).find? j = some (readTable p (passSource s p v.srcSize (r * bytesPerRow s.build + j)) f s) := by
  rw [rowMemory, Memory.find?_table, if_pos (by rwa [h.build]), h.rowByte_eq]

/-- The last row lies in the buffer. -/
theorem lastRow_lt {b : Build} (hb : buildOk b = true) {j : Nat} (hj : j < bytesPerRow b) :
    (b.h - 1) * bytesPerRow b + j < b.h * bytesPerRow b := by
  obtain ⟨h, hh⟩ := Nat.exists_eq_add_of_le' (buildOk_sizes hb).2.2.2.1
  rw [hh, Nat.add_sub_cancel, Nat.succ_mul]
  exact Nat.add_lt_add_left hj _

/-- Within the buffer the source of UPDATE's passes is the buffer (R239, R240). -/
theorem passSource_bufSize {s : State} (hb : buildOk s.build = true) (p : Phase) {i : Nat}
    (hi : i < s.build.h * bytesPerRow s.build) : passSource s p (bufSize s.build) i = bufferByte (passRole p) s i := by
  rw [passSource, if_pos (by rwa [bufSize_eq hb])]

/-! ## A refresh some way in -/

/-- `s` some way into job `j`, whose source is `size` bytes, at `SEQ = q`, with only the counters, the row buffer, the port and the
trace changed. -/
def midRefresh (j : Job) (size : Nat) (s : State) (q : Seq) (f r : BitVec 16) (m : Memory) (tr : List Mark) : State :=
  midPass { startJob j size s with seq := q } f r m tr

section
variable (j : Job) (size : Nat) (s : State) (q : Seq) (f r : BitVec 16) (m : Memory) (tr : List Mark)

theorem sameSource_midRefresh : SameSource s (midRefresh j size s q f r m tr) :=
  SameSource.trans (t := { startJob j size s with seq := q })
    ⟨rfl, rfl, fun sp a _ => readByte_congr (by cases sp <;> rfl) rfl⟩ (sameSource_midPass _ f r m tr)

theorem startJob_eq_midRefresh (hp : s.presented = none) :
    startJob j size s = midRefresh j size s s.seq s.frameCtr s.rowCtr s.rowbuf s.trace := by
  simp [midRefresh, midPass, startJob, hp]

theorem act_enter_midRefresh (q' : Seq) :
    act (.enter q') (midRefresh j size s q f r m tr) = midRefresh j size s q' f r m tr := rfl

theorem act_settle_midRefresh (k : Settle) :
    act (.settle k) (midRefresh j size s q f r m tr) = midRefresh j size s q f r m (tr ++ [.settle k]) := rfl

variable {s} (hu : Unhindered s)
include hu

theorem act_emitPwrOn_midRefresh :
    act .emitPwrOn (midRefresh j size s q f r m tr) = midRefresh j size s q f r m (tr ++ [.event .pwrOn]) :=
  emit_ready (s := midRefresh j size s q f r m tr) hu.1 .pwrOn

theorem act_emitPwrOff_midRefresh :
    act .emitPwrOff (midRefresh j size s q f r m tr) = midRefresh j size s q f r m (tr ++ [.event .pwrOff]) :=
  emit_ready (s := midRefresh j size s q f r m tr) hu.1 .pwrOff

/-- The supply is switched on, and settles (R232, R233). -/
theorem doAll_powerOn :
    doAll [.enter .powerOn, .emitPwrOn, .enter .settleOn, .settle .on] (midRefresh j size s q f r m tr) =
      midRefresh j size s .settleOn f r m (tr ++ [.event .pwrOn, .settle .on]) := by
  simp only [doAll_cons, doAll_nil, act_enter_midRefresh, act_settle_midRefresh,
    act_emitPwrOn_midRefresh j size _ f r m _ hu, List.append_assoc, List.cons_append, List.nil_append]

/-- The supply settles, and is switched off (R232, R233). -/
theorem doAll_powerOff :
    doAll [.enter .settleOff, .settle .off, .enter .powerOff, .emitPwrOff] (midRefresh j size s q f r m tr) =
      midRefresh j size s .powerOff f r m (tr ++ [.settle .off, .event .pwrOff]) := by
  simp only [doAll_cons, doAll_nil, act_enter_midRefresh, act_settle_midRefresh,
    act_emitPwrOff_midRefresh j size _ f r m _ hu, List.append_assoc, List.cons_append, List.nil_append]

/-- One pass, and the row buffer that it leaves (R237 to R240). -/
theorem doAll_pass_midRefresh (hb : buildOk s.build = true) (p : Phase) {src : Nat → Byte}
    (hsrc : ∀ i < s.build.h * bytesPerRow s.build, passSource s p size i = src i) :
    ∃ m', doAll (passActions s.build p) (midRefresh j size s q f r m tr) =
        midRefresh j size s q (BitVec.ofNat 16 (passFrames s.build p - 1)) (BitVec.ofNat 16 s.build.h) m'
          (tr ++ passOut s p src (passFrames s.build p)) ∧
      ∀ k < bytesPerRow s.build, m'.find? k = some (readTable p
        (src ((s.build.h - 1) * bytesPerRow s.build + k)) (passFrames s.build p - 1) s) := by
  have hsame := sameSource_midRefresh j size s q f r m tr
  refine ⟨_, doAll_pass hb hsame hu rfl p hsrc, fun k hk => ?_⟩
  rw [find?_rowMemory hsame p _ _ hk]
  exact congrArg (fun v => some (readTable p v (passFrames s.build p - 1) s)) (hsrc _ (lastRow_lt hb hk))

end

/-! ## UPDATE -/

/-- `s` after an UPDATE that nothing hinders, with the row buffer `m` (R250). -/
def afterUpdate (s : State) (m : Memory) : State :=
  { s with
    rowbuf := m, activeSel := !s.activeSel, seq := .idle, job := .none
    frameCtr := BitVec.ofNat 16 (s.build.d - 2), rowCtr := BitVec.ofNat 16 s.build.h
    srcSize := bufSize s.build, busy := false, trace := s.trace ++ updateOut s }

/-- The swap, and the end of UPDATE (R247, R250). -/
theorem doAll_updateSwap {s : State} (hp : s.presented = none) (size : Nat) (q : Seq) (f r : BitVec 16) (m : Memory)
    (tr : List Mark) :
    doAll updateSwap (midRefresh .update size s q f r m tr) =
      { s with
        rowbuf := m, activeSel := !s.activeSel, seq := .idle, job := .none, frameCtr := f, rowCtr := r
        srcSize := size, busy := false, trace := tr } := by
  simp [updateSwap, act, midRefresh, midPass, startJob, endJob, swapRoles, hp]

/-- UPDATE that nothing hinders, action by action (R250). -/
theorem doAll_update {s : State} (hb : buildOk s.build = true) (hu : Unhindered s) (hp : s.presented = none) :
    ∃ m, doAll (updateActions s.build) (startJob .update (bufSize s.build) s) = afterUpdate s m ∧
      ∀ k < bytesPerRow s.build, m.find? k = some (readTable .draw
        (bufferByte .active s ((s.build.h - 1) * bytesPerRow s.build + k)) (s.build.d - 2) s) := by
  have hlist : updateActions s.build =
      [.enter .powerOn, .emitPwrOn, .enter .settleOn, .settle .on] ++ ([.enter .erase] ++ (passActions s.build .erase ++
        ([.enter .draw] ++ (passActions s.build .draw ++
          ([.enter .settleOff, .settle .off, .enter .powerOff, .emitPwrOff] ++ updateSwap))))) := rfl
  have hpass := fun q p f r m tr => doAll_pass_midRefresh .update (bufSize s.build) q f r m tr hu hb p
    fun _ hi => passSource_bufSize hb p hi
  obtain ⟨m1, herase, -⟩ := hpass .erase .erase s.frameCtr s.rowCtr s.rowbuf (s.trace ++ [.event .pwrOn, .settle .on])
  obtain ⟨m2, hdraw, hm2⟩ := hpass .draw .draw (BitVec.ofNat 16 (passFrames s.build .erase - 1))
    (BitVec.ofNat 16 s.build.h) m1
    (s.trace ++ [.event .pwrOn, .settle .on] ++ passOut s .erase (bufferByte (passRole .erase) s) (passFrames s.build .erase))
  refine ⟨m2, ?_, hm2⟩
  rw [hlist, startJob_eq_midRefresh _ _ _ hp, doAll_append, doAll_powerOn _ _ _ _ _ _ _ hu, doAll_append, doAll_cons,
    doAll_nil, act_enter_midRefresh, doAll_append, herase, doAll_append, doAll_cons, doAll_nil, act_enter_midRefresh,
    doAll_append, hdraw, doAll_append, doAll_powerOff _ _ _ _ _ _ _ hu, doAll_updateSwap hp]
  simp only [afterUpdate, updateOut, passFrames, passRole, List.append_assoc, Nat.sub_sub]

/-! ## ERASE_DISPLAY -/

/-- White in every field (R72). -/
def whiteByte : Nat → Byte := fun _ => 0xFF

theorem readByte_endJob (sp : Space) (a : Nat) (s : State) : readByte sp a (endJob s) = readByte sp a s :=
  readByte_congr (by cases sp <;> rfl) rfl

theorem bufferOf_active_ne_reference (s : State) : bufferOf .active s ≠ bufferOf .reference s := (bufferOf_ne s).symm

/-- With fill scope ACTIVE the closing fill writes the active buffer alone (R15). -/
theorem doAll_displayFill_active {w : State} (h : w.build.eraseFillScope = .active) :
    doAll (displayFill w.build) w = endJob (writeAll (bufferOf .active w) whiteByte { w with seq := .fill }) := by
  have hlist : displayFill w.build = [.enter .fill, .white .active, .enter .idle, .finish] := by simp [displayFill, h]
  rw [hlist]
  rfl

/-- With fill scope BOTH it writes the active buffer and then the reference buffer (R15). -/
theorem doAll_displayFill_both {w : State} (h : w.build.eraseFillScope = .both) :
    doAll (displayFill w.build) w = endJob (writeAll (bufferOf .reference w) whiteByte
      (writeAll (bufferOf .active w) whiteByte { w with seq := .fill })) := by
  have hlist : displayFill w.build = [.enter .fill, .white .active, .white .reference, .enter .idle, .finish] := by
    simp [displayFill, h]
  have hbuf : bufferOf .reference (writeAll (bufferOf .active w) whiteByte { w with seq := .fill }) =
      bufferOf .reference w := bufferOf_congr (by simp) _
  rw [hlist, ← hbuf]
  rfl

/-- The closing fill of ERASE_DISPLAY, and its end: no item but the framebuffers and the position is written (R255). -/
theorem doAll_displayFill_frame (w : State) :
    ∃ m0 m1, doAll (displayFill w.build) w =
      { w with fb0 := m0, fb1 := m1, seq := .idle, job := .none, busy := false } := by
  cases h : w.build.eraseFillScope with
  | active =>
    rw [doAll_displayFill_active h, writeAll_buffer .active w]
    exact ⟨_, _, rfl⟩
  | both =>
    rw [doAll_displayFill_both h, writeAll_buffer .reference w, writeAll_buffer .active w { w with seq := .fill }]
    exact ⟨_, _, rfl⟩

/-- Every byte of the active buffer becomes White (R255). -/
theorem readByte_displayFill_active {w : State} {a : Nat} (ha : a < bufSize w.build) :
    readByte (bufferOf .active w) a (doAll (displayFill w.build) w) = 0xFF := by
  cases h : w.build.eraseFillScope with
  | active => rw [doAll_displayFill_active h, readByte_endJob, readByte_writeAll_buffer (by exact ha), whiteByte]
  | both =>
    rw [doAll_displayFill_both h, readByte_endJob, readByte_writeAll_of_ne (bufferOf_active_ne_reference w),
      readByte_writeAll_buffer (by exact ha), whiteByte]

/-- With fill scope BOTH every byte of the reference buffer becomes White (R15, R255). -/
theorem readByte_displayFill_reference_both {w : State} (h : w.build.eraseFillScope = .both) {a : Nat}
    (ha : a < bufSize w.build) : readByte (bufferOf .reference w) a (doAll (displayFill w.build) w) = 0xFF := by
  rw [doAll_displayFill_both h, readByte_endJob, readByte_writeAll_buffer (by simpa using ha), whiteByte]

/-- With fill scope ACTIVE the reference buffer keeps its bytes (R15, R32). -/
theorem readByte_displayFill_reference_active {w : State} (h : w.build.eraseFillScope = .active) (a : Nat) :
    readByte (bufferOf .reference w) a (doAll (displayFill w.build) w) = readByte (bufferOf .reference w) a w := by
  rw [doAll_displayFill_active h, readByte_endJob, readByte_writeAll_of_ne (bufferOf_ne w)]
  exact readByte_congr (by cases bufferOf .reference w <;> rfl) rfl

/-- `s` after an ERASE_DISPLAY that nothing hinders, with the row buffer and the framebuffers as given (R255). -/
def afterDisplay (s : State) (m m0 m1 : Memory) : State :=
  { s with
    rowbuf := m, fb0 := m0, fb1 := m1, seq := .idle, job := .none
    frameCtr := BitVec.ofNat 16 (s.build.e - 1), rowCtr := BitVec.ofNat 16 s.build.h
    srcSize := 0, busy := false, trace := s.trace ++ displayOut s }

/-- ERASE_DISPLAY that nothing hinders, up to its closing fill (R255). -/
theorem doAll_displayWalk {s : State} (hb : buildOk s.build = true) (hu : Unhindered s) (hp : s.presented = none) :
    ∃ w q m, w = midRefresh .eraseDisplay 0 s q (BitVec.ofNat 16 (s.build.e - 1)) (BitVec.ofNat 16 s.build.h) m
        (s.trace ++ displayOut s) ∧
      doAll (displayActions s.build) (startJob .eraseDisplay 0 s) = doAll (displayFill w.build) w ∧
      ∀ k < bytesPerRow s.build, m.find? k = some (readTable .erase 0xFF (s.build.e - 1) s) := by
  have hpass := fun f r m tr => doAll_pass_midRefresh .eraseDisplay 0 .erase f r m tr hu hb .erase (src := fun _ => 0xFF)
    fun _ _ => rfl
  by_cases hw : s.build.erasePower = .wrapped
  · have hlist : displayActions s.build =
        [.enter .powerOn, .emitPwrOn, .enter .settleOn, .settle .on] ++ ([.enter .erase] ++ (passActions s.build .erase ++
          ([.enter .settleOff, .settle .off, .enter .powerOff, .emitPwrOff] ++ displayFill s.build))) := by
      simp [displayActions, displaySettleOn, displayErase, displayPowerOff, hw]
    obtain ⟨m, herase, hm⟩ := hpass s.frameCtr s.rowCtr s.rowbuf (s.trace ++ [.event .pwrOn, .settle .on])
    refine ⟨_, .powerOff, m, rfl, ?_, hm⟩
    rw [hlist, startJob_eq_midRefresh _ _ _ hp, doAll_append, doAll_powerOn _ _ _ _ _ _ _ hu, doAll_append, doAll_cons,
      doAll_nil, act_enter_midRefresh, doAll_append, herase, doAll_append, doAll_powerOff _ _ _ _ _ _ _ hu]
    simp only [displayOut, hw, if_true, passFrames, List.append_assoc]
    rfl
  · have hlist : displayActions s.build = [.enter .erase] ++ (passActions s.build .erase ++ displayFill s.build) := by
      simp [displayActions, displayErase, displayPowerOff, hw]
    obtain ⟨m, herase, hm⟩ := hpass s.frameCtr s.rowCtr s.rowbuf s.trace
    refine ⟨_, .erase, m, rfl, ?_, hm⟩
    rw [hlist, startJob_eq_midRefresh _ _ _ hp, doAll_append, doAll_cons, doAll_nil, act_enter_midRefresh, doAll_append,
      herase]
    simp only [displayOut, hw, if_false, passFrames, List.nil_append, List.append_nil]
    rfl

/-- What ERASE_DISPLAY writes into the framebuffers: White into the active one, and into the reference one by the fill scope
(R15, R255). -/
structure Blanked (s t : State) : Prop where
  active : ∀ a < bufSize s.build, readByte (bufferOf .active s) a t = 0xFF
  both : s.build.eraseFillScope = .both → ∀ a < bufSize s.build, readByte (bufferOf .reference s) a t = 0xFF
  reference : s.build.eraseFillScope = .active →
    ∀ a, readByte (bufferOf .reference s) a t = readByte (bufferOf .reference s) a s

/-- ERASE_DISPLAY that nothing hinders, action by action (R255). -/
theorem doAll_display {s : State} (hb : buildOk s.build = true) (hu : Unhindered s) (hp : s.presented = none) :
    ∃ m m0 m1, doAll (displayActions s.build) (startJob .eraseDisplay 0 s) = afterDisplay s m m0 m1 ∧
      (∀ k < bytesPerRow s.build, m.find? k = some (readTable .erase 0xFF (s.build.e - 1) s)) ∧
      Blanked s (afterDisplay s m m0 m1) := by
  obtain ⟨w, q, m, hw, hwalk, hm⟩ := doAll_displayWalk hb hu hp
  obtain ⟨m0, m1, hframe⟩ := doAll_displayFill_frame w
  have hdone : doAll (displayFill w.build) w = afterDisplay s m m0 m1 := by
    rw [hframe, hw]
    simp [afterDisplay, midRefresh, midPass, startJob, hp]
  have hsame : SameSource s w := hw ▸ sameSource_midRefresh _ _ s _ _ _ _ _
  have hbuf : ∀ role, bufferOf role s = bufferOf role w := fun role => (bufferOf_congr hsame.activeSel role).symm
  refine ⟨m, m0, m1, hwalk.trans hdone, hm, ?_⟩
  rw [← hdone]
  refine ⟨fun a ha => ?_, fun h a ha => ?_, fun h a => ?_⟩ <;> rw [hbuf]
  · exact readByte_displayFill_active (by rwa [hsame.build])
  · exact readByte_displayFill_reference_both (by rwa [hsame.build]) (by rwa [hsame.build])
  · rw [readByte_displayFill_reference_active (by rwa [hsame.build])]
    exact hsame.readByte_eq _ a (bufferOf_ne_rowbuf _ _)

/-! ## Both, under any transport and with any reset awaited -/

theorem refreshes_freed (s : State) : refreshes (freed s) = refreshes s := by
  have hsame : SameSource s (freed s) := ⟨rfl, rfl, fun sp a _ => readByte_freed sp a s⟩
  have hbuf : ∀ role, bufferByte role (freed s) = bufferByte role s := fun role => funext (hsame.bufferByte_eq role)
  simp only [refreshes, updateRefresh, displayRefresh, updateOut, displayOut, hsame.build, hsame.passOut_eq, hbuf]

/-- What a refresh adds to the trace, action by action, whatever the transport and the reset input do (R230, R250, R255). -/
theorem trace_refresh {s : State} {x : Refresh} (hx : x ∈ refreshes s) (hb : buildOk s.build = true) :
    (doAll x.actions (x.start s)).trace = s.trace ++ x.out := by
  have hfree : (doAll x.actions (x.start s)).trace = (doAll x.actions (x.start (freed s))).trace :=
    (congrArg State.trace (doAll_freed x.actions (x.start s))).symm
  rw [hfree]
  rw [← refreshes_freed] at hx
  obtain rfl | rfl := refreshes_cases hx
  · obtain ⟨m, h, -⟩ := doAll_update (s := freed s) hb ⟨rfl, rfl⟩ rfl
    exact congrArg State.trace h
  · obtain ⟨m, m0, m1, h, -⟩ := doAll_display (s := freed s) hb ⟨rfl, rfl⟩ rfl
    exact congrArg State.trace h

/-- A refresh adds as many events and settle markers as it has actions of each kind. -/
theorem counts_refresh {s : State} {x : Refresh} (hx : x ∈ refreshes s) (hb : buildOk s.build = true) :
    (eventsOf x.out).length = x.actions.countP Action.isEmit ∧
      x.out.countP Mark.isSettle = x.actions.countP Action.isSettle := by
  obtain ⟨ms, htr, hev, hset⟩ := trace_doAll x.actions (x.start s)
  obtain rfl : ms = x.out := List.append_cancel_left (htr.symm.trans (trace_refresh hx hb))
  exact ⟨hev, hset⟩

/-- A refresh whose transport acknowledges all its events, and that no reset hinders, is done to its end. -/
theorem exec_refresh_served {s : State} {x : Refresh} (hx : x ∈ refreshes s) (hb : buildOk s.build = true)
    (hl : s.lutValid = true) (hs : Served (eventsOf x.out).length s) (hp : s.presented = none) :
    exec x.command s = .next (onTransport (s.transport.drained (eventsOf x.out).length)
      (doAll x.actions (x.start (freed s)))) := by
  rw [exec_refresh hl hx, (counts_refresh hx hb).1, perform_of_served (s := x.start s) ?_ hp]
  · rfl
  · rw [← (counts_refresh hx hb).1]
    exact hs

end Sys2Proof.Machine

/-! What UPDATE and ERASE_DISPLAY do: to their end, to a wait, after a wait, and to a reset (R231, R244, R250, R255, R340). -/

namespace Sys2Proof.Machine

theorem updateRefresh_mem (s : State) : updateRefresh s ∈ refreshes s := by simp [refreshes]

theorem displayRefresh_mem (s : State) : displayRefresh s ∈ refreshes s := by simp [refreshes]

/-! ## To the end -/

/-- An UPDATE that is served ends in `afterUpdate`, with its acknowledgements counted off (R250; log 8). -/
theorem exec_update_served {s : State} (hb : buildOk s.build = true) (hl : s.lutValid = true)
    (hs : Served (eventsOf (updateOut s)).length s) (hp : s.presented = none) :
    ∃ m, exec .update s = .next (onTransport (s.transport.drained (eventsOf (updateOut s)).length) (afterUpdate s m)) ∧
      ∀ k < bytesPerRow s.build, m.find? k = some (readTable .draw
        (bufferByte .active s ((s.build.h - 1) * bytesPerRow s.build + k)) (s.build.d - 2) s) := by
  have hsame : SameSource s (freed s) := ⟨rfl, rfl, fun sp a _ => readByte_freed sp a s⟩
  obtain ⟨m, hdone, hm⟩ := doAll_update (s := freed s) hb ⟨rfl, rfl⟩ rfl
  have hout : updateOut (freed s) = updateOut s := congrArg Refresh.out (List.cons.inj (refreshes_freed s)).1
  have hfree : ∀ tr, onTransport tr (afterUpdate (freed s) m) = onTransport tr (afterUpdate s m) := by
    intro tr
    rw [afterUpdate, hout]
    simp [onTransport, afterUpdate, freed, hp, hs.1]
  refine ⟨m, ?_, fun k hk => ?_⟩
  · rw [← hfree, ← hdone]
    exact exec_refresh_served (updateRefresh_mem s) hb hl hs hp
  · rw [hm k hk, hsame.bufferByte_eq, hsame.readTable_eq]
    rfl

/-- An ERASE_DISPLAY that is served ends in `afterDisplay`, with its acknowledgements counted off (R255; log 8). -/
theorem exec_eraseDisplay_served {s : State} (hb : buildOk s.build = true) (hl : s.lutValid = true)
    (hs : Served (eventsOf (displayOut s)).length s) (hp : s.presented = none) :
    ∃ m m0 m1, exec .eraseDisplay s =
        .next (onTransport (s.transport.drained (eventsOf (displayOut s)).length) (afterDisplay s m m0 m1)) ∧
      (∀ k < bytesPerRow s.build, m.find? k = some (readTable .erase 0xFF (s.build.e - 1) s)) ∧
      Blanked s (afterDisplay s m m0 m1) := by
  have hsame : SameSource s (freed s) := ⟨rfl, rfl, fun sp a _ => readByte_freed sp a s⟩
  obtain ⟨m, m0, m1, hdone, hm, hblank⟩ := doAll_display (s := freed s) hb ⟨rfl, rfl⟩ rfl
  have hout : displayOut (freed s) = displayOut s :=
    congrArg Refresh.out (List.cons.inj (List.cons.inj (refreshes_freed s)).2).1
  have hfree : ∀ tr, onTransport tr (afterDisplay (freed s) m m0 m1) = onTransport tr (afterDisplay s m m0 m1) := by
    intro tr
    rw [afterDisplay, hout]
    simp [onTransport, afterDisplay, freed, hp, hs.1]
  have hread : ∀ sp a, readByte sp a (afterDisplay (freed s) m m0 m1) = readByte sp a (afterDisplay s m m0 m1) :=
    fun sp a => readByte_congr (by cases sp <;> rfl) rfl
  refine ⟨m, m0, m1, ?_, fun k hk => ?_, fun a ha => ?_, fun h a ha => ?_, fun h a => ?_⟩
  · rw [← hfree, ← hdone]
    exact exec_refresh_served (displayRefresh_mem s) hb hl hs hp
  · rw [hm k hk, hsame.readTable_eq]
    rfl
  · exact (hread _ a).symm.trans (hblank.active a ha)
  · exact (hread _ a).symm.trans (hblank.both h a ha)
  · exact ((hread _ a).symm.trans (hblank.reference h a)).trans (readByte_freed _ a s)

/-- Another transport and another trace change no byte. -/
theorem readByte_onTransport (tr : Transport) (sp : Space) (a : Nat) (s : State) :
    readByte sp a (onTransport tr s) = readByte sp a s :=
  readByte_congr (by cases sp <;> rfl) rfl

theorem readByte_rowbuf_of_find? {t : State} {k : Nat} {v : Byte} (h : t.rowbuf.find? k = some v) :
    readByte .rowbuf k t = v := by
  simp [readByte, spaceOf, h]

/-- Settles O41: the next state is `afterUpdate`'s, with the acknowledgements counted off. -/
theorem updateRefreshes : Obligations.UpdateRefreshes := by
  unfold Obligations.UpdateRefreshes
  intro s hb hl hs hp
  obtain ⟨m, hexec, hm⟩ := exec_update_served hb hl hs hp
  refine ⟨_, hexec, rfl, fun k hk => readByte_rowbuf_of_find? (hm k hk), fun sp a hsp => ?_⟩
  exact readByte_congr (by cases sp with | rowbuf => exact absurd rfl hsp | _ => rfl) rfl

/-- Settles O42: the next state is `afterDisplay`'s, with the acknowledgements counted off. -/
theorem eraseDisplayBlanks : Obligations.EraseDisplayBlanks := by
  unfold Obligations.EraseDisplayBlanks
  intro s hb hl hs hp
  obtain ⟨m, m0, m1, hexec, hm, hblank⟩ := exec_eraseDisplay_served hb hl hs hp
  refine ⟨_, hexec, ?_, fun k hk => readByte_rowbuf_of_find? (hm k hk), ?_, ?_, ?_, ?_⟩
  · rfl
  · intro a ha
    rw [readByte_onTransport]
    exact hblank.active a ha
  · intro h a ha
    rw [readByte_onTransport]
    exact hblank.both h a ha
  · intro h a
    rw [readByte_onTransport]
    exact hblank.reference h a
  · intro p a
    exact readByte_congr (by cases p <;> rfl) rfl

theorem Unhindered.served {s : State} (h : Unhindered s) (n : Nat) : Served n s := ⟨h.2, .inl h.1⟩

/-- Settles O43: every byte of the active buffer is `0xFF`, whose every field is White. -/
theorem eraseDisplayThenReadWhite : Obligations.EraseDisplayThenReadWhite := by
  unfold Obligations.EraseDisplayThenReadWhite
  intro s t r x y hb hl hu hp h hvis
  obtain ⟨m, m0, m1, hexec, -, hblank⟩ := exec_eraseDisplay_served hb hl (hu.served _) hp
  have ht : t = onTransport _ (afterDisplay s m m0 m1) := Host.Outcome.next.inj (h.symm.trans hexec)
  have hsel : t.activeSel = s.activeSel := by rw [ht]; rfl
  have hbuild : t.build = s.build := by rw [ht]; rfl
  have hres : t.results = s.results := by rw [ht]; rfl
  have hwhite : ∀ a < bufSize t.build, readByte (bufferOf .active t) a t = 0xFF := by
    intro a ha
    rw [bufferOf_congr hsel, ht, readByte_onTransport]
    exact hblank.active a (hbuild ▸ ha)
  have hfield : ∀ p < 4, getField 0xFF p = 3 := by decide
  rw [← hbuild] at hb hvis
  rw [← hres]
  exact exec_readPixel_uniform hb hwhite hfield hvis

/-! ## How many events (R244) -/

theorem countP_isEmit_rowsFrom (b : Build) (p : Phase) (f : Nat) : (rowsFrom b p f 0).countP Action.isEmit = b.h + 1 := by
  have hrow : List.countP Action.isEmit ∘ rowActions p f = fun _ => 1 := funext fun _ => rfl
  rw [rowsFrom, List.countP_append, List.countP_flatMap, hrow]
  simp [Action.isEmit]

/-- A pass of `n` frames emits `n * (H + 2)` events: a scan start, `H` rows and the flush row a frame. -/
theorem countP_isEmit_passActions (b : Build) (p : Phase) :
    (passActions b p).countP Action.isEmit = passFrames b p * (b.h + 2) := by
  have hframe : List.countP Action.isEmit ∘ frameActions b p = fun _ => b.h + 2 := by
    funext f
    simp [frameActions, List.countP_cons, countP_isEmit_rowsFrom, Action.isEmit]
  rw [passActions, framesFrom, List.countP_flatMap, hframe]
  simp

theorem isSettle_of_inPass {a : Action} (h : a.inPass = true) : a.isSettle = false := by
  cases a <;> simp_all [Action.inPass, Action.isSettle]

/-- A pass settles nowhere. -/
theorem countP_isSettle_passActions (b : Build) (p : Phase) : (passActions b p).countP Action.isSettle = 0 :=
  List.countP_eq_zero.2 fun a ha => by simp [isSettle_of_inPass (inPass_of_mem_framesFrom a ha)]

theorem countP_updateActions (b : Build) :
    (updateActions b).countP Action.isEmit = 2 + (b.e * (b.h + 2) + (b.d - 1) * (b.h + 2)) ∧
      (updateActions b).countP Action.isSettle = 2 := by
  constructor <;>
    simp [updateActions, updateErase, updateDraw, updatePowerOff, updateSwap, countP_isEmit_passActions,
      countP_isSettle_passActions, List.countP_cons, Action.isEmit, Action.isSettle, passFrames]
  omega

theorem countP_displayFill (b : Build) :
    (displayFill b).countP Action.isEmit = 0 ∧ (displayFill b).countP Action.isSettle = 0 := by
  unfold displayFill
  split <;> exact ⟨rfl, rfl⟩

theorem countP_displayActions_wrapped {b : Build} (h : b.erasePower = .wrapped) :
    (displayActions b).countP Action.isEmit = b.e * (b.h + 2) + 2 ∧ (displayActions b).countP Action.isSettle = 2 := by
  constructor <;>
    simp [displayActions, displaySettleOn, displayErase, displayPowerOff, h, countP_displayFill,
      countP_isEmit_passActions, countP_isSettle_passActions, List.countP_cons, Action.isEmit, Action.isSettle, passFrames]

theorem countP_displayActions_bare {b : Build} (h : b.erasePower = .bare) :
    (displayActions b).countP Action.isEmit = b.e * (b.h + 2) ∧ (displayActions b).countP Action.isSettle = 0 := by
  constructor <;>
    simp [displayActions, displayErase, displayPowerOff, h, countP_displayFill, countP_isEmit_passActions,
      countP_isSettle_passActions, Action.isEmit, Action.isSettle, passFrames]

/-- A list that nothing hinders adds as many events and settle markers as it has actions of each kind. -/
theorem trace_perform_unhindered {s : State} (hu : Unhindered s) (hp : s.presented = none) (as : List Action) :
    ∃ emitted, (perform as s).trace = s.trace ++ emitted ∧ (eventsOf emitted).length = as.countP Action.isEmit ∧
      (emitted.filter Mark.isSettle).length = as.countP Action.isSettle := by
  rw [perform_eq_doAll hu hp]
  obtain ⟨ms, htr, hev, hset⟩ := trace_doAll as s
  exact ⟨ms, htr, hev, by rw [← List.countP_eq_length_filter, hset]⟩

/-- Settles O45: the marks are counted by the actions that make them. -/
theorem refreshEventCounts : Obligations.RefreshEventCounts := by
  unfold Obligations.RefreshEventCounts
  intro s hb hl hu hp
  refine ⟨?_, ?_, fun p => ?_⟩
  · obtain ⟨ms, htr, hev, hset⟩ := trace_perform_unhindered (s := (updateRefresh s).start s) hu hp (updateActions s.build)
    obtain ⟨hemit, hsettle⟩ := countP_updateActions s.build
    obtain ⟨he, -, hd, -⟩ := buildOk_frames hb
    refine ⟨_, ms, exec_update_of_lutValid hl, htr, ?_, hset.trans hsettle⟩
    rw [hev, hemit, ← Nat.add_mul, Nat.add_sub_assoc (by omega)]
  · obtain ⟨ms, htr, hev, hset⟩ := trace_perform_unhindered (s := (displayRefresh s).start s) hu hp (displayActions s.build)
    refine ⟨_, ms, exec_eraseDisplay_of_lutValid hl, htr, fun h => ?_, fun h => ?_⟩
    · exact ⟨hev.trans (countP_displayActions_wrapped h).1, hset.trans (countP_displayActions_wrapped h).2⟩
    · exact ⟨hev.trans (countP_displayActions_bare h).1, hset.trans (countP_displayActions_bare h).2⟩
  · obtain ⟨ms, htr, hev, hset⟩ := trace_perform_unhindered hu hp (passActions s.build p)
    exact ⟨ms, htr, hev.trans (countP_isEmit_passActions _ _), hset.trans (countP_isSettle_passActions _ _)⟩

/-! ## To a wait (R231) -/

/-- A refresh is a walk, and a close that emits nothing. -/
theorem refresh_walk {s : State} {x : Refresh} (hx : x ∈ refreshes s) :
    ∃ walk close, x.actions = walk ++ close ∧ (∀ a ∈ walk, a.closes = false) ∧ ∀ a ∈ close, a.isEmit = false := by
  obtain rfl | rfl := refreshes_cases hx
  · obtain ⟨walk, h, hw⟩ := walkThen_update s.build
    exact ⟨walk, _, h, hw, isEmit_of_mem_updateSwap⟩
  · obtain ⟨walk, h, hw⟩ := walkThen_display s.build
    exact ⟨walk, _, h, hw, isEmit_of_mem_displayFill _⟩

/-- The actions before one that emits belong to the walk. -/
theorem closes_of_before_emit {walk close pre post : List Action} {a : Action} (h : walk ++ close = pre ++ a :: post)
    (hw : ∀ b ∈ walk, b.closes = false) (hc : ∀ b ∈ close, b.isEmit = false) (ha : a.isEmit = true) :
    ∀ b ∈ pre, b.closes = false := by
  obtain ⟨mid, rfl, hclose⟩ | ⟨mid, rfl, -⟩ := List.append_eq_append_iff.1 h
  · exact absurd ha (by simp [hc a (by simp [hclose])])
  · exact fun b hb => hw b (List.mem_append_left _ hb)

/-- An action that does not close keeps the command running, the roles, and every byte outside `ROWBUF`. -/
theorem act_of_not_closes {a : Action} (h : a.closes = false) (s : State) :
    (act a s).job = s.job ∧ (act a s).busy = s.busy ∧ (act a s).activeSel = s.activeSel ∧
      ∀ sp i, sp ≠ .rowbuf → readByte sp i (act a s) = readByte sp i s := by
  have hwhite : ∀ role, a ≠ .white role := by
    rintro role rfl
    cases h
  refine ⟨?_, ?_, ?_, fun sp i hsp => readByte_act hwhite hsp i s⟩ <;> cases a <;> simp [act, buildRow] <;> cases h

/-- The same for a list of such actions. -/
theorem doAll_of_not_closes {as : List Action} (h : ∀ a ∈ as, a.closes = false) (s : State) :
    (doAll as s).job = s.job ∧ (doAll as s).busy = s.busy ∧ (doAll as s).activeSel = s.activeSel ∧
      ∀ sp i, sp ≠ .rowbuf → readByte sp i (doAll as s) = readByte sp i s := by
  refine doAll_keeps (P := fun u => u.job = s.job ∧ u.busy = s.busy ∧ u.activeSel = s.activeSel ∧
    ∀ sp i, sp ≠ .rowbuf → readByte sp i u = readByte sp i s) (fun a ha u hu => ?_) ⟨rfl, rfl, rfl, fun _ _ _ => rfl⟩
  obtain ⟨h1, h2, h3, h4⟩ := act_of_not_closes (h a ha) u
  obtain ⟨h1', h2', h3', h4'⟩ := hu
  exact ⟨h1.trans h1', h2.trans h2', h3.trans h3', fun sp i hsp => (h4 sp i hsp).trans (h4' sp i hsp)⟩

/-- Settles O46: the refresh stops in its walk, at the action that emits event `n+1`. -/
theorem refreshWaitsForTransport : Obligations.RefreshWaitsForTransport := by
  unfold Obligations.RefreshWaitsForTransport
  intro s n x hx hb hl htr hr hp hn
  rw [(counts_refresh hx hb).1] at hn
  obtain ⟨pre, a, post, e, hacts, ha, hpre, hperf, hmark⟩ := perform_stops x.actions (x.start s) n hr hp hn
  obtain ⟨walk, close, hshape, hwalk, hclose⟩ := refresh_walk hx
  obtain ⟨hjob, hbusy, hsel, hbytes⟩ := doAll_of_not_closes
    (closes_of_before_emit (hshape.symm.trans hacts) hwalk hclose ha) (onTransport .ready (x.start s))
  have hfree : onTransport .ready (x.start s) = freed (x.start s) := by
    rw [onTransport, freed, show (x.start s).presented = none from hp, show (x.start s).resetAfter = none from hr]
  have hstart : onTransport (.acksLeft n) (x.start s) = x.start s := by rw [← show (x.start s).transport = _ from htr]; rfl
  rw [hstart] at hperf
  have hexec := exec_refresh hl hx
  rw [hperf] at hexec
  obtain ⟨ms, hms, hev, -⟩ := trace_doAll pre (onTransport .ready (x.start s))
  refine ⟨_, ms ++ [.event e], e, hexec, ?_, ?_, ?_, by simp, rfl, rfl, hbusy, hjob, hsel, fun sp i hsp => ?_⟩
  · obtain ⟨ns, hns, -⟩ := trace_doAll post (act a (doAll pre (onTransport .ready (x.start s))))
    have hall : (doAll x.actions (onTransport .ready (x.start s))).trace = s.trace ++ x.out := by
      rw [hfree, doAll_freed]
      exact trace_refresh hx hb
    rw [hacts, doAll_append, doAll_cons, hns, hmark, hms, List.append_assoc, List.append_assoc] at hall
    exact ⟨ns, by rw [← List.append_cancel_left hall, List.append_assoc]⟩
  · exact (congrArg (· ++ [Mark.event e]) hms).trans (List.append_assoc _ _ _)
  · rw [eventsOf_append, List.length_append, hev, hpre]
    rfl
  · exact (readByte_congr (by cases sp <;> rfl) rfl).trans (hbytes sp i hsp)

/-! ## After a wait (R231, R356) -/

theorem exec_refresh_onTransport {s : State} (hl : s.lutValid = true) {x : Refresh} (hx : x ∈ refreshes s) (tr : Transport) :
    exec x.command (onTransport tr s) = .next (perform x.actions (onTransport tr (x.start s))) := by
  obtain rfl | rfl := refreshes_cases hx
  · exact exec_update_of_lutValid (s := onTransport tr s) hl
  · exact exec_eraseDisplay_of_lutValid (s := onTransport tr s) hl

/-- The step of a waiting refresh with no reset awaited, under any transport. -/
theorem step_waiting_onTransport {t : State} {e : Event} {as : List Action} (hb : buildOk t.build = true)
    (hp : t.presented = some e) (hrest : restActions t e = some as) (hr : t.resetAfter = none) (tr : Transport) :
    step (onTransport tr t) = .next (if (acknowledge (onTransport tr t)).presented.isSome then
      acknowledge (onTransport tr t) else perform as (acknowledge (onTransport tr t))) := by
  have hnone : (onTransport tr t).resetAfter = none := hr
  have hstep := step_waiting (s := onTransport tr t) hb hp (((samePos_onTransport tr t).rest e).trans hrest)
    (by simp [hnone])
  rwa [tickReset_none hnone] at hstep

/-- Settles O47: the position says what is left, and the acknowledgements add up. -/
theorem waitingRefreshResumes : Obligations.WaitingRefreshResumes := by
  unfold Obligations.WaitingRefreshResumes
  intro s t n x hx hb hl hr hp h hwait
  have hexec := exec_refresh_onTransport hl hx
  obtain ⟨-, hres, -⟩ := refresh_start hx hb
  obtain rfl := Host.Outcome.next.inj ((hexec (.acksLeft n)).symm.trans h)
  obtain ⟨e, he⟩ := Option.ne_none_iff_exists'.1 hwait
  obtain ⟨hstall, rest, hrest, hready, hmore⟩ := perform_resumed x.actions (x.start s) n e hr hp hres he
  generalize ht : perform x.actions (onTransport (.acksLeft n) (x.start s)) = t at *
  have hnone : t.resetAfter = none := ht ▸ resetAfter_perform hr
  have hbuild : t.build = s.build := ht ▸ (kept_build s.build).perform x.actions (.inl hr) rfl
  have hstep := step_waiting_onTransport (hbuild ▸ hb) he hrest hnone
  refine ⟨?_, fun m => ?_⟩
  · exact (hstep .ready).trans ((congrArg Host.Outcome.next hready).trans (hexec .ready).symm)
  · cases m with
    | zero =>
      have hself : onTransport (.acksLeft 0) t = t := by rw [← hstall]; rfl
      have hhold : step t = .next t := by simpa [hself, acknowledge_stalled hstall, he] using hstep (.acksLeft 0)
      exact (congrArg step hself).trans (hhold.trans h.symm)
    | succ m => exact (hstep _).trans ((congrArg Host.Outcome.next (hmore m)).trans (hexec _).symm)

/-! ## To a reset (R340) -/

/-- No action writes the build, the records or the draw. -/
theorem afterReset_doAll {s u : State} (hb : u.build = s.build) (hr : u.results = s.results)
    (hf : u.faultLog = s.faultLog) (hd : u.draw = s.draw) (as : List Action) : AfterReset s (resetEvent (doAll as u)) := by
  obtain ⟨hb', hr', hf', hd'⟩ := doAll_keeps (as := as) (s := u)
    (P := fun v => v.build = s.build ∧ v.results = s.results ∧ v.faultLog = s.faultLog ∧ v.draw = s.draw)
    (fun a _ v hv => by cases a <;> simpa [act, buildRow] using hv) ⟨hb, hr, hf, hd⟩
  exact afterReset_resetEvent hb' hr' hf' hd'

/-- The first actions of a refresh leave the first marks of its trace. -/
theorem trace_refresh_take {s : State} {x : Refresh} (hx : x ∈ refreshes s) (hb : buildOk s.build = true) (k : Nat) :
    ∃ ms, ms <+: x.out ∧ (doAll (x.actions.take k) (x.start s)).trace = s.trace ++ ms := by
  obtain ⟨ms, hms, -⟩ := trace_doAll (x.actions.take k) (x.start s)
  obtain ⟨ns, hns, -⟩ := trace_doAll (x.actions.drop k) (doAll (x.actions.take k) (x.start s))
  have hall := trace_refresh hx hb
  rw [← List.take_append_drop k x.actions, doAll_append, hns, hms, List.append_assoc] at hall
  exact ⟨ms, ⟨ns, List.append_cancel_left hall⟩, hms⟩

/-- The same reset, and the same trace, after actions that begin with another count of the reset. -/
theorem resetEvent_doAll_congr {s t : State} (h : untimed s = untimed t) (as : List Action) :
    untimed (doAll as s) = untimed (doAll as t) := by
  rw [← doAll_untimed, h, doAll_untimed]

/-- Settles O17: a reset after `k` actions finds what they have done, and abandons the rest. -/
theorem resetAbandonsRefresh : Obligations.ResetAbandonsRefresh := by
  unfold Obligations.ResetAbandonsRefresh
  refine ⟨fun s k x hx hb hl hp hr hk hpre => ?_, fun s k e rest hb hp hrest hr hk hpre => ?_⟩
  · obtain ⟨ms, hms, htr⟩ := trace_refresh_take hx hb k
    have hperf := perform_abandoned x.actions (s := x.start s) hr hk hp hpre
    exact ⟨_, ms, (exec_refresh hl hx).trans (congrArg Host.Outcome.next hperf), hms, htr, rfl,
      afterReset_doAll rfl rfl rfl rfl _⟩
  · have hack : (acknowledge s).presented = none :=
      (acknowledge_or_stuck s).resolve_right (not_stuck_of_doAll hpre)
    have hsame : untimed (acknowledge (tickReset s)) = untimed (acknowledge s) := by
      rw [← acknowledge_untimed, ← acknowledge_untimed]
      rfl
    have hack' : (acknowledge (tickReset s)).presented = none := (congrArg State.presented hsame).trans hack
    have hdone := resetEvent_doAll_congr hsame (rest.take k)
    have htick : (acknowledge (tickReset s)).resetAfter = some k := by simp [hr]
    have hperf := perform_abandoned rest htick hk hack' ((congrArg State.presented hdone).trans hpre)
    refine ⟨_, step_waiting hb hp hrest (by simp [hr]), ?_, ?_⟩
    · have htr := congrArg State.trace hdone
      rwa [hack', if_neg (by simp), hperf]
    · rw [hack', if_neg (by simp), hperf]
      exact afterReset_doAll (by simp) (by simp) (by simp) (by simp) _

end Sys2Proof.Machine
